-- ==== Sys2Proof/Word.lean ====
section
/-!
DEFINITION. The byte and the register word of the block, and the one narrowing the rules use.
-/

namespace Sys2Proof

/-- A byte, an integer 0 to 255 (00_scope.md R9); in a byte bit 7 is the most significant (R10). -/
abbrev Byte := BitVec 8

/-- A 32-bit register value (10_state.md R24). -/
abbrev Word := BitVec 32

/-- The byte that holds `n`; only `n` below 256 occurs in a stream (30_encoding.md R85). -/
abbrev byteOf (n : Nat) : Byte := BitVec.ofNat 8 n

end Sys2Proof
end

