-- ==== Sys2Proof/Config.lean ====
section
/-!
DEFINITION. What is fixed for one block (the three capacities of 00_scope.md R8) and the free values: what a host read
of a place that holds no value returns.
-/

namespace Sys2Proof

/-- The three OPEN parameters of 00_scope.md R8, each at most 2^32 - 1. A claim about every state is a claim about
every choice of them, because State carries them (log entry 3). -/
structure Config where
  /-- `IBUF_CAP`, the number of cells of `IBUF`. -/
  ibufCap : Fin (2 ^ 32)
  /-- `OBUF_CAP`, the number of cells of `OBUF`. -/
  obufCap : Fin (2 ^ 32)
  /-- `DICT_CAP`, the number of LZ78 dictionary entries besides code 0. -/
  dictCap : Fin (2 ^ 32)
  deriving DecidableEq, Repr

/-- The largest capacities R8 allows; State.reset has them (log entry 3, DESIGN CHOICE). -/
def Config.widest : Config :=
  { ibufCap := ⟨4294967295, by decide⟩
    obufCap := ⟨4294967295, by decide⟩
    dictCap := ⟨4294967295, by decide⟩ }

/-- FREE VALUE. The `n`-th 32-bit value drawn: what a host read of a register that holds no value returns
(10_state.md R25, 93_implementation_defined.md U22 and U27; log entries 4 and 6). Nothing constrains it. -/
opaque Config.freeWord : Nat → BitVec 32

/-- FREE VALUE. The `n`-th byte drawn: what a host read of a buffer cell that holds no value returns
(10_state.md R43, 93_implementation_defined.md U24; log entry 5). Nothing constrains it. -/
opaque Config.freeByte : Nat → BitVec 8

end Sys2Proof
end

