-- ==== Sys2Proof/Syntax.lean ====
section
/-!
DEFINITION. The sixteen commands (one constructor per row of spec/opcode_table.json), the host's operations
(30_encoding.md R90, R91; 60_exceptions.md R296), and the units of the stream formats (30_encoding.md R74 to R84).
-/

namespace Sys2Proof

/-- The commands of 30_encoding.md R71. A command has no operand field (R70): its operands are the input buffer and
the parameter registers of its unit. -/
inductive Instr
  | rlecEnc   -- RLEC_ENC 0x10
  | rlecDec   -- RLEC_DEC 0x11
  | rlepEnc   -- RLEP_ENC 0x20
  | rlepDec   -- RLEP_DEC 0x21
  | mtfEnc    -- MTF_ENC 0x30
  | mtfDec    -- MTF_DEC 0x31
  | bwtEnc    -- BWT_ENC 0x40
  | bwtDec    -- BWT_DEC 0x41
  | hufEnc    -- HUF_ENC 0x50
  | hufDec    -- HUF_DEC 0x51
  | hufBuild  -- HUF_BUILD 0x52
  | lz77Enc   -- LZ77_ENC 0x60
  | lz77Dec   -- LZ77_DEC 0x61
  | lzssEnc   -- LZSS_ENC 0x70
  | lz78Enc   -- LZ78_ENC 0x80
  | lz78Dec   -- LZ78_DEC 0x81
  deriving DecidableEq, Repr

/-- One host operation (60_exceptions.md R296; the script lines of 30_encoding.md R90 and R91). Each is one step. -/
inductive HostOp
  /-- `RESET`. -/
  | reset
  /-- `SET`: write the 32-bit value to the register of that number. -/
  | set (n : Nat) (v : Word)
  /-- Write one cell of `IBUF`. -/
  | writeIbuf (k : Nat) (b : Byte)
  /-- Write one cell of `OBUF`, which the host cannot do (10_state.md R43). -/
  | writeObuf (k : Nat) (b : Byte)
  /-- `LOAD`: write the bytes from offset 0 of `IBUF` on and their number to `IN_LEN`. -/
  | load (bytes : List Byte)
  /-- `RUN`: write the opcode to `CMD`, which issues the command. -/
  | run (op : Byte)
  /-- Read the register of that number. -/
  | readReg (n : Nat)
  /-- Read one cell of `OBUF`. -/
  | readObuf (k : Nat)
  /-- Read one cell of `IBUF`. -/
  | readIbuf (k : Nat)
  /-- `EXPECT <REG> = <value>`. -/
  | expectReg (n : Nat) (v : Word)
  /-- `EXPECT OBUF = <bytes>`. -/
  | expectObuf (bytes : List Byte)
  /-- `PIPE`: load the bytes `OBUF[0:OUT_LEN]`. -/
  | pipe
  deriving DecidableEq, Repr

/-- What a host read returned, in the order the reads were made. -/
inductive Seen
  | reg (n : Nat) (v : Word)
  | obuf (k : Nat) (b : Byte)
  | ibuf (k : Nat) (b : Byte)
  | expect (met : Bool)
  deriving DecidableEq, Repr

/-- A token of format `RLEC` (30_encoding.md R75). -/
inductive RlecToken
  | run (len : Nat) (value : Byte)
  | lit (bytes : List Byte)
  deriving DecidableEq, Repr

/-- A pair of format `RLEP` (30_encoding.md R76). -/
structure RlepPair where
  count : Nat
  value : Byte
  deriving DecidableEq, Repr

/-- A record of format `BWTR` (30_encoding.md R78): the BWT block length is the length of `last`. -/
structure BwtRecord where
  primary : Nat
  last : List Byte
  deriving DecidableEq, Repr

/-- An entry of a frequency table (30_encoding.md R79, R80; 44_huffman.md R171). -/
structure HufEntry where
  sym : Byte
  freq : Nat
  deriving DecidableEq, Repr

/-- An entry of format `HUFC` (30_encoding.md R81): a symbol and its code bits, first bit first. -/
structure HufCode where
  sym : Byte
  bits : List Bool
  deriving DecidableEq, Repr

/-- A Huffman tree (44_huffman.md R172). -/
inductive HufTree
  | leaf (sym : Byte)
  | node (left right : HufTree)
  deriving DecidableEq, Repr

/-- A token of format `LZ77T` (30_encoding.md R82). -/
inductive Lz77Token
  | full (offset length : Nat) (literal : Byte)
  | final (offset length : Nat)
  deriving DecidableEq, Repr

/-- A token of format `LZSST` (30_encoding.md R83). -/
inductive LzssToken
  | literal (b : Byte)
  | copy (offset length : Nat)
  deriving DecidableEq, Repr

/-- A token of format `LZ78T` (30_encoding.md R84). -/
inductive Lz78Token
  | full (code : Nat) (literal : Byte)
  | final (code : Nat)
  deriving DecidableEq, Repr

end Sys2Proof
end

