-- ==== Sys2Proof/WellFormed.lean ====
section
/-!
DEFINITION. When a command, a host operation or a stream unit has every field within the width the spec gives it.
-/

namespace Sys2Proof

/-- Every command is well formed: a command has no operand field that could hold an illegal value (30_encoding.md R70). -/
def Instr.wf : Instr → Bool := fun _ => true

/-- The capacities the table of OPEN parameters allows, 1 to 2^32 - 1 (92_eei_decisions.md). -/
def Config.wf (c : Config) : Bool :=
  decide (1 ≤ c.ibufCap.val) && decide (1 ≤ c.obufCap.val) && decide (1 ≤ c.dictCap.val)

/-- A host operation names registers and cells that exist and writes `CMD` with at most 8 bits (10_state.md R24, R27,
R42, R43). -/
def HostOp.wf (c : Config) : HostOp → Bool
  | .reset => true
  | .set n v => decide (n ≤ 13) && (decide (n ≠ 0) || decide (v.toNat ≤ 255))
  | .writeIbuf k _ => decide (k < c.ibufCap.val)
  | .writeObuf k _ => decide (k < c.obufCap.val)
  | .load bytes => decide (bytes.length ≤ c.ibufCap.val)
  | .run _ => true
  | .readReg n => decide (n ≤ 13)
  | .readObuf k => decide (k < c.obufCap.val)
  | .readIbuf k => decide (k < c.ibufCap.val)
  | .expectReg n _ => decide (n ≤ 13)
  | .expectObuf bytes => decide (bytes.length ≤ c.obufCap.val)
  | .pipe => true

/-- The 7-bit length field of 30_encoding.md R75. -/
def RlecToken.wf : RlecToken → Bool
  | .run len _ => decide (len ≤ 127)
  | .lit bytes => decide (bytes.length ≤ 127)

/-- The 8-bit count field of 30_encoding.md R76. -/
def RlepPair.wf (p : RlepPair) : Bool := decide (p.count ≤ 255)

/-- A record a decoder accepts: 1 to 2^32 - 1 bytes, primary index below the length (30_encoding.md R78). -/
def BwtRecord.wf (r : BwtRecord) : Bool :=
  decide (r.last.length < 2 ^ 32) && decide (r.primary < r.last.length)

/-- A frequency table (44_huffman.md R171): 1 to 256 entries, distinct symbols, frequencies 1 to 2^32 - 1. -/
def HufEntry.tableWf (tbl : List HufEntry) : Bool :=
  decide (1 ≤ tbl.length) && decide (tbl.length ≤ 256) && decide ((tbl.map HufEntry.sym).Nodup)
    && tbl.all fun e => decide (1 ≤ e.freq) && decide (e.freq < 2 ^ 32)

/-- A codebook entry's length field (30_encoding.md R81): 1 to 255 bits. -/
def HufCode.wf (c : HufCode) : Bool := decide (1 ≤ c.bits.length) && decide (c.bits.length ≤ 255)

/-- The two 2-byte fields of 30_encoding.md R82. -/
def Lz77Token.wf : Lz77Token → Bool
  | .full off len _ => decide (off < 2 ^ 16) && decide (len < 2 ^ 16)
  | .final off len => decide (off < 2 ^ 16) && decide (len < 2 ^ 16)

/-- The two 4-byte fields of 30_encoding.md R83. -/
def LzssToken.wf : LzssToken → Bool
  | .literal _ => true
  | .copy off len => decide (off < 2 ^ 32) && decide (len < 2 ^ 32)

/-- The 4-byte code field of 30_encoding.md R84. -/
def Lz78Token.wf : Lz78Token → Bool
  | .full code _ => decide (code < 2 ^ 32)
  | .final code => decide (code < 2 ^ 32)

end Sys2Proof
end

