-- ==== Sys2Proof/Decode.lean ====
section
/-!
DEFINITION. The command decoder, total on every byte (30_encoding.md R70, R71, R73), and after it the encoder, both
written from the opcode map.
-/

namespace Sys2Proof

/-- Why a command is not decoded. -/
inductive DecodeReject
  /-- One of the 240 opcodes outside the map (30_encoding.md R73). -/
  | illegalCommand (op : Byte)
  /-- There is no byte to decode. -/
  | noByte
  deriving DecidableEq, Repr

/-- Field `FAM`, bits 7:4 (30_encoding.md R70). -/
def opFamily (op : Byte) : Nat := (op.extractLsb' 4 4).toNat

/-- Field `FN`, bits 3:0 (30_encoding.md R70). -/
def opFunction (op : Byte) : Nat := (op.extractLsb' 0 4).toNat

/-- The opcode map of 30_encoding.md R71, read by family and function; every other value is illegal (R73). -/
def decodeOp (op : Byte) : Except DecodeReject Instr :=
  match opFamily op, opFunction op with
  | 1, 0 => .ok .rlecEnc
  | 1, 1 => .ok .rlecDec
  | 2, 0 => .ok .rlepEnc
  | 2, 1 => .ok .rlepDec
  | 3, 0 => .ok .mtfEnc
  | 3, 1 => .ok .mtfDec
  | 4, 0 => .ok .bwtEnc
  | 4, 1 => .ok .bwtDec
  | 5, 0 => .ok .hufEnc
  | 5, 1 => .ok .hufDec
  | 5, 2 => .ok .hufBuild
  | 6, 0 => .ok .lz77Enc
  | 6, 1 => .ok .lz77Dec
  | 7, 0 => .ok .lzssEnc
  | 8, 0 => .ok .lz78Enc
  | 8, 1 => .ok .lz78Dec
  | _, _ => .error (.illegalCommand op)

/-- Decode the first command of a list of bytes: every command is one byte long (30_encoding.md R70). -/
def decodeBytes : List Byte → Except DecodeReject (Instr × List Byte)
  | [] => .error .noByte
  | op :: rest =>
    match decodeOp op with
    | .ok i => .ok (i, rest)
    | .error e => .error e

/-- The opcode column of 30_encoding.md R71. -/
def opcode : Instr → Byte
  | .rlecEnc => 0x10#8
  | .rlecDec => 0x11#8
  | .rlepEnc => 0x20#8
  | .rlepDec => 0x21#8
  | .mtfEnc => 0x30#8
  | .mtfDec => 0x31#8
  | .bwtEnc => 0x40#8
  | .bwtDec => 0x41#8
  | .hufEnc => 0x50#8
  | .hufDec => 0x51#8
  | .hufBuild => 0x52#8
  | .lz77Enc => 0x60#8
  | .lz77Dec => 0x61#8
  | .lzssEnc => 0x70#8
  | .lz78Enc => 0x80#8
  | .lz78Dec => 0x81#8

/-- The bytes of a command. -/
def encode (i : Instr) : List Byte := [opcode i]

/-- The opcode byte of a table row's bits: the row has `nbits` bits and the first byte is the least significant one. -/
def tableOpcode (nbits w : Nat) : Byte := byteOf (w % 2 ^ nbits)

/-- The command the decoder reads from the bits of a row of spec/opcode_table.json. -/
def decodeTableWord (nbits w : Nat) : Option Instr :=
  match decodeBytes [tableOpcode nbits w] with
  | .ok (i, _) => some i
  | .error _ => none

end Sys2Proof
end

