-- ==== Sys2Proof/Machine/State.lean ====
section
/-!
DEFINITION. The state of the block as plain data: the fourteen registers of 10_state.md R24, the two buffers (R42, R43),
the capacities (00_scope.md R8), and the model's own fields for the host (log entries 1, 2, 4). State.reset is the table
of R47.
-/

namespace Sys2Proof.Machine

/-- A buffer: the cells that hold a byte, addresses strictly rising. A cell that is not listed holds no value
(10_state.md R42, R43). -/
abbrev Memory := List Host.Cell

/-- The nine parameter registers, numbers 5 to 13 (10_state.md R26). Only the host writes them. `none` is the spec's
"no value" (R25), which four of them hold after reset. -/
structure Params where
  rlecMinRun : Word
  rlepMinRun : Word
  mtfAlpha : Word
  bwtBlock : Word
  lz77Window : Option Word
  lz77Lookahead : Option Word
  lzssWindow : Option Word
  lzssLookahead : Option Word
  lzssMinMatch : Word
  deriving DecidableEq, Repr

structure State where
  /-- The capacities of this block (00_scope.md R8); no operation changes them. -/
  cfg : Config
  /-- Registers 5 to 13. -/
  params : Params
  /-- Register 0, `CMD` (10_state.md R27). -/
  cmd : BitVec 8
  /-- Register 1, `STATUS`, field `STATE` (10_state.md R29). -/
  status : BitVec 2
  /-- Register 2, `ERR`, field `CODE` (10_state.md R30). -/
  err : BitVec 8
  /-- Register 3, `IN_LEN` (10_state.md R31). -/
  inLen : Word
  /-- Register 4, `OUT_LEN` (10_state.md R32). -/
  outLen : Word
  /-- `IBUF` (10_state.md R42). -/
  ibuf : Memory
  /-- `OBUF` (10_state.md R43). -/
  obuf : Memory
  /-- MODEL'S OWN: the host operations not yet performed, next one first (log entry 1). -/
  host : List HostOp
  /-- MODEL'S OWN: what the host's reads returned, oldest first (log entry 2). -/
  seen : List Seen
  /-- MODEL'S OWN: how many free values have been drawn (log entry 4). -/
  draws : Nat
  deriving DecidableEq, Repr

/-- What stops the machine. No command raises one; see log entry 7. -/
inductive Fault
  /-- Raised by the host operations that write or read a cell of `IBUF` at or above `IBUF_CAP`, which does not exist
  (10_state.md R42). Safe: nothing is claimed of such an access. -/
  | noSuchIbufCell (k : Nat)
  /-- Raised by the host operation that reads a cell of `OBUF` at or above `OBUF_CAP`, which does not exist
  (10_state.md R43). Safe: nothing is claimed of such an access. -/
  | noSuchObufCell (k : Nat)
  deriving DecidableEq, Repr

/-- What the model does not give a meaning to. -/
inductive Refusal
  /-- Raised by an arm of exec whose command has no meaning yet; no arm raises it now. Safe: it stops. -/
  | notModelled (mnemonic : String)
  /-- Raised by the host operation `set` on register 0 with a value above 255: a write to `CMD` is of a value 0 to 255
  (10_state.md R28), log entry 8. Safe: nothing is claimed of such a write. -/
  | cmdValueTooWide (v : Word)
  deriving DecidableEq, Repr

/-- The parameter registers after reset (10_state.md R47). -/
def Params.reset : Params :=
  { rlecMinRun := 2#32
    rlepMinRun := 2#32
    mtfAlpha := 256#32
    bwtBlock := 0#32
    lz77Window := none
    lz77Lookahead := none
    lzssWindow := none
    lzssLookahead := none
    lzssMinMatch := 3#32 }

/-- The state after reset (10_state.md R47), for a block of the widest capacities, with nothing left for the host to
do (log entries 1, 2, 3, 4). -/
def State.reset : State :=
  { cfg := Config.widest
    params := Params.reset
    cmd := 0x00#8
    status := 0#2
    err := 0x00#8
    inLen := 0#32
    outLen := 0#32
    ibuf := []
    obuf := []
    host := []
    seen := []
    draws := 0 }

end Sys2Proof.Machine
end

