-- ==== Sys2Proof/Machine/Flags.lean ====
section
/-!
DEFINITION. The two status registers, the block's only flags (10_state.md R23): the values of `STATUS.STATE` (R29), the
error causes and their codes (60_exceptions.md R281), and the one operation that writes both.
-/

namespace Sys2Proof.Machine

/-- `STATUS.STATE` = `IDLE`: no command since reset (10_state.md R29). -/
def statusIdle : BitVec 2 := 0#2

/-- `STATUS.STATE` = `DONE`: the last command succeeded (10_state.md R29). -/
def statusDone : BitVec 2 := 1#2

/-- `STATUS.STATE` = `ERROR`: the last command failed (10_state.md R29). -/
def statusError : BitVec 2 := 2#2

/-- The error causes of 60_exceptions.md R281, all but `E_NONE`. -/
inductive Err
  | illegalCmd
  | param
  | capacity
  | rlecOverrun
  | rlecNoValue
  | rlepOdd
  | mtfRange
  | bwtTrunc
  | bwtIndex
  | hufHeader
  | hufBits
  | lz77Length
  | lz77Ref
  | lz78Length
  | lz78Code
  deriving DecidableEq, Repr

/-- `ERR.CODE` of no error, `E_NONE` (60_exceptions.md R281). -/
def codeNone : BitVec 8 := 0x00#8

/-- `ERR.CODE` of each cause (60_exceptions.md R281). -/
def Err.code : Err → BitVec 8
  | .illegalCmd => 0x01#8
  | .param => 0x02#8
  | .capacity => 0x03#8
  | .rlecOverrun => 0x10#8
  | .rlecNoValue => 0x11#8
  | .rlepOdd => 0x12#8
  | .mtfRange => 0x13#8
  | .bwtTrunc => 0x14#8
  | .bwtIndex => 0x15#8
  | .hufHeader => 0x16#8
  | .hufBits => 0x17#8
  | .lz77Length => 0x18#8
  | .lz77Ref => 0x19#8
  | .lz78Length => 0x1A#8
  | .lz78Code => 0x1B#8

/-- The status registers after a command: `DONE` with `E_NONE`, or `ERROR` with the code (30_encoding.md R72). -/
def State.withOutcome (s : State) : Option Err → State
  | none => { s with err := codeNone, status := statusDone }
  | some e => { s with err := e.code, status := statusError }

end Sys2Proof.Machine
end

