-- ==== Sys2Proof/Machine/Ops.lean ====
section
/-!
DEFINITION. The named operations over the buffers and registers, and the two ways a command ends (30_encoding.md R72):
`State.succeed`, and `State.fail`, which is the block's trap entry (60_exceptions.md R286). There is no return beside it:
the next command starts as from any state (R287).
-/

namespace Sys2Proof.Machine

/-- What a cell that is not listed holds: no value (10_state.md R42, R43). -/
def Memory.unlisted : Option Byte := none

/-- The content of the cell at offset `k`. -/
def Memory.read : Memory → Nat → Option Byte
  | [], _ => Memory.unlisted
  | (a, b) :: m, k => if a = k then some b else Memory.read m k

/-- Write one cell, keeping the addresses strictly rising. -/
def Memory.write : Memory → Nat → Byte → Memory
  | [], k, b => [(k, b)]
  | (a, c) :: m, k, b =>
    if k < a then (k, b) :: (a, c) :: m
    else if k = a then (k, b) :: m
    else (a, c) :: Memory.write m k b

/-- Write consecutive cells from offset `k` on. -/
def Memory.writeBytes : Memory → Nat → List Byte → Memory
  | m, _, [] => m
  | m, k, b :: bs => Memory.writeBytes (m.write k b) (k + 1) bs

/-- A buffer whose cells from offset `k` on are the given bytes and which holds nothing else. -/
def Memory.ofBytes : Nat → List Byte → Memory
  | _, [] => []
  | k, b :: bs => (k, b) :: Memory.ofBytes (k + 1) bs

/-- The `n` bytes from offset `k` on, or none if one of those cells holds no value. -/
def Memory.readBytes (m : Memory) : Nat → Nat → Option (List Byte)
  | _, 0 => some []
  | k, n + 1 =>
    match m.read k with
    | none => none
    | some b =>
      match Memory.readBytes m (k + 1) n with
      | none => none
      | some bs => some (b :: bs)

/-- The canonical form: addresses strictly rising. (No listed entry equals what an unlisted address reads as, because a
listed entry is a byte and an unlisted address holds none.) -/
def Memory.wf : Memory → Bool
  | [] => true
  | [_] => true
  | (a, _) :: (b, c) :: m => decide (a < b) && Memory.wf ((b, c) :: m)

/-- Every listed cell exists in a buffer of `cap` cells. -/
def Memory.within (m : Memory) (cap : Nat) : Bool := m.all fun c => decide (c.1 < cap)

/-- `succeed(out)` of 30_encoding.md R72: `OBUF` holds the output and nothing else. -/
def State.succeed (s : State) (out : List Byte) : State :=
  { s with obuf := Memory.ofBytes 0 out, outLen := BitVec.ofNat 32 out.length }.withOutcome none

/-- `fail(E)` of 30_encoding.md R72, the block's trap entry (60_exceptions.md R286): no output, the code in `ERR`; `IBUF`,
`IN_LEN`, `CMD` and the parameter registers keep their values, nothing is saved and control goes nowhere. -/
def State.fail (s : State) (e : Err) : State :=
  { s with obuf := [], outLen := 0#32 }.withOutcome (some e)

/-- Steps 7 to 9 of 30_encoding.md R72: a raised error, then the output capacity, then success. -/
def State.conclude (s : State) : Except Err (List Byte) → State
  | .error e => s.fail e
  | .ok out => if out.length > s.cfg.obufCap.val then s.fail .capacity else s.succeed out

/-- Store an opcode in `CMD` (10_state.md R28). -/
def State.withCmd (s : State) (op : Byte) : State := { s with cmd := op }

/-- Replace the list of host operations still to perform. -/
def State.withHost (s : State) (ops : List HostOp) : State := { s with host := ops }

/-- Append what a host read returned. -/
def State.record (s : State) (x : Seen) : State := { s with seen := s.seen ++ [x] }

/-- Set the number of free values drawn. -/
def State.withDraws (s : State) (n : Nat) : State := { s with draws := n }

/-- The reset of 10_state.md R47 and 70_reset_and_hazards.md R310: every register and buffer. The capacities are the
block's, and what the host has still to do and has seen is the host's (log entry 9). -/
def State.resetBlock (s : State) : State :=
  { State.reset with cfg := s.cfg, host := s.host, seen := s.seen, draws := s.draws }

/-- A host write to a register other than `CMD` (10_state.md R24): stored if the register is `RW`, ignored if it is `RO`
or does not exist. -/
def State.writeReg (s : State) (n : Nat) (v : Word) : State :=
  match n with
  | 3 => { s with inLen := v }
  | 5 => { s with params := { s.params with rlecMinRun := v } }
  | 6 => { s with params := { s.params with rlepMinRun := v } }
  | 7 => { s with params := { s.params with mtfAlpha := v } }
  | 8 => { s with params := { s.params with bwtBlock := v } }
  | 9 => { s with params := { s.params with lz77Window := some v } }
  | 10 => { s with params := { s.params with lz77Lookahead := some v } }
  | 11 => { s with params := { s.params with lzssWindow := some v } }
  | 12 => { s with params := { s.params with lzssLookahead := some v } }
  | 13 => { s with params := { s.params with lzssMinMatch := v } }
  | _ => s

/-- The value a register holds, zero-extended to 32 bits (00_scope.md R10); none for a register that holds no value or
does not exist (10_state.md R24, R25). -/
def State.readReg (s : State) (n : Nat) : Option Word :=
  match n with
  | 0 => some (s.cmd.setWidth 32)
  | 1 => some (s.status.setWidth 32)
  | 2 => some (s.err.setWidth 32)
  | 3 => some s.inLen
  | 4 => some s.outLen
  | 5 => some s.params.rlecMinRun
  | 6 => some s.params.rlepMinRun
  | 7 => some s.params.mtfAlpha
  | 8 => some s.params.bwtBlock
  | 9 => s.params.lz77Window
  | 10 => s.params.lz77Lookahead
  | 11 => s.params.lzssWindow
  | 12 => s.params.lzssLookahead
  | 13 => some s.params.lzssMinMatch
  | _ => none

/-- What a host read of a word-sized place returns and the number of values drawn after it: the content, or a free
value where the place holds none. -/
def drawWord (draws : Nat) : Option Word → Word × Nat
  | some v => (v, draws)
  | none => (Config.freeWord draws, draws + 1)

/-- The same for a buffer cell. -/
def drawByte (draws : Nat) : Option Byte → Byte × Nat
  | some b => (b, draws)
  | none => (Config.freeByte draws, draws + 1)

/-- Host reads of the `n` cells from offset `k` on, in order. -/
def Memory.drawBytes (m : Memory) : Nat → Nat → Nat → List Byte × Nat
  | draws, _, 0 => ([], draws)
  | draws, k, n + 1 =>
    let r := drawByte draws (m.read k)
    let rest := Memory.drawBytes m r.2 (k + 1) n
    (r.1 :: rest.1, rest.2)

end Sys2Proof.Machine
end

