-- ==== Sys2Proof/Machine/Operands.lean ====
section
/-!
DEFINITION. The operands of a command, all implicit (30_encoding.md R70): the input buffer and the parameter registers,
each with the check of R72 step 2 or step 3; and the big-endian fields the units read and write (00_scope.md R11).
-/

namespace Sys2Proof.Machine

/-- Step 2 of 30_encoding.md R72: `IBUF[0:IN_LEN]`, or none when `IN_LEN > IBUF_CAP` or a cell of it holds no value. -/
def inputOperand (s : State) : Option (List Byte) :=
  if s.inLen.toNat > s.cfg.ibufCap.val then none else s.ibuf.readBytes 0 s.inLen.toNat

/-- A command that uses no parameter register. -/
def noOperand : Option Unit := some ()

/-- `RLEC_MIN_RUN`: every value is accepted (10_state.md R33). -/
def rlecOperand (p : Params) : Option Nat := some p.rlecMinRun.toNat

/-- `MTF_ALPHA`: 0 to 256 (10_state.md R35, 60_exceptions.md R283). -/
def mtfOperand (p : Params) : Option Nat :=
  if p.mtfAlpha.toNat ≤ 256 then some p.mtfAlpha.toNat else none

/-- `BWT_BLOCK`: every value is accepted (10_state.md R36). -/
def bwtOperand (p : Params) : Option Nat := some p.bwtBlock.toNat

/-- A register that must hold a value, of at most `bound`. -/
def boundedOperand (bound : Nat) : Option Word → Option Nat
  | none => none
  | some v => if v.toNat ≤ bound then some v.toNat else none

/-- `LZ77_WINDOW` and `LZ77_LOOKAHEAD`: each must hold a value 0 to 65535 (10_state.md R37, R38). -/
def lz77Operand (p : Params) : Option (Nat × Nat) :=
  match boundedOperand 65535 p.lz77Window, boundedOperand 65535 p.lz77Lookahead with
  | some w, some la => some (w, la)
  | _, _ => none

/-- `LZSS_WINDOW`, `LZSS_LOOKAHEAD` and `LZSS_MIN_MATCH`: the first two must hold a value, and every 32-bit value of the
three is accepted (10_state.md R39 to R41). -/
def lzssOperand (p : Params) : Option (Nat × Nat × Nat) :=
  match boundedOperand 4294967295 p.lzssWindow, boundedOperand 4294967295 p.lzssLookahead with
  | some w, some la => some (w, la, p.lzssMinMatch.toNat)
  | _, _ => none

/-- `be16(v)` of 00_scope.md R11. -/
def be16 (v : Nat) : List Byte := [byteOf (v / 256), byteOf v]

/-- `be32(v)` of 00_scope.md R11. -/
def be32 (v : Nat) : List Byte := [byteOf (v / 16777216), byteOf (v / 65536), byteOf (v / 256), byteOf v]

/-- `rd16` of two bytes (00_scope.md R11). -/
def rd16 (b0 b1 : Byte) : Nat := b0.toNat * 256 + b1.toNat

/-- `rd32` of four bytes (00_scope.md R11). -/
def rd32 (b0 b1 b2 b3 : Byte) : Nat :=
  b0.toNat * 16777216 + b1.toNat * 65536 + b2.toNat * 256 + b3.toNat

end Sys2Proof.Machine
end

