-- ==== Sys2Proof/Machine/Command.lean ====
section
/-!
DEFINITION. The execution of a legal command around its unit's function: steps 2 to 9 of 30_encoding.md R72.
-/

namespace Sys2Proof.Machine

/-- Steps 2 to 9 of 30_encoding.md R72: the input and the parameters or `E_PARAM` (60_exceptions.md R283), the empty
input (00_scope.md R15), the unit's function, and the end of the command. -/
def command {P : Type} (operand : Option P) (unit : P → List Byte → Except Err (List Byte)) (s : State) :
    Host.Outcome State Fault Refusal :=
  match inputOperand s, operand with
  | some input, some p => .next (if input = [] then s.succeed [] else s.conclude (unit p input))
  | _, _ => .next (s.fail .param)

end Sys2Proof.Machine
end

