-- ==== Sys2Proof/Machine/Formats.lean ====
section
/-!
DEFINITION. The bytes of each unit of the stream formats (30_encoding.md R75 to R84) and of a bit string
(44_huffman.md R178, 20_memory.md R55).
-/

namespace Sys2Proof.Machine

/-- 30_encoding.md R75: header bit 7 is 0 for a run and 1 for a literal block, bits 6:0 are the length. -/
def rlecTokenBytes : RlecToken → List Byte
  | .run len v => [byteOf len, v]
  | .lit bytes => (0x80#8 ||| byteOf bytes.length) :: bytes

/-- What a token of format `RLEC` stands for (30_encoding.md R75). -/
def rlecTokenMeaning : RlecToken → List Byte
  | .run len v => List.replicate len v
  | .lit bytes => bytes

/-- 30_encoding.md R76. -/
def rlepPairBytes (p : RlepPair) : List Byte := [byteOf p.count, p.value]

/-- What a pair of format `RLEP` stands for (30_encoding.md R76). -/
def rlepPairMeaning (p : RlepPair) : List Byte := List.replicate p.count p.value

/-- 30_encoding.md R78. -/
def bwtRecordBytes (r : BwtRecord) : List Byte := be32 r.last.length ++ be32 r.primary ++ r.last

/-- An entry of 30_encoding.md R79 and R80: the symbol, then the frequency. -/
def hufEntryBytes (e : HufEntry) : List Byte := e.sym :: be32 e.freq

/-- Format `HUFT`, 30_encoding.md R80: the count, then the entries. -/
def hufTableBytes (tbl : List HufEntry) : List Byte := be16 tbl.length ++ tbl.flatMap hufEntryBytes

/-- The bits of a byte, bit 7 first (20_memory.md R55). -/
def bitsOfByte (b : Byte) : List Bool :=
  [b.getLsbD 7, b.getLsbD 6, b.getLsbD 5, b.getLsbD 4, b.getLsbD 3, b.getLsbD 2, b.getLsbD 1, b.getLsbD 0]

/-- The byte whose bit 7 is the first bit (44_huffman.md R178). -/
def byteOfBits (bits : List Bool) : Byte := bits.foldl (fun acc bit => byteOf (2 * acc.toNat + bit.toNat)) 0#8

/-- The number of zero bits that fill the last byte (44_huffman.md R182). -/
def padBits (n : Nat) : Nat := (8 - n % 8) % 8

/-- The bytes of a bit string whose length is a multiple of 8. -/
def packWhole : List Bool → List Byte
  | b7 :: b6 :: b5 :: b4 :: b3 :: b2 :: b1 :: b0 :: rest =>
    byteOfBits [b7, b6, b5, b4, b3, b2, b1, b0] :: packWhole rest
  | _ => []

/-- `Pack` of 44_huffman.md R178. -/
def pack (bits : List Bool) : List Byte := packWhole (bits ++ List.replicate (padBits bits.length) false)

/-- An entry of format `HUFC`, 30_encoding.md R81. -/
def hufCodeBytes (c : HufCode) : List Byte := c.sym :: byteOf c.bits.length :: pack c.bits

/-- 30_encoding.md R82. -/
def lz77TokenBytes : Lz77Token → List Byte
  | .full off len lit => be16 off ++ be16 len ++ [lit]
  | .final off len => be16 off ++ be16 len

/-- 30_encoding.md R83. -/
def lzssTokenBytes : LzssToken → List Byte
  | .literal b => [0x00#8, b]
  | .copy off len => 0x01#8 :: (be32 off ++ be32 len)

/-- 30_encoding.md R84. -/
def lz78TokenBytes : Lz78Token → List Byte
  | .full code lit => be32 code ++ [lit]
  | .final code => be32 code

end Sys2Proof.Machine
end

