-- ==== Sys2Proof/Machine/Bwt.lean ====
section
/-!
DEFINITION. The Burrows-Wheeler Transform (43_bwt.md). A "BWT block" is a piece of the input transformed on its own.
-/

namespace Sys2Proof.Machine

/-- Rotation `i` of a BWT block, `T[i], ..., T[n-1], T[0], ..., T[i-1]` (43_bwt.md R146). -/
def rotation (t : List Byte) (i : Nat) : List Byte := t.drop i ++ t.take i

/-- Not greater in lexicographic order, bytes compared as unsigned values (43_bwt.md R146). -/
def lexLe : List Byte → List Byte → Bool
  | [], _ => true
  | _ :: _, [] => false
  | a :: s, b :: t => if a = b then lexLe s t else decide (a.toNat < b.toNat)

/-- Insert an index before the first one whose rotation is not smaller. -/
def insertRotation (t : List Byte) (i : Nat) : List Nat → List Nat
  | [] => [i]
  | j :: js => if lexLe (rotation t i) (rotation t j) then i :: j :: js else j :: insertRotation t i js

/-- Insertion sort from the right, so that equal rotations stay in ascending order of their index. -/
def sortRotations (t : List Byte) : List Nat → List Nat
  | [] => []
  | i :: is => insertRotation t i (sortRotations t is)

/-- The rotation order of 43_bwt.md R147; how it is found is free (93_implementation_defined.md U12, log entry 13). -/
def rotationOrder (t : List Byte) : List Nat := sortRotations t (List.range t.length)

/-- The last column of 43_bwt.md R148: for each row the byte that precedes its rotation's start cyclically. -/
def lastColumn (t : List Byte) : List Byte :=
  (rotationOrder t).map fun i => t.getD ((i + t.length - 1) % t.length) 0#8

/-- `BwtBlock(T)` of 43_bwt.md R148: the last column and the row of rotation 0. -/
def bwtBlock (t : List Byte) : BwtRecord :=
  { primary := (rotationOrder t).idxOf 0, last := lastColumn t }

/-- The BWT blocks of the input, each of `bs` bytes but the last, which may be shorter (43_bwt.md R150). -/
def bwtSplit (bs : Nat) : Nat → List Byte → List (List Byte)
  | 0, _ => []
  | _ + 1, [] => []
  | fuel + 1, b :: rest => (b :: rest).take bs :: bwtSplit bs fuel ((b :: rest).drop bs)

/-- The records of the encoder: `B = 0` is the whole input as one BWT block (43_bwt.md R150). -/
def bwtRecords (blockSize : Nat) (d : List Byte) : List BwtRecord :=
  (bwtSplit (if blockSize = 0 then d.length else blockSize) d.length d).map bwtBlock

/-- `BwtEnc(B, in)` of 43_bwt.md R150. -/
def bwtEnc (blockSize : Nat) (d : List Byte) : List Byte := (bwtRecords blockSize d).flatMap bwtRecordBytes

/-- `C[c]` of 43_bwt.md R153: how many bytes of the column are smaller than `c`. -/
def columnStart (l : List Byte) (c : Byte) : Nat := l.countP fun b => decide (b.toNat < c.toNat)

/-- `LF[j] = C[L[j]] + occ(j)` of 43_bwt.md R153. -/
def lfMap (l : List Byte) (j : Nat) : Nat :=
  columnStart l (l.getD j 0#8) + (l.take j).count (l.getD j 0#8)

/-- The walk of 43_bwt.md R154, `n` rows from row `p` on: the BWT block in reverse. -/
def bwtWalk (l : List Byte) : Nat → Nat → List Byte
  | 0, _ => []
  | n + 1, p => l.getD p 0#8 :: bwtWalk l n (lfMap l p)

/-- `BwtInvBlock(L, pi)` of 43_bwt.md R154. -/
def bwtInvBlock (r : BwtRecord) : List Byte := (bwtWalk r.last r.last.length r.primary).reverse

/-- The loop of 43_bwt.md R155, with the tests of a record in its order (R156, R157). Every round takes 8 bytes. -/
def bwtParse : Nat → List Byte → Except Err (List Byte)
  | 0, _ => .ok []
  | _ + 1, [] => .ok []
  | fuel + 1, n0 :: n1 :: n2 :: n3 :: p0 :: p1 :: p2 :: p3 :: rest =>
    let n := rd32 n0 n1 n2 n3
    let pi := rd32 p0 p1 p2 p3
    if rest.length < n then .error .bwtTrunc
    else if n = 0 ∨ pi ≥ n then .error .bwtIndex
    else (bwtParse fuel (rest.drop n)).map (bwtInvBlock { primary := pi, last := rest.take n } ++ ·)
  | _ + 1, _ :: _ => .error .bwtTrunc

/-- `BwtDec(in)` of 43_bwt.md R155. -/
def bwtDec (d : List Byte) : Except Err (List Byte) := bwtParse d.length d

/-- One round of the doubling algorithm of 43_bwt.md R149: the indices sorted by their key, equal keys by the index. -/
def insertByKey (key : Nat → Nat × Nat) (i : Nat) : List Nat → List Nat
  | [] => [i]
  | j :: js =>
    if (key i).1 < (key j).1 ∨ ((key i).1 = (key j).1 ∧ (key i).2 ≤ (key j).2) then i :: j :: js
    else j :: insertByKey key i js

/-- The indices sorted by key, equal keys by index (43_bwt.md R149). -/
def sortByKey (key : Nat → Nat × Nat) : List Nat → List Nat
  | [] => []
  | i :: is => insertByKey key i (sortByKey key is)

/-- New ranks along a sorted list of indices: the first has rank `r`, and a rank rises where the key changes
(43_bwt.md R149). -/
def newRanks (key : Nat → Nat × Nat) : Nat → List Nat → List (Nat × Nat)
  | _, [] => []
  | r, [i] => [(i, r)]
  | r, i :: j :: js => (i, r) :: newRanks key (if key j = key i then r else r + 1) (j :: js)

/-- The ranks after the round of step `k` (43_bwt.md R149). -/
def doublingRound (rank : List Nat) (k : Nat) : List Nat :=
  let n := rank.length
  let key := fun i => (rank.getD i 0, rank.getD ((i + k) % n) 0)
  let fresh := newRanks key 0 (sortByKey key (List.range n))
  (List.range n).map fun i => (fresh.lookup i).getD 0

/-- The loop of 43_bwt.md R149: double until the ranks are distinct or the compared prefix covers the BWT block. -/
def doublingLoop : Nat → List Nat → Nat → List Nat
  | 0, rank, _ => rank
  | fuel + 1, rank, k =>
    let fresh := doublingRound rank k
    if fresh.Nodup ∨ 2 * k ≥ rank.length then fresh else doublingLoop fuel fresh (2 * k)

/-- `RotationOrder(T)` of 43_bwt.md R149, the algorithm the source names; the commands use `rotationOrder`. -/
def rotationOrderByDoubling (t : List Byte) : List Nat :=
  let rank := doublingLoop t.length (t.map BitVec.toNat) 1
  sortByKey (fun i => (rank.getD i 0, i)) (List.range t.length)

/-- `BWT_ENC` (43_bwt.md R150). -/
def execBwtEnc (s : State) : Host.Outcome State Fault Refusal :=
  command (bwtOperand s.params) (fun b d => .ok (bwtEnc b d)) s

/-- `BWT_DEC` (43_bwt.md R155). -/
def execBwtDec (s : State) : Host.Outcome State Fault Refusal := command noOperand (fun _ d => bwtDec d) s

end Sys2Proof.Machine
end

