-- ==== Sys2Proof/Machine/Huffman.lean ====
section
/-!
DEFINITION. Huffman coding (44_huffman.md): the tree builder, the codebook, the encoder and the decoder.
-/

namespace Sys2Proof.Machine

/-- An item of the pool (44_huffman.md R172). -/
structure PoolItem where
  weight : Nat
  seq : Nat
  tree : HufTree
  deriving DecidableEq, Repr

/-- Items are compared by weight, then by sequence number (44_huffman.md R172, R173). -/
def PoolItem.before (a b : PoolItem) : Bool :=
  decide (a.weight < b.weight) || (decide (a.weight = b.weight) && decide (a.seq < b.seq))

/-- Insert into a pool kept in extraction order; the structure of the pool is free (93_implementation_defined.md U13,
log entry 13). -/
def poolInsert (x : PoolItem) : List PoolItem → List PoolItem
  | [] => [x]
  | y :: ys => if x.before y then x :: y :: ys else y :: poolInsert x ys

/-- The leaves of a table, numbered from `j` on in table order (44_huffman.md R172, R173). -/
def poolOfTable : Nat → List HufEntry → List PoolItem
  | _, [] => []
  | j, e :: rest => poolInsert { weight := e.freq, seq := j, tree := .leaf e.sym } (poolOfTable (j + 1) rest)

/-- The merging loop of 44_huffman.md R172: the first extracted is the left child. -/
def poolMerge : Nat → Nat → List PoolItem → Option HufTree
  | _, _, [] => none
  | _, _, [a] => some a.tree
  | 0, _, _ :: _ :: _ => none
  | fuel + 1, next, a :: b :: rest =>
    poolMerge fuel (next + 1)
      (poolInsert { weight := a.weight + b.weight, seq := next, tree := .node a.tree b.tree } rest)

/-- `HufTree(tbl)` of 44_huffman.md R172; none only for the empty table (log entry 14). -/
def hufTree (tbl : List HufEntry) : Option HufTree := poolMerge tbl.length tbl.length (poolOfTable 0 tbl)

/-- The walk of 44_huffman.md R174: 0 for a left edge, 1 for a right edge. -/
def hufWalk : HufTree → List Bool → List HufCode
  | .leaf s, pre => [{ sym := s, bits := pre }]
  | .node l r, pre => hufWalk l (pre ++ [false]) ++ hufWalk r (pre ++ [true])

/-- `HufCodes(tree)` of 44_huffman.md R174; the sole symbol of a single leaf gets the code "0" (R175). -/
def hufCodes : HufTree → List HufCode
  | .leaf s => [{ sym := s, bits := [false] }]
  | .node l r => hufWalk (.node l r) []

/-- `code[s]`; every symbol of the table has one (log entry 14). -/
def codeOf : List HufCode → Byte → List Bool
  | [], _ => []
  | c :: cs, s => if c.sym = s then c.bits else codeOf cs s

/-- The entry loop of `ParseTable` (44_huffman.md R185), `k` entries, `done` those read before. -/
def parseEntries : Nat → List HufEntry → List Byte → Except Err (List HufEntry × List Byte)
  | 0, done, d => .ok (done, d)
  | k + 1, done, s :: f0 :: f1 :: f2 :: f3 :: rest =>
    let f := rd32 f0 f1 f2 f3
    if f = 0 then .error .hufHeader
    else if s ∈ done.map HufEntry.sym then .error .hufHeader
    else parseEntries k (done ++ [{ sym := s, freq := f }]) rest
  | _ + 1, _, _ => .error .hufHeader

/-- `ParseTable(in)` of 44_huffman.md R185: the table and the bytes after it. -/
def parseTable : List Byte → Except Err (List HufEntry × List Byte)
  | k0 :: k1 :: rest =>
    let k := rd16 k0 k1
    if k = 0 ∨ k > 256 then .error .hufHeader
    else if rest.length < 5 * k then .error .hufHeader
    else parseEntries k [] rest
  | _ => .error .hufHeader

/-- `HufBuildCmd(in)` of 44_huffman.md R176. -/
def hufBuild (d : List Byte) : Except Err (List Byte) :=
  match d with
  | [] => .ok []
  | _ :: _ =>
    match parseTable d with
    | .error e => .error e
    | .ok (_, _ :: _) => .error .hufHeader
    | .ok (tbl, []) =>
      match hufTree tbl with
      | none => .error .hufHeader
      | some tree =>
        let codes := hufCodes tree
        .ok (tbl.flatMap fun e => hufCodeBytes { sym := e.sym, bits := codeOf codes e.sym })

/-- The frequency table the encoder writes: the symbols present, ascending (44_huffman.md R180, R181). -/
def freqTable (d : List Byte) : List HufEntry :=
  ((List.range 256).map fun c => { sym := byteOf c, freq := d.count (byteOf c) }).filter fun e => decide (e.freq > 0)

/-- `HufEnc(in)` of 44_huffman.md R180. -/
def hufEnc (d : List Byte) : List Byte :=
  match hufTree (freqTable d) with
  | none => []
  | some tree =>
    let codes := hufCodes tree
    let bits := d.flatMap (codeOf codes)
    hufTableBytes (freqTable d) ++ [byteOf (padBits bits.length)] ++ pack bits

/-- The bit loop of 44_huffman.md R186 from the tree's node `t`. A proper subtree is never equal to the whole tree, so
`t = root` says that the walk stands at the root. -/
def hufBits (root : HufTree) : HufTree → List Bool → Except Err (List Byte)
  | t, [] => if t = root then .ok [] else .error .hufBits
  | .leaf s, bit :: bits => if bit then .error .hufBits else (hufBits root root bits).map (s :: ·)
  | .node l r, bit :: bits =>
    match (if bit then r else l) with
    | .leaf s => (hufBits root root bits).map (s :: ·)
    | .node l' r' => hufBits root (.node l' r') bits

/-- `HufDec(in)` of 44_huffman.md R186. -/
def hufDec (d : List Byte) : Except Err (List Byte) :=
  match d with
  | [] => .ok []
  | _ :: _ =>
    match parseTable d with
    | .error e => .error e
    | .ok (_, []) => .error .hufHeader
    | .ok (tbl, pad :: body) =>
      if pad.toNat > 7 then .error .hufHeader
      else if 8 * body.length < pad.toNat then .error .hufHeader
      else
        match hufTree tbl with
        | none => .error .hufHeader
        | some tree => hufBits tree tree ((body.flatMap bitsOfByte).take (8 * body.length - pad.toNat))

/-- `HUF_ENC` (44_huffman.md R180). -/
def execHufEnc (s : State) : Host.Outcome State Fault Refusal := command noOperand (fun _ d => .ok (hufEnc d)) s

/-- `HUF_DEC` (44_huffman.md R186). -/
def execHufDec (s : State) : Host.Outcome State Fault Refusal := command noOperand (fun _ d => hufDec d) s

/-- `HUF_BUILD` (44_huffman.md R176). -/
def execHufBuild (s : State) : Host.Outcome State Fault Refusal := command noOperand (fun _ d => hufBuild d) s

end Sys2Proof.Machine
end

