-- ==== Sys2Proof/Machine/Lz77.lean ====
section
/-!
DEFINITION. LZ77 and LZSS (45_lz77.md, 46_lzss.md), with the match finder and the back-copy they share.
-/

namespace Sys2Proof.Machine

/-- The length of the longest common prefix. -/
def commonPrefix : List Byte → List Byte → Nat
  | a :: s, b :: t => if a = b then commonPrefix s t + 1 else 0
  | _, _ => 0

/-- The scan of 45_lz77.md R207 over the starts of the window, ascending. A start is given by the bytes from it to
position `i`, so its offset is their number and no match runs past `i` (R208). `best` is (offset, length). -/
def scanWindow (look : List Byte) : List Byte → Nat × Nat → Nat × Nat
  | [], best => best
  | b :: w, best =>
    let l := commonPrefix (b :: w) look
    scanWindow look w (if l > 0 ∧ l ≥ best.2 then (w.length + 1, l) else best)

/-- `FindMatch(d, i, W, LA)` of 45_lz77.md R207: `past` is `d[0:i]` and `ahead` is `d[i:]`; (offset, length). -/
def findMatch (w la : Nat) (past ahead : List Byte) : Nat × Nat :=
  scanWindow (ahead.take la) (past.drop (past.length - w)) (0, 0)

/-- The loop of 45_lz77.md R210 at the position between `past` and `ahead`. Every round takes a byte. -/
def lz77Scan (w la : Nat) : Nat → List Byte → List Byte → List Lz77Token
  | 0, _, _ => []
  | _ + 1, _, [] => []
  | fuel + 1, past, ahead =>
    let m := findMatch w la past ahead
    match ahead.drop m.2 with
    | lit :: rest =>
      .full m.1 m.2 lit :: lz77Scan w la fuel (past ++ ahead.take (m.2 + 1)) rest
    | [] => [.final m.1 m.2]

/-- The tokens from the position between `past` and `ahead` on; the bytes left bound the rounds. -/
def lz77From (w la : Nat) (past ahead : List Byte) : List Lz77Token := lz77Scan w la ahead.length past ahead

/-- The tokens of the LZ77 encoder. -/
def lz77Tokens (w la : Nat) (d : List Byte) : List Lz77Token := lz77From w la [] d

/-- `Lz77Enc(W, LA, in)` of 45_lz77.md R210. -/
def lz77Enc (w la : Nat) (d : List Byte) : List Byte := (lz77Tokens w la d).flatMap lz77TokenBytes

/-- The byte-by-byte copy of 45_lz77.md R214: each byte is read after the previous one was appended. -/
def copyBytes (off : Nat) : Nat → List Byte → List Byte
  | 0, out => out
  | n + 1, out => copyBytes off n (out ++ [out.getD (out.length - off) 0#8])

/-- `BackCopy(out, off, len)` of 45_lz77.md R214; none where it raises its error (R217). -/
def backCopy (out : List Byte) (off len : Nat) : Option (List Byte) :=
  if len > 0 ∧ (off = 0 ∨ off > out.length) then none else some (copyBytes off len out)

/-- What a token of format `LZ77T` makes of the output built so far; none where it refers to bytes that do not exist
(30_encoding.md R82, 45_lz77.md R215, R217). -/
def lz77Apply (out : List Byte) : Lz77Token → Option (List Byte)
  | .full off len lit => (backCopy out off len).map (· ++ [lit])
  | .final off len => backCopy out off len

/-- What a list of tokens makes of the output built so far. -/
def lz77ApplyAll : List Byte → List Lz77Token → Option (List Byte)
  | out, [] => some out
  | out, tok :: toks =>
    match lz77Apply out tok with
    | none => none
    | some out => lz77ApplyAll out toks

/-- The loop of 45_lz77.md R215 with the output built so far. -/
def lz77Parse : List Byte → List Byte → Except Err (List Byte)
  | out, o0 :: o1 :: l0 :: l1 :: lit :: rest =>
    match backCopy out (rd16 o0 o1) (rd16 l0 l1) with
    | none => .error .lz77Ref
    | some out => lz77Parse (out ++ [lit]) rest
  | out, [o0, o1, l0, l1] =>
    match backCopy out (rd16 o0 o1) (rd16 l0 l1) with
    | none => .error .lz77Ref
    | some out => .ok out
  | out, [] => .ok out
  | _, _ => .error .lz77Length

/-- `Lz77Dec(in)` of 45_lz77.md R215. -/
def lz77Dec (d : List Byte) : Except Err (List Byte) := lz77Parse [] d

/-- The loop of 46_lzss.md R231; a match must reach `max(1, MM)` (R232). -/
def lzssScan (w la mm : Nat) : Nat → List Byte → List Byte → List LzssToken
  | 0, _, _ => []
  | _ + 1, _, [] => []
  | fuel + 1, past, b :: rest =>
    let m := findMatch w la past (b :: rest)
    if m.2 ≥ max 1 mm then
      .copy m.1 m.2 :: lzssScan w la mm fuel (past ++ (b :: rest).take m.2) ((b :: rest).drop m.2)
    else .literal b :: lzssScan w la mm fuel (past ++ [b]) rest

/-- The tokens from the position between `past` and `ahead` on; the bytes left bound the rounds. -/
def lzssFrom (w la mm : Nat) (past ahead : List Byte) : List LzssToken := lzssScan w la mm ahead.length past ahead

/-- The tokens of the LZSS encoder. -/
def lzssTokens (w la mm : Nat) (d : List Byte) : List LzssToken := lzssFrom w la mm [] d

/-- `LzssEnc(W, LA, MM, in)` of 46_lzss.md R231. -/
def lzssEnc (w la mm : Nat) (d : List Byte) : List Byte := (lzssTokens w la mm d).flatMap lzssTokenBytes

/-- `LZ77_ENC` (45_lz77.md R210). -/
def execLz77Enc (s : State) : Host.Outcome State Fault Refusal :=
  command (lz77Operand s.params) (fun p d => .ok (lz77Enc p.1 p.2 d)) s

/-- `LZ77_DEC` (45_lz77.md R215). -/
def execLz77Dec (s : State) : Host.Outcome State Fault Refusal := command noOperand (fun _ d => lz77Dec d) s

/-- `LZSS_ENC` (46_lzss.md R231). -/
def execLzssEnc (s : State) : Host.Outcome State Fault Refusal :=
  command (lzssOperand s.params) (fun p d => .ok (lzssEnc p.1 p.2.1 p.2.2 d)) s

end Sys2Proof.Machine
end

