-- ==== Sys2Proof/Machine/Lz78.lean ====
section
/-!
DEFINITION. LZ78 (47_lz78.md).
-/

namespace Sys2Proof.Machine

/-- The encoder's dictionary, from (parent code, byte) to code (47_lz78.md R241). -/
abbrev Lz78Dict := List ((Nat × Byte) × Nat)

/-- `D[(code, byte)]`, or none. -/
def Lz78Dict.find : Lz78Dict → Nat → Byte → Option Nat
  | [], _, _ => none
  | (k, c) :: dict, code, b => if k = (code, b) then some c else Lz78Dict.find dict code b

/-- The loop of 47_lz78.md R242: the dictionary, `next` and `cur`, and the bytes still to read. A full dictionary raises
`E_CAPACITY` at the token that would need one more entry (R250). -/
def lz78Scan (dictCap : Nat) : Lz78Dict → Nat → Nat → List Byte → Except Err (List Lz78Token)
  | _, _, cur, [] => .ok (if cur ≠ 0 then [.final cur] else [])
  | dict, next, cur, b :: rest =>
    match dict.find cur b with
    | some c => lz78Scan dictCap dict next c rest
    | none =>
      if next > dictCap then .error .capacity
      else (lz78Scan dictCap (((cur, b), next) :: dict) (next + 1) 0 rest).map (.full cur b :: ·)

/-- The tokens of the LZ78 encoder. -/
def lz78Tokens (dictCap : Nat) (d : List Byte) : Except Err (List Lz78Token) := lz78Scan dictCap [] 1 0 d

/-- `Lz78Enc(in)` of 47_lz78.md R242. -/
def lz78Enc (dictCap : Nat) (d : List Byte) : Except Err (List Byte) :=
  (lz78Tokens dictCap d).map fun tokens => tokens.flatMap lz78TokenBytes

/-- What the full tokens of a list of (code, literal) pairs make of the decoder's map and output (47_lz78.md R246,
R247): an entry per token, its sequence appended to the output; none where a code is not assigned yet (R248). -/
def lz78Apply : List (List Byte) × List Byte → List (Nat × Byte) → Option (List (List Byte) × List Byte)
  | acc, [] => some acc
  | (seqs, out), (code, lit) :: toks =>
    match seqs[code]? with
    | none => none
    | some pre => lz78Apply (seqs ++ [pre ++ [lit]], out ++ (pre ++ [lit])) toks

/-- The loop of 47_lz78.md R246. `seqs` is the map `S`: entry `c` is the sequence of code `c`, so `next` is its length and
a code with no entry is one that is not below `next`. -/
def lz78Parse (dictCap : Nat) : List (List Byte) → List Byte → Except Err (List Byte)
  | seqs, c0 :: c1 :: c2 :: c3 :: b :: rest =>
    match seqs[rd32 c0 c1 c2 c3]? with
    | none => .error .lz78Code
    | some pre =>
      if seqs.length > dictCap then .error .capacity
      else (lz78Parse dictCap (seqs ++ [pre ++ [b]]) rest).map (pre ++ [b] ++ ·)
  | seqs, [c0, c1, c2, c3] =>
    match seqs[rd32 c0 c1 c2 c3]? with
    | none => .error .lz78Code
    | some pre => .ok pre
  | _, [] => .ok []
  | _, _ => .error .lz78Length

/-- `Lz78Dec(in)` of 47_lz78.md R246: code 0 is the empty sequence. -/
def lz78Dec (dictCap : Nat) (d : List Byte) : Except Err (List Byte) := lz78Parse dictCap [[]] d

/-- `LZ78_ENC` (47_lz78.md R242). -/
def execLz78Enc (s : State) : Host.Outcome State Fault Refusal :=
  command noOperand (fun _ d => lz78Enc s.cfg.dictCap.val d) s

/-- `LZ78_DEC` (47_lz78.md R246). -/
def execLz78Dec (s : State) : Host.Outcome State Fault Refusal :=
  command noOperand (fun _ d => lz78Dec s.cfg.dictCap.val d) s

end Sys2Proof.Machine
end

