-- ==== Sys2Proof/Machine/Mtf.lean ====
section
/-!
DEFINITION. Move-To-Front (42_mtf.md).
-/

namespace Sys2Proof.Machine

/-- The rank list at the start of every command, `[0, 1, ..., A - 1]` (42_mtf.md R131). -/
def rankList (alpha : Nat) : List Byte := (List.range alpha).map byteOf

/-- `MoveToFront(list, p)` of 42_mtf.md R131. -/
def moveToFront (list : List Byte) (p : Nat) : List Byte :=
  (list.drop p).take 1 ++ list.take p ++ list.drop (p + 1)

/-- The loop of 42_mtf.md R132. -/
def mtfRanks (alpha : Nat) : List Byte → List Byte → Except Err (List Byte)
  | _, [] => .ok []
  | list, b :: rest =>
    if b.toNat ≥ alpha then .error .mtfRange
    else
      let p := list.idxOf b
      (mtfRanks alpha (moveToFront list p) rest).map (byteOf p :: ·)

/-- `MtfEnc(A, in)` of 42_mtf.md R132. -/
def mtfEnc (alpha : Nat) (d : List Byte) : Except Err (List Byte) := mtfRanks alpha (rankList alpha) d

/-- The loop of 42_mtf.md R135. The list has `A` entries, so a rank below `A` always finds one (log entry 14). -/
def mtfSymbols (alpha : Nat) : List Byte → List Byte → Except Err (List Byte)
  | _, [] => .ok []
  | list, p :: rest =>
    if p.toNat ≥ alpha then .error .mtfRange
    else (mtfSymbols alpha (moveToFront list p.toNat) rest).map (list.getD p.toNat 0#8 :: ·)

/-- `MtfDec(A, in)` of 42_mtf.md R135. -/
def mtfDec (alpha : Nat) (d : List Byte) : Except Err (List Byte) := mtfSymbols alpha (rankList alpha) d

/-- `MTF_ENC` (42_mtf.md R132). -/
def execMtfEnc (s : State) : Host.Outcome State Fault Refusal := command (mtfOperand s.params) mtfEnc s

/-- `MTF_DEC` (42_mtf.md R135). -/
def execMtfDec (s : State) : Host.Outcome State Fault Refusal := command (mtfOperand s.params) mtfDec s

end Sys2Proof.Machine
end

