-- ==== Sys2Proof/Machine/Rle.lean ====
section
/-!
DEFINITION. The two RLE codecs: control-byte (40_rle_control.md) and legacy pair (41_rle_pair.md).
-/

namespace Sys2Proof.Machine

/-- How many of the first bytes equal `v`, counted up to `cap`. -/
def countRun (v : Byte) : Nat → List Byte → Nat
  | 0, _ => 0
  | _ + 1, [] => 0
  | cap + 1, b :: rest => if b = v then countRun v cap rest + 1 else 0

/-- `RunLen(d, i, cap)` of 40_rle_control.md R101, on the bytes from position `i` on. -/
def runLen (cap : Nat) : List Byte → Nat
  | [] => 0
  | v :: rest => countRun v (cap - 1) rest + 1

/-- The literal block of 40_rle_control.md R103 and R105: byte by byte until a qualifying run starts, the block is full
or the input ends. -/
def literalBlock (m : Nat) : Nat → List Byte → List Byte
  | 0, _ => []
  | _ + 1, [] => []
  | room + 1, b :: rest =>
    if m ≤ runLen 127 (b :: rest) then [] else b :: literalBlock m room rest

/-- The scan of 40_rle_control.md R103. Every round takes a byte, so the input's length bounds the rounds. -/
def rlecScan (m : Nat) : Nat → List Byte → List RlecToken
  | 0, _ => []
  | _ + 1, [] => []
  | fuel + 1, v :: rest =>
    let r := runLen 127 (v :: rest)
    if m ≤ r then .run r v :: rlecScan m fuel ((v :: rest).drop r)
    else
      let lit := literalBlock m 127 (v :: rest)
      .lit lit :: rlecScan m fuel ((v :: rest).drop lit.length)

/-- The tokens of the control-byte encoder. -/
def rlecTokens (m : Nat) (d : List Byte) : List RlecToken := rlecScan m d.length d

/-- `RlecEnc(m, in)` of 40_rle_control.md R103. -/
def rlecEnc (m : Nat) (d : List Byte) : List Byte := (rlecTokens m d).flatMap rlecTokenBytes

/-- The loop of 40_rle_control.md R107. Every round takes a header byte, so the input's length bounds the rounds. -/
def rlecParse : Nat → List Byte → Except Err (List Byte)
  | 0, _ => .ok []
  | _ + 1, [] => .ok []
  | fuel + 1, h :: rest =>
    let len := (h &&& 0x7F#8).toNat
    if h &&& 0x80#8 ≠ 0#8 then
      if len > rest.length then .error .rlecOverrun
      else (rlecParse fuel (rest.drop len)).map (rest.take len ++ ·)
    else
      match rest with
      | [] => .error .rlecNoValue
      | v :: rest => (rlecParse fuel rest).map (List.replicate len v ++ ·)

/-- `RlecDec(in)` of 40_rle_control.md R107. -/
def rlecDec (d : List Byte) : Except Err (List Byte) := rlecParse d.length d

/-- The scan of 41_rle_pair.md R121. -/
def rlepScan : Nat → List Byte → List RlepPair
  | 0, _ => []
  | _ + 1, [] => []
  | fuel + 1, v :: rest =>
    let r := runLen 255 (v :: rest)
    { count := r, value := v } :: rlepScan fuel ((v :: rest).drop r)

/-- The pairs of the pair encoder. -/
def rlepPairs (d : List Byte) : List RlepPair := rlepScan d.length d

/-- `RlepEnc(in)` of 41_rle_pair.md R121. -/
def rlepEnc (d : List Byte) : List Byte := (rlepPairs d).flatMap rlepPairBytes

/-- The expansion of 41_rle_pair.md R124, pair by pair. -/
def rlepExpand : List Byte → List Byte
  | count :: value :: rest => List.replicate count.toNat value ++ rlepExpand rest
  | _ => []

/-- `RlepDec(in)` of 41_rle_pair.md R124. -/
def rlepDec (d : List Byte) : Except Err (List Byte) :=
  if d.length % 2 = 1 then .error .rlepOdd else .ok (rlepExpand d)

/-- `RLEC_ENC` (40_rle_control.md R102, R103). -/
def execRlecEnc (s : State) : Host.Outcome State Fault Refusal :=
  command (rlecOperand s.params) (fun m d => .ok (rlecEnc m d)) s

/-- `RLEC_DEC` (40_rle_control.md R107). -/
def execRlecDec (s : State) : Host.Outcome State Fault Refusal :=
  command noOperand (fun _ d => rlecDec d) s

/-- `RLEP_ENC` (41_rle_pair.md R121); `RLEP_MIN_RUN` is not read (10_state.md R34). -/
def execRlepEnc (s : State) : Host.Outcome State Fault Refusal :=
  command noOperand (fun _ d => .ok (rlepEnc d)) s

/-- `RLEP_DEC` (41_rle_pair.md R124). -/
def execRlepDec (s : State) : Host.Outcome State Fault Refusal :=
  command noOperand (fun _ d => rlepDec d) s

end Sys2Proof.Machine
end

