-- ==== Sys2Proof/Machine/Dispatch.lean ====
section
/-!
DEFINITION. The meaning of each command, one arm per constructor. The caller has stored the opcode in CMD.
-/

namespace Sys2Proof.Machine

def exec (i : Instr) (s : State) : Host.Outcome State Fault Refusal :=
  match i with
  | .rlecEnc => Sys2Proof.Machine.execRlecEnc s
  | .rlecDec => Sys2Proof.Machine.execRlecDec s
  | .rlepEnc => Sys2Proof.Machine.execRlepEnc s
  | .rlepDec => Sys2Proof.Machine.execRlepDec s
  | .mtfEnc => Sys2Proof.Machine.execMtfEnc s
  | .mtfDec => Sys2Proof.Machine.execMtfDec s
  | .bwtEnc => Sys2Proof.Machine.execBwtEnc s
  | .bwtDec => Sys2Proof.Machine.execBwtDec s
  | .hufEnc => Sys2Proof.Machine.execHufEnc s
  | .hufDec => Sys2Proof.Machine.execHufDec s
  | .hufBuild => Sys2Proof.Machine.execHufBuild s
  | .lz77Enc => Sys2Proof.Machine.execLz77Enc s
  | .lz77Dec => Sys2Proof.Machine.execLz77Dec s
  | .lzssEnc => Sys2Proof.Machine.execLzssEnc s
  | .lz78Enc => Sys2Proof.Machine.execLz78Enc s
  | .lz78Dec => Sys2Proof.Machine.execLz78Dec s

end Sys2Proof.Machine
end

