-- ==== Sys2Proof/Machine/Sequencer.lean ====
section
/-!
DEFINITION. What one host operation does (60_exceptions.md R296; 30_encoding.md R90, R91), the write of CMD that issues a
command among them (30_encoding.md R72). The step performs the next operation of the list State holds (log entry 1).
-/

namespace Sys2Proof.Machine

/-- `Issue(op)` of 30_encoding.md R72: `CMD` holds the opcode, then an illegal one fails at step 1 and a legal one runs
steps 2 to 9. -/
def issue (op : Byte) (s : State) : Host.Outcome State Fault Refusal :=
  match decodeOp op with
  | .error _ => .next ((s.withCmd op).fail .illegalCmd)
  | .ok i => exec i (s.withCmd op)

/-- `LOAD` of 30_encoding.md R90: the cells from offset 0 on, then `IN_LEN`. A cell at or above `IBUF_CAP` does not exist
(log entry 7). -/
def hostLoad (bytes : List Byte) (s : State) : Host.Outcome State Fault Refusal :=
  if bytes.length > s.cfg.ibufCap.val then .fault (.noSuchIbufCell s.cfg.ibufCap.val)
  else .next { s with ibuf := s.ibuf.writeBytes 0 bytes, inLen := BitVec.ofNat 32 bytes.length }

/-- `SET` of 30_encoding.md R90. A write to register 0 issues the command (10_state.md R28, log entry 8). -/
def hostSet (n : Nat) (v : Word) (s : State) : Host.Outcome State Fault Refusal :=
  if n = 0 then
    if v.toNat ≤ 255 then issue (v.setWidth 8) s else .refused (.cmdValueTooWide v)
  else .next (s.writeReg n v)

/-- A write of one cell of `IBUF` (10_state.md R42). -/
def hostWriteIbuf (k : Nat) (b : Byte) (s : State) : Host.Outcome State Fault Refusal :=
  if k ≥ s.cfg.ibufCap.val then .fault (.noSuchIbufCell k) else .next { s with ibuf := s.ibuf.write k b }

/-- A write of one cell of `OBUF` is ignored (10_state.md R43, 93_implementation_defined.md U28). -/
def hostWriteObuf (_k : Nat) (_b : Byte) (s : State) : Host.Outcome State Fault Refusal := .next s

/-- A read of a register (10_state.md R24, R25). -/
def hostReadReg (n : Nat) (s : State) : Host.Outcome State Fault Refusal :=
  let r := drawWord s.draws (s.readReg n)
  .next ((s.withDraws r.2).record (.reg n r.1))

/-- A read of one cell of `OBUF` (10_state.md R43). -/
def hostReadObuf (k : Nat) (s : State) : Host.Outcome State Fault Refusal :=
  if k ≥ s.cfg.obufCap.val then .fault (.noSuchObufCell k)
  else
    let r := drawByte s.draws (s.obuf.read k)
    .next ((s.withDraws r.2).record (.obuf k r.1))

/-- A read of one cell of `IBUF` (20_memory.md R50, log entry 5). -/
def hostReadIbuf (k : Nat) (s : State) : Host.Outcome State Fault Refusal :=
  if k ≥ s.cfg.ibufCap.val then .fault (.noSuchIbufCell k)
  else
    let r := drawByte s.draws (s.ibuf.read k)
    .next ((s.withDraws r.2).record (.ibuf k r.1))

/-- `EXPECT <REG> = <value>` of 30_encoding.md R90: a read and a comparison. -/
def hostExpectReg (n : Nat) (v : Word) (s : State) : Host.Outcome State Fault Refusal :=
  let r := drawWord s.draws (s.readReg n)
  .next ((s.withDraws r.2).record (.expect (decide (r.1 = v))))

/-- `EXPECT OBUF = <bytes>` of 30_encoding.md R90: a read of `OBUF[0:OUT_LEN]` and a comparison. -/
def hostExpectObuf (bytes : List Byte) (s : State) : Host.Outcome State Fault Refusal :=
  let r := s.obuf.drawBytes s.draws 0 s.outLen.toNat
  .next ((s.withDraws r.2).record (.expect (decide (r.1 = bytes))))

/-- `PIPE` of 30_encoding.md R91: a `LOAD` of the bytes `OBUF[0:OUT_LEN]` (log entry 10). -/
def hostPipe (s : State) : Host.Outcome State Fault Refusal :=
  let r := s.obuf.drawBytes s.draws 0 s.outLen.toNat
  hostLoad r.1 (s.withDraws r.2)

/-- One host operation. -/
def perform (op : HostOp) (s : State) : Host.Outcome State Fault Refusal :=
  match op with
  | .reset => .next s.resetBlock
  | .set n v => hostSet n v s
  | .writeIbuf k b => hostWriteIbuf k b s
  | .writeObuf k b => hostWriteObuf k b s
  | .load bytes => hostLoad bytes s
  | .run opc => issue opc s
  | .readReg n => hostReadReg n s
  | .readObuf k => hostReadObuf k s
  | .readIbuf k => hostReadIbuf k s
  | .expectReg n v => hostExpectReg n v s
  | .expectObuf bytes => hostExpectObuf bytes s
  | .pipe => hostPipe s

/-- The next host operation; with none left the block does nothing (70_reset_and_hazards.md R312). -/
def sequence (s : State) : Host.Outcome State Fault Refusal :=
  match s.host with
  | [] => .next s
  | op :: rest => perform op (s.withHost rest)

/-- `DEFAULTS` of 30_encoding.md R91. -/
def defaultsScript : List HostOp :=
  [.set 5 2#32, .set 6 2#32, .set 7 256#32, .set 8 0#32, .set 13 3#32]

/-- Place a command where the next step takes it: the host's next operation is the write of that opcode to `CMD`. -/
def placeCommand (s : State) (nbits w : Nat) : State := s.withHost (.run (tableOpcode nbits w) :: s.host)

end Sys2Proof.Machine
end

