-- ==== Sys2Proof/Machine/Step.lean ====
section
/-!
DEFINITION. One step of the machine: the next host operation, a command being the write of CMD (10_state.md R22, R28).
-/

namespace Sys2Proof.Machine

/-- One step: next, fault or refusal. -/
def step : State → Host.Outcome State Fault Refusal := fun s => sequence s

/-- The state whose next step runs the command a row of spec/opcode_table.json encodes: the block fetches nothing
(10_state.md R21), so the command is put first among the host's operations (log entry 1). -/
def State.withFetchWord (s : State) (nbits w : Nat) : State := placeCommand s nbits w

end Sys2Proof.Machine
end

