-- ==== Sys2Proof/Machine/Companion.lean ====
section
/-!
DEFINITION. The companion functions of 48_companion_units.md: the LZSS decoder, LZW and the pipeline composer. No command
reaches them (R260); they give the output of `LZSS_ENC` its meaning and say what a host does that chains commands. Their
one failure, FormatError, is `none`.
-/

namespace Sys2Proof.Machine

/-- The loop of 48_companion_units.md R261 with the output built so far. Every round takes a flag byte. -/
def lzssParse : Nat → List Byte → List Byte → Option (List Byte)
  | 0, out, _ => some out
  | _ + 1, out, [] => some out
  | fuel + 1, out, flag :: rest =>
    if flag = 0x00#8 then
      match rest with
      | [] => none
      | b :: rest => lzssParse fuel (out ++ [b]) rest
    else if flag = 0x01#8 then
      match rest with
      | o0 :: o1 :: o2 :: o3 :: l0 :: l1 :: l2 :: l3 :: rest =>
        match backCopy out (rd32 o0 o1 o2 o3) (rd32 l0 l1 l2 l3) with
        | none => none
        | some out => lzssParse fuel out rest
      | _ => none
    else none

/-- `LzssDec(in)` of 48_companion_units.md R261. -/
def lzssDec (d : List Byte) : Option (List Byte) := lzssParse d.length [] d

/-- The code of a sequence: one byte is its own code, the others are `grown`, codes 256 on (48_companion_units.md R263). -/
def lzwCode (grown : List (List Byte)) : List Byte → Option Nat
  | [v] => some v.toNat
  | s => if s ∈ grown then some (256 + grown.idxOf s) else none

/-- The loop of 48_companion_units.md R264 after the first byte: the matched sequence and its code. -/
def lzwScan : List (List Byte) → List Byte → Nat → List Byte → List Nat
  | _, _, code, [] => [code]
  | grown, cur, code, b :: rest =>
    match lzwCode grown (cur ++ [b]) with
    | some c => lzwScan grown (cur ++ [b]) c rest
    | none => code :: lzwScan (grown ++ [cur ++ [b]]) [b] b.toNat rest

/-- The codes of the LZW encoder. -/
def lzwCodes : List Byte → List Nat
  | [] => []
  | b :: rest => lzwScan [] [b] b.toNat rest

/-- `LzwEnc(in)` of 48_companion_units.md R264. -/
def lzwEnc (d : List Byte) : List Byte := (lzwCodes d).flatMap be32

/-- The sequence of a known code (48_companion_units.md R265). -/
def lzwSeq (grown : List (List Byte)) (c : Nat) : Option (List Byte) :=
  if c < 256 then some [byteOf c] else grown[c - 256]?

/-- The codes of a stream; none if its length is not a multiple of 4 (48_companion_units.md R265). -/
def lzwWords : List Byte → Option (List Nat)
  | c0 :: c1 :: c2 :: c3 :: rest => (lzwWords rest).map (rd32 c0 c1 c2 c3 :: ·)
  | [] => some []
  | _ => none

/-- The loop of 48_companion_units.md R265 after the first code, with the self-referential case `c = next`. -/
def lzwExpand : List (List Byte) → List Byte → List Nat → Option (List Byte)
  | _, _, [] => some []
  | grown, prev, c :: rest =>
    match (if c = 256 + grown.length then some (prev ++ prev.take 1) else lzwSeq grown c) with
    | none => none
    | some s => (lzwExpand (grown ++ [prev ++ s.take 1]) s rest).map (s ++ ·)

/-- `LzwDec(in)` of 48_companion_units.md R265. -/
def lzwDec (d : List Byte) : Option (List Byte) :=
  match lzwWords d with
  | none => none
  | some [] => some []
  | some (c :: rest) =>
    if c ≥ 256 then none else (lzwExpand [] [byteOf c] rest).map (byteOf c :: ·)

/-- A codec of the source: `compress` and `decompress`, either of which may fail (00_scope.md R14). -/
structure Codec where
  compress : List Byte → Option (List Byte)
  decompress : List Byte → Option (List Byte)

/-- `ComposeEnc` of 48_companion_units.md R270: in list order, a failing stage ends the pipeline. -/
def composeEnc : List Codec → List Byte → Option (List Byte)
  | [], x => some x
  | c :: cs, x =>
    match c.compress x with
    | none => none
    | some y => composeEnc cs y

/-- `ComposeDec` of 48_companion_units.md R270: in reverse list order. -/
def composeDec : List Codec → List Byte → Option (List Byte)
  | [], y => some y
  | c :: cs, y =>
    match composeDec cs y with
    | none => none
    | some x => c.decompress x

end Sys2Proof.Machine
end

