-- ==== Sys2Proof/Safety.lean ====
section
/-!
DEFINITION. The words the claims are written in: what the host has loaded, what a command left, what it left alone, and
the invariant of the block.
-/

namespace Sys2Proof.Machine

/-- The input of a command is `x`: `IBUF[0:IN_LEN]` fits `IBUF` and every cell of it holds its byte (10_state.md R31,
R42). -/
def State.inputIs (s : State) (x : List Byte) : Prop :=
  s.inLen.toNat = x.length ∧ x.length ≤ s.cfg.ibufCap.val ∧ ∀ k, k < x.length → s.ibuf.read k = x[k]?

/-- `t` differs from `s` in nothing but `OBUF`, `OUT_LEN`, `STATUS` and `ERR` (30_encoding.md R72; 10_state.md R22). -/
def State.sameInputSide (s t : State) : Prop :=
  t.ibuf = s.ibuf ∧ t.inLen = s.inLen ∧ t.cmd = s.cmd ∧ t.params = s.params ∧ t.cfg = s.cfg
    ∧ t.host = s.host ∧ t.seen = s.seen ∧ t.draws = s.draws

/-- The state `succeed(y)` leaves: `DONE`, `E_NONE`, `OUT_LEN` the length, `OBUF` the output and nothing else
(30_encoding.md R72). -/
def State.doneWith (t : State) (y : List Byte) : Prop :=
  t.status = 1#2 ∧ t.err = 0x00#8 ∧ t.outLen.toNat = y.length ∧ ∀ k, t.obuf.read k = y[k]?

/-- The state `fail` leaves with a code: `ERROR`, the code, no output (30_encoding.md R72, 60_exceptions.md R286). -/
def State.failedWith (t : State) (code : BitVec 8) : Prop :=
  t.status = 2#2 ∧ t.err = code ∧ t.outLen = 0#32 ∧ ∀ k, t.obuf.read k = none

/-- Every register and buffer has its reset value; a window or lookahead register holds no value (10_state.md R47). -/
def State.isReset (t : State) : Prop :=
  t.cmd = 0x00#8 ∧ t.status = 0#2 ∧ t.err = 0x00#8 ∧ t.inLen = 0#32 ∧ t.outLen = 0#32 ∧
    t.params.rlecMinRun = 2#32 ∧ t.params.rlepMinRun = 2#32 ∧ t.params.mtfAlpha = 256#32 ∧
    t.params.bwtBlock = 0#32 ∧ t.params.lz77Window = none ∧ t.params.lz77Lookahead = none ∧
    t.params.lzssWindow = none ∧ t.params.lzssLookahead = none ∧ t.params.lzssMinMatch = 3#32 ∧
    (∀ k, t.ibuf.read k = none) ∧ ∀ k, t.obuf.read k = none

/-- The command answers a next state with the output `y`, and leaves the rest alone. -/
def Completes (i : Instr) (s : State) (y : List Byte) : Prop :=
  ∃ t, exec i s = .next t ∧ t.doneWith y ∧ s.sameInputSide t

/-- The command answers a next state with the error code, and leaves the rest alone. -/
def FailsWith (i : Instr) (s : State) (code : BitVec 8) : Prop :=
  ∃ t, exec i s = .next t ∧ t.failedWith code ∧ s.sameInputSide t

/-- How a command ends whose unit's function returned `r` (steps 7 to 9 of 30_encoding.md R72). -/
def Concludes (i : Instr) (s : State) : Except Err (List Byte) → Prop
  | .error e => FailsWith i s e.code
  | .ok out => if out.length ≤ s.cfg.obufCap.val then Completes i s out else FailsWith i s 0x03#8

/-- The command's parameter registers hold accepted values (60_exceptions.md R283). -/
def Params.accepted (p : Params) : Instr → Prop
  | .mtfEnc => p.mtfAlpha.toNat ≤ 256
  | .mtfDec => p.mtfAlpha.toNat ≤ 256
  | .lz77Enc =>
    (∃ w, p.lz77Window = some w ∧ w.toNat ≤ 65535) ∧ ∃ la, p.lz77Lookahead = some la ∧ la.toNat ≤ 65535
  | .lzssEnc => (∃ w, p.lzssWindow = some w) ∧ ∃ la, p.lzssLookahead = some la
  | .rlecEnc => True
  | .rlecDec => True
  | .rlepEnc => True
  | .rlepDec => True
  | .bwtEnc => True
  | .bwtDec => True
  | .hufEnc => True
  | .hufDec => True
  | .hufBuild => True
  | .lz77Dec => True
  | .lz78Enc => True
  | .lz78Dec => True

/-- Two sets of parameter registers agree on those the command uses (column "used by" of 00_scope.md R7). -/
def Params.agreeFor (p q : Params) : Instr → Prop
  | .rlecEnc => p.rlecMinRun = q.rlecMinRun
  | .mtfEnc => p.mtfAlpha = q.mtfAlpha
  | .mtfDec => p.mtfAlpha = q.mtfAlpha
  | .bwtEnc => p.bwtBlock = q.bwtBlock
  | .lz77Enc => p.lz77Window = q.lz77Window ∧ p.lz77Lookahead = q.lz77Lookahead
  | .lzssEnc =>
    p.lzssWindow = q.lzssWindow ∧ p.lzssLookahead = q.lzssLookahead ∧ p.lzssMinMatch = q.lzssMinMatch
  | .rlecDec => True
  | .rlepEnc => True
  | .rlepDec => True
  | .bwtDec => True
  | .hufEnc => True
  | .hufDec => True
  | .hufBuild => True
  | .lz77Dec => True
  | .lz78Enc => True
  | .lz78Dec => True

/-- The codes a command can end with, by the table of 60_exceptions.md R281. -/
def allowedCodes : Instr → List (BitVec 8)
  | .rlecEnc => [0x00#8, 0x02#8, 0x03#8]
  | .rlecDec => [0x00#8, 0x02#8, 0x03#8, 0x10#8, 0x11#8]
  | .rlepEnc => [0x00#8, 0x02#8, 0x03#8]
  | .rlepDec => [0x00#8, 0x02#8, 0x03#8, 0x12#8]
  | .mtfEnc => [0x00#8, 0x02#8, 0x03#8, 0x13#8]
  | .mtfDec => [0x00#8, 0x02#8, 0x03#8, 0x13#8]
  | .bwtEnc => [0x00#8, 0x02#8, 0x03#8]
  | .bwtDec => [0x00#8, 0x02#8, 0x03#8, 0x14#8, 0x15#8]
  | .hufEnc => [0x00#8, 0x02#8, 0x03#8]
  | .hufDec => [0x00#8, 0x02#8, 0x03#8, 0x16#8, 0x17#8]
  | .hufBuild => [0x00#8, 0x02#8, 0x03#8, 0x16#8]
  | .lz77Enc => [0x00#8, 0x02#8, 0x03#8]
  | .lz77Dec => [0x00#8, 0x02#8, 0x03#8, 0x18#8, 0x19#8]
  | .lzssEnc => [0x00#8, 0x02#8, 0x03#8]
  | .lz78Enc => [0x00#8, 0x02#8, 0x03#8]
  | .lz78Dec => [0x00#8, 0x02#8, 0x03#8, 0x1A#8, 0x1B#8]

/-- The invariant of the block: what holds after reset and after every host operation and command. -/
structure State.Inv (s : State) : Prop where
  /-- `IBUF` is in canonical form and lists only cells that exist (10_state.md R42). -/
  ibufWf : s.ibuf.wf = true
  ibufWithin : s.ibuf.within s.cfg.ibufCap.val = true
  /-- `OBUF` is in canonical form and lists only cells that exist (10_state.md R43). -/
  obufWf : s.obuf.wf = true
  obufWithin : s.obuf.within s.cfg.obufCap.val = true
  /-- The cells of `OBUF` that hold a byte are those below `OUT_LEN` (10_state.md R43). -/
  outputCells : ∀ k, (s.obuf.read k).isSome = true ↔ k < s.outLen.toNat
  /-- The reserved value of `STATUS.STATE` is never produced (10_state.md R29). -/
  statusLegal : s.status ≠ 3#2
  /-- `ERR` is non-zero exactly when `STATUS.STATE` is `ERROR` (10_state.md R30). -/
  errAgrees : s.err ≠ 0x00#8 ↔ s.status = 2#2
  /-- `ERR` holds a code of 60_exceptions.md R281. -/
  errLegal : s.err ∈ [0x00#8, 0x01#8, 0x02#8, 0x03#8, 0x10#8, 0x11#8, 0x12#8, 0x13#8, 0x14#8, 0x15#8, 0x16#8, 0x17#8,
    0x18#8, 0x19#8, 0x1A#8, 0x1B#8]
  /-- There is output only after a success (10_state.md R29, R32). -/
  outputOnlyDone : s.status ≠ 1#2 → s.outLen = 0#32
  /-- `IDLE` says that no command was issued since reset, so `CMD` holds its reset value (10_state.md R27, R29). -/
  idleFresh : s.status = 0#2 → s.cmd = 0x00#8

/-- The symbols of a tree's leaves, left to right (44_huffman.md R172). -/
def hufLeaves : HufTree → List Byte
  | .leaf s => [s]
  | .node l r => hufLeaves l ++ hufLeaves r

/-- The number of a tree's internal nodes (44_huffman.md R172). -/
def hufInner : HufTree → Nat
  | .leaf _ => 0
  | .node l r => hufInner l + hufInner r + 1

/-- Every token but the last is a full one (30_encoding.md R82). -/
def lz77IsFull : Lz77Token → Bool
  | .full _ _ _ => true
  | .final _ _ => false

/-- A full token (30_encoding.md R84). -/
def lz78IsFull : Lz78Token → Bool
  | .full _ _ => true
  | .final _ => false

/-- The prefix code of a token (30_encoding.md R84). -/
def lz78Code : Lz78Token → Nat
  | .full c _ => c
  | .final c => c

/-- The (code, literal) pairs of the full tokens of a list; a final token enters nothing (47_lz78.md R244). -/
def lz78Pairs : List Lz78Token → List (Nat × Byte)
  | [] => []
  | .full c b :: toks => (c, b) :: lz78Pairs toks
  | .final _ :: toks => lz78Pairs toks

/-- The bytes of full LZ78 tokens given as (code, literal) pairs. -/
def lz78FullBytes (toks : List (Nat × Byte)) : List Byte := toks.flatMap fun t => lz78TokenBytes (.full t.1 t.2)

/-- The block size `BWT_BLOCK` stands for on an input of `n` bytes (43_bwt.md R150, R151). -/
def bwtBlockSize (blockSize n : Nat) : Nat := if blockSize = 0 then n else blockSize

/-- Neither a fault nor a refusal. -/
def safe : Host.Outcome State Fault Refusal → Prop
  | .next _ => True
  | .fault _ => False
  | .refused _ => False

end Sys2Proof.Machine
end

