-- ==== Sys2Proof/Certificates/Slice0/Obligations.lean ====
section
/-!
DEFINITION. The statements for the provers. `Completes`, `FailsWith` and `Concludes` (Safety.lean) each say that the
command answers a next state and that nothing but `OBUF`, `OUT_LEN`, `STATUS` and `ERR` changes, so each statement below
that concludes one of them states the command's frame too.
-/

section

open Sys2Proof Sys2Proof.Machine

/-! ## Commands and steps -/

/-- 30_encoding.md R71: the sixteen opcodes, written bit by bit, and no other, are legal. -/
def Obligations.OpcodeWordsDecode : Prop :=
  decodeOp 0b00010000#8 = .ok .rlecEnc ∧ decodeOp 0b00010001#8 = .ok .rlecDec ∧
  decodeOp 0b00100000#8 = .ok .rlepEnc ∧ decodeOp 0b00100001#8 = .ok .rlepDec ∧
  decodeOp 0b00110000#8 = .ok .mtfEnc ∧ decodeOp 0b00110001#8 = .ok .mtfDec ∧
  decodeOp 0b01000000#8 = .ok .bwtEnc ∧ decodeOp 0b01000001#8 = .ok .bwtDec ∧
  decodeOp 0b01010000#8 = .ok .hufEnc ∧ decodeOp 0b01010001#8 = .ok .hufDec ∧
  decodeOp 0b01010010#8 = .ok .hufBuild ∧
  decodeOp 0b01100000#8 = .ok .lz77Enc ∧ decodeOp 0b01100001#8 = .ok .lz77Dec ∧
  decodeOp 0b01110000#8 = .ok .lzssEnc ∧
  decodeOp 0b10000000#8 = .ok .lz78Enc ∧ decodeOp 0b10000001#8 = .ok .lz78Dec ∧
  ∀ op : Byte, (∃ i, decodeOp op = .ok i) ↔
    op ∈ [0x10#8, 0x11#8, 0x20#8, 0x21#8, 0x30#8, 0x31#8, 0x40#8, 0x41#8, 0x50#8, 0x51#8, 0x52#8, 0x60#8, 0x61#8,
      0x70#8, 0x80#8, 0x81#8]

/-- Decoding inverts encoding, whatever bytes follow, and a byte that decodes is the command's encoding. -/
def Obligations.DecodeInvertsEncode : Prop :=
  (∀ (i : Instr) (rest : List Byte), decodeBytes (encode i ++ rest) = .ok (i, rest)) ∧
  ∀ (op : Byte) (i : Instr), decodeOp op = .ok i → encode i = [op]

/-- A step whose next host operation writes a legal opcode to `CMD` is exec of that command, with the operation taken
from the list and the opcode in `CMD`. The same for `SET CMD` and for a command placed by withFetchWord. -/
def Obligations.StepRunsDecodedCommand : Prop :=
  ∀ (s : State) (op : Byte) (i : Instr) (rest : List HostOp), decodeBytes [op] = .ok (i, []) →
    (s.host = .run op :: rest → step s = exec i { s with host := rest, cmd := op }) ∧
    (s.host = .set 0 (op.setWidth 32) :: rest → step s = exec i { s with host := rest, cmd := op }) ∧
    step (s.withFetchWord 8 op.toNat) = exec i { s with cmd := op }

/-- 30_encoding.md R73: each of the 240 other values of `CMD` fails with `E_ILLEGAL_CMD`, and has no other effect. -/
def Obligations.IllegalOpcodeFails : Prop :=
  ∀ (s : State) (op : Byte) (rest : List HostOp), s.host = .run op :: rest →
    (op.toNat ≤ 0x0F ∨ (0x12 ≤ op.toNat ∧ op.toNat ≤ 0x1F) ∨ (0x22 ≤ op.toNat ∧ op.toNat ≤ 0x2F) ∨
      (0x32 ≤ op.toNat ∧ op.toNat ≤ 0x3F) ∨ (0x42 ≤ op.toNat ∧ op.toNat ≤ 0x4F) ∨
      (0x53 ≤ op.toNat ∧ op.toNat ≤ 0x5F) ∨ (0x62 ≤ op.toNat ∧ op.toNat ≤ 0x6F) ∨
      (0x71 ≤ op.toNat ∧ op.toNat ≤ 0x7F) ∨ 0x82 ≤ op.toNat) →
    ∃ t, step s = .next t ∧ t.failedWith 0x01#8 ∧ ({ s with host := rest, cmd := op } : State).sameInputSide t

/-! ## Reset and the host's operations -/

/-- 10_state.md R47: the table of reset values, for the state after reset and for a host reset from any state. -/
def Obligations.ResetStateTable : Prop :=
  State.reset.isReset ∧
  ∀ (s : State) (rest : List HostOp), s.host = .reset :: rest → ∃ t, step s = .next t ∧ t.isReset

/-- 10_state.md R24, R26, R42, R43: a write to a read-write register stores the value in the register of that number (the
field of State is named for each number) and changes no other register and no buffer; a write to a read-only register or to one that does not exist changes nothing; a write of an existing cell of
`IBUF` stores the byte and changes no other cell and no register; a write of `OBUF` changes nothing. -/
def Obligations.HostWritesStoreOneValue : Prop :=
  (∀ (s : State) (n : Nat) (v : Word) (rest : List HostOp), s.host = .set n v :: rest →
    ((n = 3 ∨ (5 ≤ n ∧ n ≤ 13)) →
      ∃ t, step s = .next t ∧ t.readReg n = some v ∧ (∀ m, m ≠ n → t.readReg m = s.readReg m) ∧
        t.ibuf = s.ibuf ∧ t.obuf = s.obuf ∧ t.cfg = s.cfg ∧ t.host = rest ∧ t.seen = s.seen ∧ t.draws = s.draws) ∧
    (n = 3 → step s = .next { s with host := rest, inLen := v }) ∧
    (n = 5 → step s = .next { s with host := rest, params := { s.params with rlecMinRun := v } }) ∧
    (n = 6 → step s = .next { s with host := rest, params := { s.params with rlepMinRun := v } }) ∧
    (n = 7 → step s = .next { s with host := rest, params := { s.params with mtfAlpha := v } }) ∧
    (n = 8 → step s = .next { s with host := rest, params := { s.params with bwtBlock := v } }) ∧
    (n = 9 → step s = .next { s with host := rest, params := { s.params with lz77Window := some v } }) ∧
    (n = 10 → step s = .next { s with host := rest, params := { s.params with lz77Lookahead := some v } }) ∧
    (n = 11 → step s = .next { s with host := rest, params := { s.params with lzssWindow := some v } }) ∧
    (n = 12 → step s = .next { s with host := rest, params := { s.params with lzssLookahead := some v } }) ∧
    (n = 13 → step s = .next { s with host := rest, params := { s.params with lzssMinMatch := v } }) ∧
    ((n = 1 ∨ n = 2 ∨ n = 4 ∨ 14 ≤ n) → step s = .next { s with host := rest })) ∧
  ∀ (s : State) (k : Nat) (b : Byte) (rest : List HostOp),
    (s.host = .writeIbuf k b :: rest → k < s.cfg.ibufCap.val →
      ∃ t, step s = .next t ∧ t.ibuf.read k = some b ∧ (∀ j, j ≠ k → t.ibuf.read j = s.ibuf.read j) ∧
        (∀ m, t.readReg m = s.readReg m) ∧ t.obuf = s.obuf ∧ t.cfg = s.cfg ∧ t.host = rest ∧ t.seen = s.seen ∧
        t.draws = s.draws) ∧
    (s.host = .writeObuf k b :: rest → step s = .next { s with host := rest })

/-- 30_encoding.md R90, 20_memory.md R60: `LOAD` makes its bytes the input and leaves every other cell and register. -/
def Obligations.LoadWritesInput : Prop :=
  ∀ (s : State) (x : List Byte) (rest : List HostOp), s.host = .load x :: rest → x.length ≤ s.cfg.ibufCap.val →
    ∃ t, step s = .next t ∧ t.inputIs x ∧ (∀ k, x.length ≤ k → t.ibuf.read k = s.ibuf.read k) ∧
      t.cmd = s.cmd ∧ t.status = s.status ∧ t.err = s.err ∧ t.outLen = s.outLen ∧ t.obuf = s.obuf ∧
      t.params = s.params ∧ t.cfg = s.cfg ∧ t.host = rest ∧ t.seen = s.seen ∧ t.draws = s.draws

/-- 30_encoding.md R91: `PIPE` after a success copies `OBUF[0:OUT_LEN]` to `IBUF` and `OUT_LEN` to `IN_LEN`; `DEFAULTS`
writes the five registers that have a reset value and not the window and lookahead registers. -/
def Obligations.PseudoOperationsExpand : Prop :=
  (∀ (s : State) (y : List Byte) (rest : List HostOp), s.host = .pipe :: rest → s.doneWith y →
    y.length ≤ s.cfg.ibufCap.val →
    ∃ t, step s = .next t ∧ (∀ k, k < y.length → t.ibuf.read k = s.obuf.read k) ∧
      (∀ k, y.length ≤ k → t.ibuf.read k = s.ibuf.read k) ∧ t.inLen = s.outLen ∧ t.inputIs y ∧
      t.cmd = s.cmd ∧ t.status = s.status ∧ t.err = s.err ∧ t.outLen = s.outLen ∧ t.obuf = s.obuf ∧
      t.params = s.params ∧ t.cfg = s.cfg ∧ t.host = rest ∧ t.seen = s.seen ∧ t.draws = s.draws) ∧
  ∀ (s : State) (rest : List HostOp), s.host = defaultsScript ++ rest →
    Host.Core.run Sys2Proof.core 5 s = .next
      { s with
        host := rest
        params := { s.params with
          rlecMinRun := 2#32, rlepMinRun := 2#32, mtfAlpha := 256#32, bwtBlock := 0#32, lzssMinMatch := 3#32 } }

/-- 10_state.md R24, R25, R43, 20_memory.md R50, R57, 30_encoding.md R90: a host read of a register
number returns the register of that number, zero-extended, a read of a cell its byte, and either the next free value where
the place holds none, and it changes nothing of the block; `EXPECT` compares a register, or the output of a
success, and changes nothing. (That a register number above 13 draws a free value is log entry 6, and that `IBUF` can be
read is log entry 5, the model's choice.) -/
def Obligations.HostReadsReturnContents : Prop :=
  ∀ (s : State) (rest : List HostOp),
    (s.readReg 0 = some (s.cmd.setWidth 32) ∧ s.readReg 1 = some (s.status.setWidth 32) ∧
      s.readReg 2 = some (s.err.setWidth 32) ∧ s.readReg 3 = some s.inLen ∧ s.readReg 4 = some s.outLen ∧
      s.readReg 5 = some s.params.rlecMinRun ∧ s.readReg 6 = some s.params.rlepMinRun ∧
      s.readReg 7 = some s.params.mtfAlpha ∧ s.readReg 8 = some s.params.bwtBlock ∧
      s.readReg 9 = s.params.lz77Window ∧ s.readReg 10 = s.params.lz77Lookahead ∧
      s.readReg 11 = s.params.lzssWindow ∧ s.readReg 12 = s.params.lzssLookahead ∧
      s.readReg 13 = some s.params.lzssMinMatch ∧ ∀ n, 14 ≤ n → s.readReg n = none) ∧
    (∀ n, s.host = .readReg n :: rest →
      (∀ v, s.readReg n = some v → step s = .next { s with host := rest, seen := s.seen ++ [.reg n v] }) ∧
      (s.readReg n = none → step s = .next
        { s with host := rest, seen := s.seen ++ [.reg n (Config.freeWord s.draws)], draws := s.draws + 1 })) ∧
    (∀ k, s.host = .readObuf k :: rest → k < s.cfg.obufCap.val →
      (∀ b, s.obuf.read k = some b → step s = .next { s with host := rest, seen := s.seen ++ [.obuf k b] }) ∧
      (s.obuf.read k = none → step s = .next
        { s with host := rest, seen := s.seen ++ [.obuf k (Config.freeByte s.draws)], draws := s.draws + 1 })) ∧
    (∀ k, s.host = .readIbuf k :: rest → k < s.cfg.ibufCap.val →
      (∀ b, s.ibuf.read k = some b → step s = .next { s with host := rest, seen := s.seen ++ [.ibuf k b] }) ∧
      (s.ibuf.read k = none → step s = .next
        { s with host := rest, seen := s.seen ++ [.ibuf k (Config.freeByte s.draws)], draws := s.draws + 1 })) ∧
    (∀ n v w, s.host = .expectReg n v :: rest → s.readReg n = some w →
      step s = .next { s with host := rest, seen := s.seen ++ [.expect (decide (w = v))] }) ∧
    ∀ x y, s.host = .expectObuf x :: rest → s.doneWith y →
      step s = .next { s with host := rest, seen := s.seen ++ [.expect (decide (y = x))] }

/-- 10_state.md R28, R43, 60_exceptions.md R295: only a write of `CMD` and a reset change `CMD`, `STATUS`, `ERR`,
`OUT_LEN` or `OBUF`; a read or a comparison changes no part of the block; nothing changes the capacities, and what the
host has seen changes by reads and comparisons only (log entries 1, 2, 9, the model's choice). -/
def Obligations.OnlyCommandsTouchTheOutputSide : Prop :=
  ∀ (s t : State) (op : HostOp) (rest : List HostOp), s.host = op :: rest → step s = .next t →
    (op ≠ .reset → (∀ c, op ≠ .run c) → (∀ v, op ≠ .set 0 v) →
      t.cmd = s.cmd ∧ t.status = s.status ∧ t.err = s.err ∧ t.outLen = s.outLen ∧ t.obuf = s.obuf) ∧
    (op ≠ .reset → (∀ n v, op ≠ .set n v) → t.params = s.params) ∧
    (op ≠ .reset → (∀ n v, op ≠ .set n v) → (∀ x, op ≠ .load x) → op ≠ .pipe → t.inLen = s.inLen) ∧
    (op ≠ .reset → (∀ k b, op ≠ .writeIbuf k b) → (∀ x, op ≠ .load x) → op ≠ .pipe → t.ibuf = s.ibuf) ∧
    ((∀ n, op ≠ .readReg n) → (∀ k, op ≠ .readObuf k) → (∀ k, op ≠ .readIbuf k) → (∀ n v, op ≠ .expectReg n v) →
      (∀ x, op ≠ .expectObuf x) → t.seen = s.seen ∧ (op ≠ .pipe → t.draws = s.draws)) ∧
    t.cfg = s.cfg ∧ t.host = rest

/-- With nothing left for the host to do a step changes nothing (70_reset_and_hazards.md R312), and a step stops only on
a host access to a cell that does not exist or a write of more than 8 bits to `CMD` (log entries 7 and 8, the model's
choice); no command stops the machine. -/
def Obligations.StepStopsExactly : Prop :=
  (∀ s : State, s.host = [] → step s = .next s) ∧
  ∀ (s : State) (op : HostOp) (rest : List HostOp), s.host = op :: rest →
    ((∃ t, step s = .next t) ↔
      ¬ ((∃ x, op = .load x ∧ s.cfg.ibufCap.val < x.length) ∨ (op = .pipe ∧ s.cfg.ibufCap.val < s.outLen.toNat) ∨
        (∃ k b, op = .writeIbuf k b ∧ s.cfg.ibufCap.val ≤ k) ∨ (∃ k, op = .readIbuf k ∧ s.cfg.ibufCap.val ≤ k) ∨
        (∃ k, op = .readObuf k ∧ s.cfg.obufCap.val ≤ k) ∨ ∃ v, op = .set 0 v ∧ 255 < v.toNat))

/-! ## Every command -/

/-- 10_state.md R22, 60_exceptions.md R281, R282, R286: from every state every command answers a next state, with an output
that fits or with one code of its row of the table and no output, and changes nothing else; `MTF_ENC` ends with
`F_MTF_RANGE` only when `MTF_ALPHA` is below 256. -/
def Obligations.EveryCommandSucceedsOrFailsByTable : Prop :=
  (∀ (i : Instr) (s : State),
    (∃ y, y.length ≤ s.cfg.obufCap.val ∧ Completes i s y) ∨
    ∃ c, c ∈ allowedCodes i ∧ c ≠ 0x00#8 ∧ FailsWith i s c) ∧
  ∀ s : State, FailsWith .mtfEnc s 0x13#8 → s.params.mtfAlpha.toNat < 256

/-- 60_exceptions.md R283: `E_PARAM` in exactly the cases of the table, also on the empty input. -/
def Obligations.ParameterErrorExactly : Prop :=
  ∀ (i : Instr) (s : State), FailsWith i s 0x02#8 ↔
    s.cfg.ibufCap.val < s.inLen.toNat ∨ (∃ k, k < s.inLen.toNat ∧ s.ibuf.read k = none) ∨ ¬ s.params.accepted i

/-- 00_scope.md R15: every command with `IN_LEN = 0` and valid parameters ends with `OUT_LEN = 0` and no error. -/
def Obligations.EmptyInputGivesEmptyOutput : Prop :=
  ∀ (i : Instr) (s : State), s.inLen = 0#32 → s.params.accepted i → Completes i s []

/-- 30_encoding.md R72 steps 4 to 9: with an input and accepted parameters each command ends as its unit's function
says: the function's error, `E_CAPACITY` for an output longer than `OBUF_CAP`, else success. -/
def Obligations.CommandConcludesAsUnit : Prop :=
  ∀ (s : State) (x : List Byte), s.inputIs x →
    Concludes .rlecEnc s (.ok (rlecEnc s.params.rlecMinRun.toNat x)) ∧
    Concludes .rlecDec s (rlecDec x) ∧
    Concludes .rlepEnc s (.ok (rlepEnc x)) ∧
    Concludes .rlepDec s (rlepDec x) ∧
    (s.params.mtfAlpha.toNat ≤ 256 →
      Concludes .mtfEnc s (mtfEnc s.params.mtfAlpha.toNat x) ∧
      Concludes .mtfDec s (mtfDec s.params.mtfAlpha.toNat x)) ∧
    Concludes .bwtEnc s (.ok (bwtEnc s.params.bwtBlock.toNat x)) ∧
    Concludes .bwtDec s (bwtDec x) ∧
    Concludes .hufEnc s (.ok (hufEnc x)) ∧
    Concludes .hufDec s (hufDec x) ∧
    Concludes .hufBuild s (hufBuild x) ∧
    (∀ w la, s.params.lz77Window = some w → s.params.lz77Lookahead = some la → w.toNat ≤ 65535 → la.toNat ≤ 65535 →
      Concludes .lz77Enc s (.ok (lz77Enc w.toNat la.toNat x))) ∧
    Concludes .lz77Dec s (lz77Dec x) ∧
    (∀ w la, s.params.lzssWindow = some w → s.params.lzssLookahead = some la →
      Concludes .lzssEnc s (.ok (lzssEnc w.toNat la.toNat s.params.lzssMinMatch.toNat x))) ∧
    Concludes .lz78Enc s (lz78Enc s.cfg.dictCap.val x) ∧
    Concludes .lz78Dec s (lz78Dec s.cfg.dictCap.val x)

/-- 00_scope.md R13, 10_state.md R34, R44, R46, 70_reset_and_hazards.md R325: how a command ends depends on the input, on
the parameter registers the command uses and on the capacities, and on nothing else of the state. -/
def Obligations.ResultDependsOnlyOnOperands : Prop :=
  ∀ (i : Instr) (s s' : State) (x : List Byte), s.inputIs x → s'.inputIs x → s'.cfg = s.cfg →
    s.params.agreeFor s'.params i →
    (∀ y, Completes i s y ↔ Completes i s' y) ∧ ∀ c, FailsWith i s c ↔ FailsWith i s' c

/-- The state after reset meets the invariant. -/
def Obligations.InvariantHoldsAtReset : Prop := State.reset.Inv

/-- Every step keeps the invariant: the buffers stay in canonical form within their capacities, `OBUF` holds exactly
`OUT_LEN` bytes, `STATUS` and `ERR` stay legal and agree, and there is output only after a success. -/
def Obligations.StepKeepsInvariant : Prop :=
  ∀ s t : State, s.Inv → step s = .next t → t.Inv

/-! ## Control-byte RLE -/

/-- 40_rle_control.md R101: the run length is the number of equal bytes from the position on, counted up to the cap. -/
def Obligations.RunLengthIsMaximal : Prop :=
  ∀ (cap : Nat) (v : Byte) (rest : List Byte), 1 ≤ cap →
    1 ≤ runLen cap (v :: rest) ∧ runLen cap (v :: rest) ≤ cap ∧ runLen cap (v :: rest) ≤ (v :: rest).length ∧
    (v :: rest).take (runLen cap (v :: rest)) = List.replicate (runLen cap (v :: rest)) v ∧
    (runLen cap (v :: rest) < cap → (v :: rest)[runLen cap (v :: rest)]? ≠ some v)

/-- 40_rle_control.md R105: a literal block takes bytes one at a time and closes as soon as it holds 127, the input ends or
a qualifying run starts; it takes at least one where no qualifying run starts. -/
def Obligations.LiteralBlockClosesFirst : Prop :=
  ∀ (m : Nat) (d : List Byte),
    literalBlock m 127 d = d.take (literalBlock m 127 d).length ∧
    (literalBlock m 127 d).length ≤ 127 ∧
    ((literalBlock m 127 d).length = 127 ∨ (literalBlock m 127 d).length = d.length ∨
      m ≤ runLen 127 (d.drop (literalBlock m 127 d).length)) ∧
    (∀ j, j < (literalBlock m 127 d).length → ¬ m ≤ runLen 127 (d.drop j)) ∧
    (d ≠ [] → ¬ m ≤ runLen 127 d → 1 ≤ (literalBlock m 127 d).length)

/-- 40_rle_control.md R103: the encoder writes a run token where a qualifying run starts and a literal token elsewhere, and
goes on after it; `RLEC_ENC` writes that stream, of at most twice the input's length, or fails with `E_CAPACITY`. -/
def Obligations.RlecEncFollowsScan : Prop :=
  (∀ (m : Nat) (v : Byte) (rest : List Byte),
    rlecEnc m [] = [] ∧
    (m ≤ runLen 127 (v :: rest) →
      rlecEnc m (v :: rest) = byteOf (runLen 127 (v :: rest)) :: v ::
        rlecEnc m ((v :: rest).drop (runLen 127 (v :: rest)))) ∧
    (¬ m ≤ runLen 127 (v :: rest) →
      rlecEnc m (v :: rest) = (0x80#8 ||| byteOf (literalBlock m 127 (v :: rest)).length) ::
        (literalBlock m 127 (v :: rest) ++
          rlecEnc m ((v :: rest).drop (literalBlock m 127 (v :: rest)).length)))) ∧
  ∀ (s : State) (x : List Byte), s.inputIs x →
    (rlecEnc s.params.rlecMinRun.toNat x).length ≤ 2 * x.length ∧
    ((rlecEnc s.params.rlecMinRun.toNat x).length ≤ s.cfg.obufCap.val →
      Completes .rlecEnc s (rlecEnc s.params.rlecMinRun.toNat x)) ∧
    (s.cfg.obufCap.val < (rlecEnc s.params.rlecMinRun.toNat x).length → FailsWith .rlecEnc s 0x03#8)

/-- 40_rle_control.md R110: the round trip, as functions for every threshold and as commands for any parameters of the
decoding block. -/
def Obligations.RlecRoundTrip : Prop :=
  (∀ (m : Nat) (x : List Byte), rlecDec (rlecEnc m x) = .ok x) ∧
  ∀ (s s' : State) (x y : List Byte), s.inputIs x → Completes .rlecEnc s y → s'.inputIs y →
    x.length ≤ s'.cfg.obufCap.val → Completes .rlecDec s' x

/-- 40_rle_control.md R107, R109, R111: `RLEC_DEC` gives what the tokens stand for, for every list of tokens with 7-bit
lengths, zero lengths among them. -/
def Obligations.RlecDecReadsTokens : Prop :=
  ∀ (s : State) (toks : List RlecToken), (∀ t ∈ toks, t.wf = true) → s.inputIs (toks.flatMap rlecTokenBytes) →
    (∀ len v, rlecTokenBytes (.run len v) = [byteOf len, v] ∧ rlecTokenMeaning (.run len v) = List.replicate len v) ∧
    (∀ l, rlecTokenBytes (.lit l) = (0x80#8 ||| byteOf l.length) :: l ∧ rlecTokenMeaning (.lit l) = l) ∧
    ((toks.flatMap rlecTokenMeaning).length ≤ s.cfg.obufCap.val →
      Completes .rlecDec s (toks.flatMap rlecTokenMeaning))

/-- 40_rle_control.md R108: after any good tokens, a run header as last byte raises `F_RLEC_NOVALUE`, and a literal header
that declares more bytes than follow raises `F_RLEC_OVERRUN`. -/
def Obligations.RlecDecFirstBadToken : Prop :=
  ∀ (s : State) (toks : List RlecToken) (h : Byte) (rest : List Byte), (∀ t ∈ toks, t.wf = true) →
    s.inputIs (toks.flatMap rlecTokenBytes ++ h :: rest) →
    (h.toNat < 128 → rest = [] → FailsWith .rlecDec s 0x11#8) ∧
    (128 ≤ h.toNat → rest.length < h.toNat - 128 → FailsWith .rlecDec s 0x10#8)

/-! ## Pair RLE -/

/-- 41_rle_pair.md R121 to R123: the pair encoder writes the count and the value of the run at each position and goes on
after it, cutting a run longer than 255 into pairs of count 255 and a last pair with the remainder; counts are 1 to 255,
the output is an even number of bytes, at most twice the input's, exactly that where no two neighbours are equal;
`RLEP_ENC` writes it or fails with `E_CAPACITY`. -/
def Obligations.RlepEncPairs : Prop :=
  (∀ (v : Byte) (rest : List Byte), rlepEnc [] = [] ∧
    rlepEnc (v :: rest) = byteOf (runLen 255 (v :: rest)) :: v :: rlepEnc ((v :: rest).drop (runLen 255 (v :: rest)))) ∧
  (∀ (n : Nat) (v : Byte) (rest : List Byte), rest.head? ≠ some v →
    rlepEnc (List.replicate n v ++ rest) =
      (List.replicate (n / 255) [0xFF#8, v]).flatten ++ (if n % 255 = 0 then [] else [byteOf (n % 255), v]) ++
        rlepEnc rest) ∧
  (∀ d : List Byte,
    rlepEnc d = (rlepPairs d).flatMap rlepPairBytes ∧ (∀ p ∈ rlepPairs d, 1 ≤ p.count ∧ p.count ≤ 255) ∧
    (rlepPairs d).flatMap rlepPairMeaning = d ∧ (rlepEnc d).length % 2 = 0 ∧ (rlepEnc d).length ≤ 2 * d.length ∧
    ((∀ k, k + 1 < d.length → d[k]? ≠ d[k + 1]?) → (rlepEnc d).length = 2 * d.length)) ∧
  ∀ (s : State) (x : List Byte), s.inputIs x →
    ((rlepEnc x).length ≤ s.cfg.obufCap.val → Completes .rlepEnc s (rlepEnc x)) ∧
    (s.cfg.obufCap.val < (rlepEnc x).length → FailsWith .rlepEnc s 0x03#8)

/-- 41_rle_pair.md R125, R126: `RLEP_DEC` fails with `F_RLEP_ODD` on every input of odd length, and every input of even
length is a list of pairs and decodes to what they stand for, a count of 0 to nothing. -/
def Obligations.RlepDecExactly : Prop :=
  ∀ (s : State) (x : List Byte), s.inputIs x →
    (∀ p : RlepPair, rlepPairBytes p = [byteOf p.count, p.value] ∧
      rlepPairMeaning p = List.replicate p.count p.value) ∧
    (x.length % 2 = 1 → FailsWith .rlepDec s 0x12#8) ∧
    (x.length % 2 = 0 → ∃ pairs : List RlepPair, (∀ p ∈ pairs, p.wf = true) ∧ x = pairs.flatMap rlepPairBytes ∧
      ((pairs.flatMap rlepPairMeaning).length ≤ s.cfg.obufCap.val →
        Completes .rlepDec s (pairs.flatMap rlepPairMeaning)))

/-- 41_rle_pair.md R127: the round trip, and the bound on a decoded output. -/
def Obligations.RlepRoundTrip : Prop :=
  (∀ x : List Byte, rlepDec (rlepEnc x) = .ok x) ∧
  (∀ x y : List Byte, rlepDec x = .ok y → y.length ≤ 255 * (x.length / 2)) ∧
  ∀ (s s' : State) (x y : List Byte), s.inputIs x → Completes .rlepEnc s y → s'.inputIs y →
    x.length ≤ s'.cfg.obufCap.val → Completes .rlepDec s' x

/-! ## Move-To-Front -/

/-- 42_mtf.md R131: the rank list starts as the symbols in ascending order, each once; moving position `p` to the front
shifts positions 0 to `p - 1` by one, leaves those after `p`, and keeps every symbol exactly once. -/
def Obligations.MoveToFrontKeepsSymbols : Prop :=
  (∀ alpha, alpha ≤ 256 → (rankList alpha).length = alpha ∧ (rankList alpha).Nodup ∧
    ∀ k, k < alpha → (rankList alpha)[k]? = some (byteOf k)) ∧
  ∀ (list : List Byte) (p : Nat), p < list.length →
    (moveToFront list p).Perm list ∧ (moveToFront list p)[0]? = list[p]? ∧
    (∀ q, q < p → (moveToFront list p)[q + 1]? = list[q]?) ∧
    (∀ q, p < q → (moveToFront list p)[q]? = list[q]?) ∧ moveToFront list 0 = list

/-- 42_mtf.md R133, R136: with a legal alphabet both MTF commands raise `F_MTF_RANGE` when a byte of the input is not below
`MTF_ALPHA`, and otherwise succeed with an output of the input's length. -/
def Obligations.MtfRangeExactly : Prop :=
  ∀ (i : Instr) (s : State) (x : List Byte), (i = .mtfEnc ∨ i = .mtfDec) → s.inputIs x →
    s.params.mtfAlpha.toNat ≤ 256 →
    ((∃ b ∈ x, s.params.mtfAlpha.toNat ≤ b.toNat) → FailsWith i s 0x13#8) ∧
    ((∀ b ∈ x, b.toNat < s.params.mtfAlpha.toNat) → x.length ≤ s.cfg.obufCap.val →
      ∃ y, y.length = x.length ∧ Completes i s y)

/-- 42_mtf.md R137: every rank and every decoded symbol is below `MTF_ALPHA`. -/
def Obligations.MtfAlphabetClosure : Prop :=
  ∀ (i : Instr) (s : State) (y : List Byte), (i = .mtfEnc ∨ i = .mtfDec) → Completes i s y →
    ∀ b ∈ y, b.toNat < s.params.mtfAlpha.toNat

/-- 42_mtf.md R131, R132, without the list: the rank of a byte that occurred before is the number of distinct bytes since
then, and the rank of a new byte is its value and one more for every greater byte that occurred before. -/
def Obligations.MtfRanksCountRecency : Prop :=
  ∀ (alpha : Nat) (x y : List Byte), alpha ≤ 256 → mtfEnc alpha x = .ok y → y.length = x.length ∧
    ∀ (k : Nat) (b p : Byte), x[k]? = some b → y[k]? = some p →
      (b ∉ x.take k → p.toNat = b.toNat + ((x.take k).dedup.filter fun c => decide (b.toNat < c.toNat)).length) ∧
      ∀ j, j < k → x[j]? = some b → b ∉ (x.take k).drop (j + 1) → p.toNat = ((x.take k).drop (j + 1)).dedup.length

/-- 42_mtf.md R138: decoding with the same alphabet gives the input back; with another it does too when every rank is
below that alphabet, and raises `F_MTF_RANGE` otherwise. -/
def Obligations.MtfRoundTrip : Prop :=
  (∀ (alpha : Nat) (x : List Byte), alpha ≤ 256 → (∀ b ∈ x, b.toNat < alpha) →
    ∃ y, mtfEnc alpha x = .ok y ∧ mtfDec alpha y = .ok x ∧
      ∀ alpha', alpha' ≤ 256 →
        ((∀ p ∈ y, p.toNat < alpha') → mtfDec alpha' y = .ok x) ∧
        ((∃ p ∈ y, alpha' ≤ p.toNat) → mtfDec alpha' y = .error .mtfRange)) ∧
  ∀ (s s' : State) (x y : List Byte), s.inputIs x → Completes .mtfEnc s y → s'.inputIs y →
    s'.params.mtfAlpha = s.params.mtfAlpha → x.length ≤ s'.cfg.obufCap.val → Completes .mtfDec s' x

/-! ## Burrows-Wheeler Transform -/

/-- 43_bwt.md R146, R147: the rotation order lists every start index once, in ascending lexicographic order of the
rotations, equal rotations in ascending order of their index. -/
def Obligations.RotationOrderSorted : Prop :=
  ∀ t : List Byte,
    (∀ i k, i < t.length → k < t.length → (rotation t i)[k]? = t[(i + k) % t.length]?) ∧
    (rotationOrder t).Perm (List.range t.length) ∧
    (rotationOrder t).Pairwise fun i j =>
      List.Lex (fun a b : Byte => a.toNat < b.toNat) (rotation t i) (rotation t j) ∨
        (rotation t i = rotation t j ∧ i < j)

/-- 43_bwt.md R149: the doubling-rank algorithm computes exactly the rotation order. -/
def Obligations.DoublingGivesRotationOrder : Prop :=
  ∀ t : List Byte, rotationOrderByDoubling t = rotationOrder t

/-- 43_bwt.md R148: each byte of the last column precedes its row's start cyclically, the column is a permutation of the
BWT block, and the primary index is the row of rotation 0. -/
def Obligations.BwtBlockColumns : Prop :=
  ∀ t : List Byte, t ≠ [] →
    (bwtBlock t).last.length = t.length ∧
    (∀ j i : Nat, (rotationOrder t)[j]? = some i →
      (bwtBlock t).last[j]? = t[(i + t.length - 1) % t.length]?) ∧
    (bwtBlock t).last.Perm t ∧ (bwtBlock t).primary < t.length ∧
    (rotationOrder t)[(bwtBlock t).primary]? = some 0

/-- 43_bwt.md R150 to R152: the input is cut into BWT blocks of the block size, the last perhaps shorter, each transformed
on its own; every field fits, and the output has `n + 8 * ceil(n / bs)` bytes; `BWT_ENC` writes it or fails with
`E_CAPACITY`. -/
def Obligations.BwtEncRecords : Prop :=
  ∀ (s : State) (x : List Byte) (bs : Nat), s.inputIs x → x ≠ [] →
    bs = bwtBlockSize s.params.bwtBlock.toNat x.length →
    (∃ blocks : List (List Byte), blocks.flatten = x ∧
      blocks.map List.length = List.replicate (x.length / bs) bs ++ (if x.length % bs = 0 then [] else [x.length % bs]) ∧
      bwtRecords s.params.bwtBlock.toNat x = blocks.map bwtBlock) ∧
    (∀ r ∈ bwtRecords s.params.bwtBlock.toNat x, r.wf = true) ∧
    (∀ r : BwtRecord, bwtRecordBytes r =
      [byteOf (r.last.length / 16777216), byteOf (r.last.length / 65536), byteOf (r.last.length / 256),
        byteOf r.last.length, byteOf (r.primary / 16777216), byteOf (r.primary / 65536), byteOf (r.primary / 256),
        byteOf r.primary] ++ r.last) ∧
    (bwtEnc s.params.bwtBlock.toNat x).length = x.length + 8 * ((x.length + bs - 1) / bs) ∧
    (x.length + 8 * ((x.length + bs - 1) / bs) ≤ s.cfg.obufCap.val →
      Completes .bwtEnc s ((bwtRecords s.params.bwtBlock.toNat x).flatMap bwtRecordBytes)) ∧
    (s.cfg.obufCap.val < x.length + 8 * ((x.length + bs - 1) / bs) → FailsWith .bwtEnc s 0x03#8)

/-- 43_bwt.md R153: for every column the LF-mapping adds the smaller bytes and the earlier equal ones, and is a permutation
of the rows that sends the occurrences of each byte, in order, to the run of that byte in the sorted column. -/
def Obligations.LfMapPermutesRows : Prop :=
  ∀ l : List Byte,
    ((List.range l.length).map (lfMap l)).Perm (List.range l.length) ∧
    (∀ (j : Nat) (b : Byte), l[j]? = some b →
      lfMap l j = l.countP (fun c => decide (c.toNat < b.toNat)) + (l.take j).count b) ∧
    ∀ i j : Nat, ∀ a b : Byte, l[i]? = some a → l[j]? = some b →
      (a.toNat < b.toNat → lfMap l i < lfMap l j) ∧ (a = b → i < j → lfMap l i < lfMap l j)

/-- 43_bwt.md R154, R162: the inverse from any row gives the rotation that stands in that row, so it gives the BWT block from
every row whose rotation equals rotation 0. -/
def Obligations.BwtInverseFromEveryRow : Prop :=
  ∀ (t : List Byte) (j i : Nat), (rotationOrder t)[j]? = some i →
    bwtInvBlock { primary := j, last := lastColumn t } = rotation t i

/-- 43_bwt.md R159: the round trip of one BWT block, of the functions and of the commands. -/
def Obligations.BwtRoundTrip : Prop :=
  (∀ t : List Byte, t ≠ [] → bwtInvBlock (bwtBlock t) = t) ∧
  (∀ (b : Nat) (x : List Byte), x.length < 2 ^ 32 → bwtDec (bwtEnc b x) = .ok x) ∧
  ∀ (s s' : State) (x y : List Byte), s.inputIs x → Completes .bwtEnc s y → s'.inputIs y →
    x.length ≤ s'.cfg.obufCap.val → Completes .bwtDec s' x

/-- 43_bwt.md R155, R158: `BWT_DEC` accepts every list of complete records with a primary index below the length, whatever
the payload, and writes for each the bytes read on the walk of R154 from the primary index, last byte first. -/
def Obligations.BwtDecReadsRecords : Prop :=
  ∀ (s : State) (recs : List BwtRecord), (∀ r ∈ recs, r.wf = true) → s.inputIs (recs.flatMap bwtRecordBytes) →
    (∀ r ∈ recs, (bwtInvBlock r).length = r.last.length ∧
      ∀ k, k < r.last.length → (bwtInvBlock r)[r.last.length - 1 - k]? = r.last[(lfMap r.last)^[k] r.primary]?) ∧
    ((recs.flatMap fun r => r.last).length ≤ s.cfg.obufCap.val → Completes .bwtDec s (recs.flatMap bwtInvBlock))

/-- 43_bwt.md R156, R157: after any good records, 1 to 7 bytes or a header with too few bytes after it raise
`F_BWT_TRUNC`, and a complete record with `n = 0` or `pi ≥ n` raises `F_BWT_INDEX`. -/
def Obligations.BwtDecFirstBadRecord : Prop :=
  ∀ (s : State) (recs : List BwtRecord) (tail : List Byte), (∀ r ∈ recs, r.wf = true) →
    s.inputIs (recs.flatMap bwtRecordBytes ++ tail) →
    (1 ≤ tail.length → tail.length ≤ 7 → FailsWith .bwtDec s 0x14#8) ∧
    ∀ (n pi : Nat) (rest : List Byte), n < 2 ^ 32 → pi < 2 ^ 32 → tail = be32 n ++ be32 pi ++ rest →
      (rest.length < n → FailsWith .bwtDec s 0x14#8) ∧
      (n ≤ rest.length → (n = 0 ∨ n ≤ pi) → FailsWith .bwtDec s 0x15#8)

/-! ## Huffman coding -/

/-- 44_huffman.md R172, R173: the pool starts as one item per entry in table order and stays in the order (weight, sequence
number), the two smallest items are merged, first extracted left, under the next number; the tree has exactly one leaf per
symbol and one internal node less. -/
def Obligations.HufTreeMergesTwoSmallest : Prop :=
  (∀ tbl : List HufEntry,
    (poolOfTable 0 tbl).Perm (tbl.mapIdx fun j e => { weight := e.freq, seq := j, tree := .leaf e.sym }) ∧
    (poolOfTable 0 tbl).Pairwise (fun a b => a.before b = true) ∧
    hufTree tbl = poolMerge tbl.length tbl.length (poolOfTable 0 tbl)) ∧
  (∀ (x : PoolItem) (q : List PoolItem), q.Pairwise (fun a b => a.before b = true) → (∀ y ∈ q, y.seq ≠ x.seq) →
    (poolInsert x q).Perm (x :: q) ∧ (poolInsert x q).Pairwise (fun a b => a.before b = true)) ∧
  (∀ (fuel next : Nat) (a b : PoolItem) (rest : List PoolItem), poolMerge fuel next [a] = some a.tree ∧
    poolMerge (fuel + 1) next (a :: b :: rest) = poolMerge fuel (next + 1)
      (poolInsert { weight := a.weight + b.weight, seq := next, tree := .node a.tree b.tree } rest)) ∧
  ∀ tbl : List HufEntry, HufEntry.tableWf tbl = true →
    ∃ tree, hufTree tbl = some tree ∧ (hufLeaves tree).Perm (tbl.map HufEntry.sym) ∧
      hufInner tree = tbl.length - 1

/-- 44_huffman.md R174, R175: a code is the walk from the root, 0 left and 1 right; every symbol has one code, of 1 to
`K - 1` bits when `K ≥ 2` and "0" when `K = 1`, and no code is a prefix of another. -/
def Obligations.HufCodesPrefixFree : Prop :=
  (∀ (l r : HufTree) (s : Byte) (pre : List Bool), hufCodes (.node l r) = hufWalk (.node l r) [] ∧
    hufWalk (.node l r) pre = hufWalk l (pre ++ [false]) ++ hufWalk r (pre ++ [true]) ∧
    hufWalk (.leaf s) pre = [{ sym := s, bits := pre }]) ∧
  ∀ (tbl : List HufEntry) (tree : HufTree), HufEntry.tableWf tbl = true → hufTree tbl = some tree →
    ((hufCodes tree).map HufCode.sym).Perm (tbl.map HufEntry.sym) ∧
    (∀ c ∈ hufCodes tree, 1 ≤ c.bits.length ∧ c.bits.length ≤ 255 ∧
      (2 ≤ tbl.length → c.bits.length ≤ tbl.length - 1) ∧ (tbl.length = 1 → c.bits = [false]) ∧
      codeOf (hufCodes tree) c.sym = c.bits) ∧
    ∀ c ∈ hufCodes tree, ∀ c' ∈ hufCodes tree, c.sym ≠ c'.sym → ¬ c.bits <+: c'.bits

/-- 44_huffman.md R176, 30_encoding.md R81: on every well-formed table `HUF_BUILD` writes, in the table's order, each
symbol, its code's length and its code packed into bytes, or fails with `E_CAPACITY`. -/
def Obligations.HufBuildWritesCodebook : Prop :=
  ∀ (s : State) (tbl : List HufEntry), HufEntry.tableWf tbl = true → s.inputIs (hufTableBytes tbl) →
    ∃ tree, hufTree tbl = some tree ∧ ∀ out, out = (tbl.flatMap fun e =>
        e.sym :: byteOf (codeOf (hufCodes tree) e.sym).length :: pack (codeOf (hufCodes tree) e.sym)) →
      out.length ≤ 34 * tbl.length ∧ (out.length ≤ s.cfg.obufCap.val → Completes .hufBuild s out) ∧
      (s.cfg.obufCap.val < out.length → FailsWith .hufBuild s 0x03#8)

/-- 44_huffman.md R177: on a non-empty input `HUF_BUILD` fails with `F_HUF_HEADER` exactly when the input is not one
well-formed table. -/
def Obligations.HufBuildRejectsExactly : Prop :=
  ∀ (s : State) (x : List Byte), s.inputIs x → x ≠ [] →
    (FailsWith .hufBuild s 0x16#8 ↔
      ¬ ∃ tbl : List HufEntry, HufEntry.tableWf tbl = true ∧ x = hufTableBytes tbl)

/-- 44_huffman.md R178, R180 to R183: the table the encoder writes lists the symbols present, ascending, with their counts;
the stream is the table, the pad length and the codes packed most significant bit first with zero bits after the last,
`3 + 5K + ceil(bits / 8)` bytes; `HUF_ENC` writes it or fails with `E_CAPACITY`. -/
def Obligations.HufEncWritesStream : Prop :=
  (∀ bits : List Bool, (pack bits).flatMap (fun b => (List.range 8).map fun k => b.getLsbD (7 - k)) =
    bits ++ List.replicate ((8 - bits.length % 8) % 8) false) ∧ hufEnc [] = [] ∧
  (∀ tbl : List HufEntry, hufTableBytes tbl = [byteOf (tbl.length / 256), byteOf tbl.length] ++ tbl.flatMap fun e =>
    [e.sym, byteOf (e.freq / 16777216), byteOf (e.freq / 65536), byteOf (e.freq / 256), byteOf e.freq]) ∧
  ∀ (s : State) (x : List Byte), s.inputIs x → x ≠ [] →
    HufEntry.tableWf (freqTable x) = true ∧
    ((freqTable x).map fun e => e.sym.toNat).Pairwise (· < ·) ∧
    (∀ e ∈ freqTable x, e.freq = x.count e.sym) ∧ (∀ b ∈ x, b ∈ (freqTable x).map HufEntry.sym) ∧
    ∃ tree, hufTree (freqTable x) = some tree ∧ ∀ bits pad out, bits = x.flatMap (codeOf (hufCodes tree)) →
      pad = (8 - bits.length % 8) % 8 → out = hufTableBytes (freqTable x) ++ [byteOf pad] ++ pack bits →
      hufEnc x = out ∧ 1 ≤ bits.length ∧ (bits.length + pad) % 8 = 0 ∧
      out.length = 3 + 5 * (freqTable x).length + (bits.length + 7) / 8 ∧
      (out.length ≤ s.cfg.obufCap.val → Completes .hufEnc s out) ∧
      (s.cfg.obufCap.val < out.length → FailsWith .hufEnc s 0x03#8)

/-- 44_huffman.md R188: on a non-empty input `HUF_DEC` fails with `F_HUF_HEADER` exactly when the input is not a
well-formed table, a pad byte of at most 7 and a body of at least that many bits. -/
def Obligations.HufDecHeaderExactly : Prop :=
  ∀ (s : State) (x : List Byte), s.inputIs x → x ≠ [] →
    (FailsWith .hufDec s 0x16#8 ↔
      ¬ ∃ (tbl : List HufEntry) (pad : Byte) (body : List Byte), HufEntry.tableWf tbl = true ∧ pad.toNat ≤ 7 ∧
        pad.toNat ≤ 8 * body.length ∧ x = hufTableBytes tbl ++ pad :: body)

/-- 44_huffman.md R186, R189, R190: behind a well-formed header `HUF_DEC` gives the symbols whose codes the bits before the
pad are, whatever the pad bits and the header's frequencies, and raises `F_HUF_BITS` when the bits are not a sequence of
codes. -/
def Obligations.HufDecDecodesCodes : Prop :=
  ∀ (s : State) (tbl : List HufEntry) (tree : HufTree) (pad : Byte) (body : List Byte) (bits : List Bool),
    HufEntry.tableWf tbl = true → hufTree tbl = some tree → pad.toNat ≤ 7 → pad.toNat ≤ 8 * body.length →
    s.inputIs (hufTableBytes tbl ++ pad :: body) →
    bits = (body.flatMap bitsOfByte).take (8 * body.length - pad.toNat) →
    (∀ y : List Byte, (∀ b ∈ y, b ∈ tbl.map HufEntry.sym) → bits = y.flatMap (codeOf (hufCodes tree)) →
      y.length ≤ s.cfg.obufCap.val → Completes .hufDec s y) ∧
    ((∀ y : List Byte, (∀ b ∈ y, b ∈ tbl.map HufEntry.sym) → bits ≠ y.flatMap (codeOf (hufCodes tree))) →
      FailsWith .hufDec s 0x17#8)

/-- 44_huffman.md R192: the round trip, and the decoder's table is the encoder's, so the two trees are equal; the number of
code bits is the sum of the code lengths. -/
def Obligations.HufRoundTrip : Prop :=
  (∀ x : List Byte, x.length < 2 ^ 32 → hufDec (hufEnc x) = .ok x) ∧
  (∀ x : List Byte, x.length < 2 ^ 32 → x ≠ [] → ∃ rest, parseTable (hufEnc x) = .ok (freqTable x, rest)) ∧
  (∀ (x : List Byte) (codes : List HufCode),
    (x.flatMap (codeOf codes)).length = (x.map fun b => (codeOf codes b).length).sum) ∧
  ∀ (s s' : State) (x y : List Byte), s.inputIs x → Completes .hufEnc s y → s'.inputIs y →
    x.length ≤ s'.cfg.obufCap.val → Completes .hufDec s' x

/-! ## LZ77 and LZSS -/

/-- 45_lz77.md R207 to R209: the match finder gives a match wholly inside the window and the lookahead, of the greatest
length, and of the smallest offset among those; length 0 goes with offset 0 alone. -/
def Obligations.FindMatchIsLongestNearest : Prop :=
  ∀ (w la : Nat) (past ahead : List Byte) (off len : Nat), findMatch w la past ahead = (off, len) →
    len ≤ la ∧ len ≤ ahead.length ∧ len ≤ off ∧ off ≤ w ∧ off ≤ past.length ∧ (len = 0 ↔ off = 0) ∧
    (past.drop (past.length - off)).take len = ahead.take len ∧
    ∀ off' len', 0 < len' → len' ≤ off' → off' ≤ w → off' ≤ past.length → len' ≤ la → len' ≤ ahead.length →
      (past.drop (past.length - off')).take len' = ahead.take len' → len' ≤ len ∧ (len' = len → off ≤ off')

/-- 45_lz77.md R214: the back-copy appends `len` bytes, each equal to the byte `off` before it, or fails where the bytes do
not exist; for `len ≤ off` it appends a piece of the output. -/
def Obligations.BackCopyRepeats : Prop :=
  ∀ (out : List Byte) (off len : Nat),
    (0 < len → (off = 0 ∨ out.length < off) → backCopy out off len = none) ∧
    ((len = 0 ∨ (1 ≤ off ∧ off ≤ out.length)) →
      ∃ r, backCopy out off len = some r ∧ r.length = out.length + len ∧ r.take out.length = out ∧
        (∀ k, k < len → r[out.length + k]? = r[out.length + k - off]?) ∧
        (len ≤ off → r = out ++ (out.drop (out.length - off)).take len))

/-- 45_lz77.md R210, R211: the encoder writes, at each position, the best match with the byte after it as a full token, or a
final token when the match ends the input; a token without a match has offset 0, and the final token is the last, of
length 1 or more; `LZ77_ENC` writes those tokens, of at most five bytes for each byte of input, or fails with
`E_CAPACITY`. -/
def Obligations.Lz77EncTokens : Prop :=
  (∀ (w la : Nat) (past ahead : List Byte) (off len : Nat), ahead ≠ [] → findMatch w la past ahead = (off, len) →
    lz77From w la past [] = [] ∧
    (∀ lit, ahead[len]? = some lit → lz77From w la past ahead =
      .full off len lit :: lz77From w la (past ++ ahead.take (len + 1)) (ahead.drop (len + 1))) ∧
    (ahead.length ≤ len → lz77From w la past ahead = [.final off len])) ∧
  (∀ (w la : Nat) (d : List Byte) (pre post : List Lz77Token) (off len : Nat),
    lz77Tokens w la d = pre ++ .final off len :: post → post = [] ∧ 1 ≤ len ∧ 1 ≤ off) ∧
  ∀ (s : State) (x : List Byte) (w la : Word), s.inputIs x → s.params.lz77Window = some w →
    s.params.lz77Lookahead = some la → w.toNat ≤ 65535 → la.toNat ≤ 65535 →
    (∀ t ∈ lz77Tokens w.toNat la.toNat x, t.wf = true) ∧
    (∀ off len lit, lz77TokenBytes (.full off len lit) =
      [byteOf (off / 256), byteOf off, byteOf (len / 256), byteOf len, lit]) ∧
    (∀ off len, lz77TokenBytes (.final off len) = [byteOf (off / 256), byteOf off, byteOf (len / 256), byteOf len]) ∧
    ∀ out, out = (lz77Tokens w.toNat la.toNat x).flatMap lz77TokenBytes →
      out.length ≤ 5 * x.length ∧ (out.length ≤ s.cfg.obufCap.val → Completes .lz77Enc s out) ∧
      (s.cfg.obufCap.val < out.length → FailsWith .lz77Enc s 0x03#8)

/-- 45_lz77.md R215 to R218: `LZ77_DEC` gives what the tokens make of the empty output; a token that refers to bytes that do
not exist raises `F_LZ77_REF`, after full tokens that do not; one to three bytes left raise `F_LZ77_LENGTH`. -/
def Obligations.Lz77DecReadsTokens : Prop :=
  ∀ (s : State) (fulls : List Lz77Token) (out : List Byte),
    (∀ t ∈ fulls, t.wf = true ∧ lz77IsFull t = true) → lz77ApplyAll [] fulls = some out →
    (∀ off len lit y, backCopy out off len = some y →
      lz77ApplyAll [] (fulls ++ [.full off len lit]) = some (y ++ [lit])) ∧
    (s.inputIs (fulls.flatMap lz77TokenBytes) → out.length ≤ s.cfg.obufCap.val → Completes .lz77Dec s out) ∧
    (∀ off len y, off < 2 ^ 16 → len < 2 ^ 16 → backCopy out off len = some y →
      s.inputIs (fulls.flatMap lz77TokenBytes ++ lz77TokenBytes (.final off len)) →
      y.length ≤ s.cfg.obufCap.val → Completes .lz77Dec s y) ∧
    (∀ off len, off < 2 ^ 16 → len < 2 ^ 16 → 0 < len → (off = 0 ∨ out.length < off) →
      (s.inputIs (fulls.flatMap lz77TokenBytes ++ lz77TokenBytes (.final off len)) → FailsWith .lz77Dec s 0x19#8) ∧
      ∀ lit rest, s.inputIs (fulls.flatMap lz77TokenBytes ++ lz77TokenBytes (.full off len lit) ++ rest) →
        FailsWith .lz77Dec s 0x19#8) ∧
    ∀ rest : List Byte, 1 ≤ rest.length → rest.length ≤ 3 → s.inputIs (fulls.flatMap lz77TokenBytes ++ rest) →
      FailsWith .lz77Dec s 0x18#8

/-- 45_lz77.md R219: the round trip for every legal window and lookahead, and of the commands for any parameters of the
decoding block. -/
def Obligations.Lz77RoundTrip : Prop :=
  (∀ (w la : Nat) (x : List Byte), w ≤ 65535 → la ≤ 65535 → lz77Dec (lz77Enc w la x) = .ok x) ∧
  ∀ (s s' : State) (x y : List Byte), s.inputIs x → Completes .lz77Enc s y → s'.inputIs y →
    x.length ≤ s'.cfg.obufCap.val → Completes .lz77Dec s' x

/-- 46_lzss.md R231 to R234: at each position the encoder writes the best match when it reaches `max(1, MM)` and a literal
otherwise; `MM = 0` acts as `MM = 1`; where no match can reach the threshold it writes two bytes per input byte;
`LZSS_ENC` writes those tokens, of at most nine bytes for each byte of input, or fails with `E_CAPACITY`. -/
def Obligations.LzssEncTokens : Prop :=
  (∀ (w la mm : Nat) (past : List Byte) (b : Byte) (rest : List Byte) (off len : Nat),
    findMatch w la past (b :: rest) = (off, len) →
    lzssFrom w la mm past [] = [] ∧
    (max 1 mm ≤ len → lzssFrom w la mm past (b :: rest) =
      .copy off len :: lzssFrom w la mm (past ++ (b :: rest).take len) ((b :: rest).drop len)) ∧
    (len < max 1 mm → lzssFrom w la mm past (b :: rest) =
      .literal b :: lzssFrom w la mm (past ++ [b]) rest)) ∧
  (∀ (w la : Nat) (d : List Byte), lzssEnc w la 0 d = lzssEnc w la 1 d) ∧
  (∀ (w la mm : Nat) (d : List Byte), w = 0 ∨ la = 0 ∨ min w la < mm →
    lzssTokens w la mm d = d.map LzssToken.literal ∧ (lzssEnc w la mm d).length = 2 * d.length) ∧
  ∀ (s : State) (x : List Byte) (w la : Word), s.inputIs x → s.params.lzssWindow = some w →
    s.params.lzssLookahead = some la →
    (∀ off len, .copy off len ∈ lzssTokens w.toNat la.toNat s.params.lzssMinMatch.toNat x →
      1 ≤ off ∧ 1 ≤ len ∧ len ≤ off ∧ off ≤ x.length) ∧
    (∀ b, lzssTokenBytes (.literal b) = [0x00#8, b]) ∧
    (∀ off len, lzssTokenBytes (.copy off len) =
      [0x01#8, byteOf (off / 16777216), byteOf (off / 65536), byteOf (off / 256), byteOf off,
        byteOf (len / 16777216), byteOf (len / 65536), byteOf (len / 256), byteOf len]) ∧
    ∀ out, out = (lzssTokens w.toNat la.toNat s.params.lzssMinMatch.toNat x).flatMap lzssTokenBytes →
      out.length ≤ 9 * x.length ∧ (out.length ≤ s.cfg.obufCap.val → Completes .lzssEnc s out) ∧
      (s.cfg.obufCap.val < out.length → FailsWith .lzssEnc s 0x03#8)

/-- 46_lzss.md R235, 48_companion_units.md R262: the LZSS decoder of the source gives back the input of `LZSS_ENC`. -/
def Obligations.LzssRoundTrip : Prop :=
  (∀ (w la mm : Nat) (x : List Byte), x.length < 2 ^ 32 → lzssDec (lzssEnc w la mm x) = some x) ∧
  ∀ (s : State) (x y : List Byte), s.inputIs x → Completes .lzssEnc s y → lzssDec y = some x

/-! ## LZ78 -/

/-- 47_lz78.md R242, R244, R245, R250: the tokens do not depend on the capacity of the dictionary, and the encoder raises
`E_CAPACITY` exactly when there are more full tokens than it has entries; a token's code is that of a sequence the tokens
before it entered, and the sequence matches the input where they end; a full token's byte is the next one, and the sequence
extended by it is in the dictionary nowhere, so the match is the longest and every full token enters a new sequence; a final
token is last, its code is not 0, and its sequence ends the input; `LZ78_ENC` writes the tokens, at most five bytes for
each byte of input. -/
def Obligations.Lz78EncTokens : Prop :=
  ∀ d : List Byte, ∃ toks : List Lz78Token,
    (∀ cap, lz78Tokens cap d =
      if (toks.filter lz78IsFull).length ≤ cap then .ok toks else .error .capacity) ∧
    (toks.flatMap lz78TokenBytes).length ≤ 5 * d.length ∧
    (∀ pre t post, toks = pre ++ t :: post →
      lz78Code t ≤ (pre.filter lz78IsFull).length ∧ (lz78IsFull t = false → post = [] ∧ 1 ≤ lz78Code t)) ∧
    (∀ pre t post, toks = pre ++ t :: post → ∃ seqs out q,
      lz78Apply ([[]], []) (lz78Pairs pre) = some (seqs, out) ∧ seqs[lz78Code t]? = some q ∧ seqs.Nodup ∧
      (∀ c b, t = .full c b → (out ++ q ++ [b]) <+: d ∧ q ++ [b] ∉ seqs ∧ (post = [] → out ++ q ++ [b] = d)) ∧
      (∀ c, t = .final c → out ++ q = d)) ∧
    (d ≠ [] → toks ≠ []) ∧
    (∀ c b, lz78TokenBytes (.full c b) =
      [byteOf (c / 16777216), byteOf (c / 65536), byteOf (c / 256), byteOf c, b]) ∧
    (∀ c, lz78TokenBytes (.final c) = [byteOf (c / 16777216), byteOf (c / 65536), byteOf (c / 256), byteOf c]) ∧
    ∀ s : State, s.inputIs d →
      ((toks.filter lz78IsFull).length ≤ s.cfg.dictCap.val →
        (toks.flatMap lz78TokenBytes).length ≤ s.cfg.obufCap.val →
        Completes .lz78Enc s (toks.flatMap lz78TokenBytes)) ∧
      (s.cfg.dictCap.val < (toks.filter lz78IsFull).length ∨
          s.cfg.obufCap.val < (toks.flatMap lz78TokenBytes).length → FailsWith .lz78Enc s 0x03#8)

/-- 47_lz78.md R246 to R250: `LZ78_DEC` gives the sequences of the tokens and enters one for each full token; a code that is
not assigned yet raises `F_LZ78_CODE`, one to three bytes left raise `F_LZ78_LENGTH`, and a full token beyond the
dictionary's capacity raises `E_CAPACITY`. -/
def Obligations.Lz78DecReadsTokens : Prop :=
  ∀ (s : State) (fulls : List (Nat × Byte)) (seqs : List (List Byte)) (out : List Byte),
    (∀ t ∈ fulls, t.1 < 2 ^ 32) → lz78Apply ([[]], []) fulls = some (seqs, out) →
    seqs.length = fulls.length + 1 ∧ seqs[0]? = some [] ∧
    (∀ c b q, seqs[c]? = some q →
      lz78Apply ([[]], []) (fulls ++ [(c, b)]) = some (seqs ++ [q ++ [b]], out ++ (q ++ [b]))) ∧
    (fulls.length ≤ s.cfg.dictCap.val →
      (s.inputIs (lz78FullBytes fulls) → out.length ≤ s.cfg.obufCap.val → Completes .lz78Dec s out) ∧
      (∀ c q, c < 2 ^ 32 → seqs[c]? = some q → s.inputIs (lz78FullBytes fulls ++ be32 c) →
        (out ++ q).length ≤ s.cfg.obufCap.val → Completes .lz78Dec s (out ++ q)) ∧
      (∀ c rest, c < 2 ^ 32 → fulls.length < c → s.inputIs (lz78FullBytes fulls ++ be32 c ++ rest) →
        FailsWith .lz78Dec s 0x1B#8) ∧
      ∀ rest : List Byte, 1 ≤ rest.length → rest.length ≤ 3 → s.inputIs (lz78FullBytes fulls ++ rest) →
        FailsWith .lz78Dec s 0x1A#8) ∧
    ∀ rest : List Byte, fulls.length = s.cfg.dictCap.val + 1 → s.inputIs (lz78FullBytes fulls ++ rest) →
      FailsWith .lz78Dec s 0x03#8

/-- 47_lz78.md R251: the round trip with a dictionary that is large enough, which it is with an entry for each byte of
input; the bound on a decoded output; and the round trip of the commands when the decoding block's dictionary is no
smaller. -/
def Obligations.Lz78RoundTrip : Prop :=
  (∀ (cap cap' : Nat) (x y : List Byte), x.length < 2 ^ 32 → cap ≤ cap' → lz78Enc cap x = .ok y →
    lz78Dec cap' y = .ok x) ∧
  (∀ (cap : Nat) (x : List Byte), x.length ≤ cap → ∃ y, lz78Enc cap x = .ok y) ∧
  (∀ (cap t : Nat) (x y : List Byte), lz78Dec cap x = .ok y → t = (x.length + 4) / 5 →
    y.length ≤ t * (t + 1) / 2 + t) ∧
  ∀ (s s' : State) (x y : List Byte), s.inputIs x → Completes .lz78Enc s y → s'.inputIs y →
    s.cfg.dictCap ≤ s'.cfg.dictCap → x.length ≤ s'.cfg.obufCap.val → Completes .lz78Dec s' x

/-! ## The composer -/

/-- 48_companion_units.md R271: composing codecs that each undo their own compression gives one that does. -/
def Obligations.CompositionRoundTrip : Prop :=
  ∀ cs : List Codec, (∀ c ∈ cs, ∀ x y, c.compress x = some y → c.decompress y = some x) →
    ∀ x y, composeEnc cs x = some y → composeDec cs y = some x

end
end

