-- ==== Sys2Proof/Laws/Memory.lean ====
section
/-!
SUPPORT. What the buffer operations do: what a read gives after a write, and that every operation keeps the canonical
form and the bound on the addresses.
-/

namespace Sys2Proof.Machine

@[simp] theorem Memory.read_nil (k : Nat) : Memory.read [] k = none := rfl

/-- A read after a write: the byte at the cell written, the old content at every other one. -/
theorem Memory.read_write (m : Memory) (k j : Nat) (b : Byte) :
    (m.write k b).read j = if k = j then some b else m.read j := by
  induction m with
  | nil => simp [Memory.write, Memory.read]
  | cons c m ih =>
    obtain ⟨a, x⟩ := c
    simp only [Memory.write]
    split_ifs <;> simp_all [Memory.read]
    all_goals grind

/-- A read after a write of consecutive cells. -/
theorem Memory.read_writeBytes (m : Memory) (k j : Nat) (bs : List Byte) :
    (m.writeBytes k bs).read j = if k ≤ j ∧ j < k + bs.length then bs[j - k]? else m.read j := by
  induction bs generalizing m k with
  | nil =>
    simp [Memory.writeBytes]
  | cons b bs ih =>
    simp only [Memory.writeBytes, ih, Memory.read_write, List.length_cons]
    by_cases hk : k = j
    · subst hk; simp
    · by_cases h : k + 1 ≤ j ∧ j < k + 1 + bs.length
      · obtain ⟨i, rfl⟩ : ∃ i, j = k + 1 + i := ⟨j - (k + 1), by omega⟩
        have h1 : k + 1 + i - (k + 1) = i := by omega
        have h2 : k + 1 + i - k = i + 1 := by omega
        simp [h1, h2, hk]
        grind
      · have h2 : ¬ (k ≤ j ∧ j < k + (bs.length + 1)) := by omega
        simp [hk]
        grind

/-- What a buffer built from bytes holds: those bytes from its first offset on, and nothing else. -/
theorem Memory.read_ofBytes (k j : Nat) (bs : List Byte) :
    (Memory.ofBytes k bs).read j = if k ≤ j then bs[j - k]? else none := by
  induction bs generalizing k with
  | nil => simp [Memory.ofBytes]
  | cons b bs ih =>
    simp only [Memory.ofBytes, Memory.read, ih]
    grind

@[simp] theorem Memory.read_ofBytes_zero (j : Nat) (bs : List Byte) : (Memory.ofBytes 0 bs).read j = bs[j]? := by
  simp [Memory.read_ofBytes]

/-- Reading a range succeeds with `bs` exactly when each cell of it holds its byte. -/
theorem Memory.readBytes_eq_some (m : Memory) (k n : Nat) (bs : List Byte) :
    m.readBytes k n = some bs ↔ bs.length = n ∧ ∀ j, j < n → m.read (k + j) = bs[j]? := by
  induction n generalizing k bs with
  | zero =>
    simp only [Memory.readBytes, Option.some.injEq]
    constructor
    · rintro rfl; simp
    · rintro ⟨h, -⟩; exact (List.eq_nil_of_length_eq_zero h).symm
  | succ n ih =>
    simp only [Memory.readBytes]
    constructor
    · intro h
      split at h
      · cases h
      · rename_i b hb
        split at h
        · cases h
        · rename_i rest hrest
          cases h
          obtain ⟨hl, hr⟩ := (ih (k + 1) rest).1 hrest
          refine ⟨by simp [hl], fun j hj => ?_⟩
          cases j with
          | zero => simpa using hb
          | succ j => have := hr j (by omega); simpa [Nat.add_assoc, Nat.add_comm 1 j] using this
    · rintro ⟨hl, hr⟩
      cases bs with
      | nil => simp at hl
      | cons b rest =>
        have h0 := hr 0 (by omega)
        simp only [Nat.add_zero, List.getElem?_cons_zero] at h0
        have hrest : m.readBytes (k + 1) n = some rest := (ih (k + 1) rest).2
          ⟨by simpa using hl, fun j hj => by
            have := hr (j + 1) (by omega)
            simpa [Nat.add_assoc, Nat.add_comm 1 j] using this⟩
        rw [h0]
        simp only [hrest]

/-- Reading a range fails exactly when a cell of it holds no value. -/
theorem Memory.readBytes_eq_none (m : Memory) (k n : Nat) :
    m.readBytes k n = none ↔ ∃ j, j < n ∧ m.read (k + j) = none := by
  induction n generalizing k with
  | zero => simp [Memory.readBytes]
  | succ n ih =>
    simp only [Memory.readBytes]
    constructor
    · intro h
      split at h
      · exact ⟨0, by omega, by simpa⟩
      · split at h
        · rename_i hrest
          obtain ⟨j, hj, hr⟩ := (ih (k + 1)).1 hrest
          exact ⟨j + 1, by omega, by simpa [Nat.add_assoc, Nat.add_comm 1 j] using hr⟩
        · cases h
    · rintro ⟨j, hj, hr⟩
      cases j with
      | zero => simp only [Nat.add_zero] at hr; rw [hr]
      | succ j =>
        have : m.readBytes (k + 1) n = none :=
          (ih (k + 1)).2 ⟨j, by omega, by simpa [Nat.add_assoc, Nat.add_comm 1 j] using hr⟩
        rw [this]
        cases m.read k <;> rfl

/-- Drawing bytes from cells that all hold one gives them and draws nothing. -/
theorem Memory.drawBytes_eq (m : Memory) (draws k n : Nat) (bs : List Byte) (h : m.readBytes k n = some bs) :
    m.drawBytes draws k n = (bs, draws) := by
  induction n generalizing k bs with
  | zero => simp only [Memory.readBytes, Option.some.injEq] at h; subst h; rfl
  | succ n ih =>
    simp only [Memory.readBytes] at h
    split at h
    · cases h
    · rename_i b hb
      split at h
      · cases h
      · rename_i rest hrest
        cases h
        simp [Memory.drawBytes, hb, drawByte, ih _ _ hrest]

theorem Memory.drawBytes_length (m : Memory) (draws k n : Nat) : (m.drawBytes draws k n).1.length = n := by
  induction n generalizing draws k with
  | zero => rfl
  | succ n ih => simp [Memory.drawBytes, ih]

/-- In a canonical buffer every address of the tail is above the head's. -/
theorem Memory.wf_cons (a : Nat) (b : Byte) (m : Memory) :
    Memory.wf ((a, b) :: m) = true ↔ (∀ c ∈ m, a < c.1) ∧ m.wf = true := by
  induction m generalizing a b with
  | nil => simp [Memory.wf]
  | cons c m ih =>
    obtain ⟨x, y⟩ := c
    simp only [Memory.wf, Bool.and_eq_true, decide_eq_true_eq, ih]
    constructor
    · rintro ⟨h, hm, hw⟩
      refine ⟨fun c hc => ?_, hm, hw⟩
      rcases List.mem_cons.1 hc with rfl | hc
      · exact h
      · exact lt_trans h (hm c hc)
    · rintro ⟨h, hm, hw⟩
      exact ⟨h (x, y) (by simp), hm, hw⟩

/-- A property of addresses that holds of every listed cell and of the cell written holds after the write. -/
theorem Memory.forall_write {p : Nat → Prop} (m : Memory) (k : Nat) (b : Byte) (hk : p k) (hm : ∀ c ∈ m, p c.1) :
    ∀ c ∈ m.write k b, p c.1 := by
  induction m with
  | nil => simpa [Memory.write] using hk
  | cons c m ih =>
    obtain ⟨a, x⟩ := c
    simp only [List.mem_cons, forall_eq_or_imp] at hm
    simp only [Memory.write]
    split_ifs <;> simp only [List.mem_cons, forall_eq_or_imp]
    · exact ⟨hk, hm⟩
    · exact ⟨hk, hm.2⟩
    · exact ⟨hm.1, ih hm.2⟩

/-- A write keeps the canonical form. -/
theorem Memory.write_wf (m : Memory) (k : Nat) (b : Byte) (h : m.wf = true) : (m.write k b).wf = true := by
  induction m with
  | nil => rfl
  | cons c m ih =>
    obtain ⟨a, x⟩ := c
    obtain ⟨ha, hw⟩ := (Memory.wf_cons a x m).1 h
    simp only [Memory.write]
    split_ifs with h1 h2
    · refine (Memory.wf_cons k b _).2 ⟨?_, h⟩
      simp only [List.mem_cons, forall_eq_or_imp]
      exact ⟨h1, fun c hc => lt_trans h1 (ha c hc)⟩
    · subst h2; exact (Memory.wf_cons _ _ _).2 ⟨ha, hw⟩
    · exact (Memory.wf_cons _ _ _).2 ⟨Memory.forall_write (p := fun i => a < i) m k b (by omega) ha, ih hw⟩

/-- Writing consecutive cells keeps the canonical form. -/
theorem Memory.writeBytes_wf (m : Memory) (k : Nat) (bs : List Byte) (h : m.wf = true) :
    (m.writeBytes k bs).wf = true := by
  induction bs generalizing m k with
  | nil => exact h
  | cons b bs ih => exact ih _ _ (Memory.write_wf m k b h)

/-- A buffer built from bytes lists only addresses from its first offset on. -/
theorem Memory.mem_ofBytes (k : Nat) (bs : List Byte) : ∀ c ∈ Memory.ofBytes k bs, k ≤ c.1 ∧ c.1 < k + bs.length := by
  induction bs generalizing k with
  | nil => simp [Memory.ofBytes]
  | cons b bs ih =>
    simp only [Memory.ofBytes, List.mem_cons, forall_eq_or_imp, List.length_cons]
    exact ⟨by omega, fun c hc => by have := ih (k + 1) c hc; omega⟩

/-- A buffer built from bytes is in canonical form. -/
theorem Memory.ofBytes_wf (k : Nat) (bs : List Byte) : (Memory.ofBytes k bs).wf = true := by
  induction bs generalizing k with
  | nil => rfl
  | cons b bs ih =>
    exact (Memory.wf_cons _ _ _).2 ⟨fun c hc => by have := Memory.mem_ofBytes (k + 1) bs c hc; omega, ih _⟩

/-- `within` says that every listed address is below the capacity. -/
theorem Memory.within_iff (m : Memory) (cap : Nat) : m.within cap = true ↔ ∀ c ∈ m, c.1 < cap := by
  simp [Memory.within]

/-- A write of an existing cell keeps the bound on the addresses. -/
theorem Memory.write_within (m : Memory) (k cap : Nat) (b : Byte) (hk : k < cap) (h : m.within cap = true) :
    (m.write k b).within cap = true :=
  (Memory.within_iff _ _).2 (Memory.forall_write (p := fun i => i < cap) m k b hk ((Memory.within_iff _ _).1 h))

/-- Writing consecutive existing cells keeps the bound on the addresses. -/
theorem Memory.writeBytes_within (m : Memory) (k cap : Nat) (bs : List Byte) (hk : k + bs.length ≤ cap)
    (h : m.within cap = true) : (m.writeBytes k bs).within cap = true := by
  induction bs generalizing m k with
  | nil => exact h
  | cons b bs ih =>
    simp only [List.length_cons] at hk
    exact ih _ _ (by omega) (Memory.write_within m k cap b (by omega) h)

/-- The reset buffers are in canonical form. -/
theorem Memory.reset_wf : State.reset.ibuf.wf = true ∧ State.reset.obuf.wf = true := ⟨rfl, rfl⟩

end Sys2Proof.Machine
end

