-- ==== Sys2Proof/Laws/State.lean ====
section
/-!
SUPPORT. One lemma per field of State and per update of it.
-/

-- Many small theorems: elaborate them one after another, not each on a thread of its own.
set_option Elab.async false

namespace Sys2Proof.Machine

@[simp] theorem State.succeed_cfg (s : State) (out : List Byte) : (s.succeed out).cfg = s.cfg := rfl
@[simp] theorem State.succeed_params (s : State) (out : List Byte) : (s.succeed out).params = s.params := rfl
@[simp] theorem State.succeed_cmd (s : State) (out : List Byte) : (s.succeed out).cmd = s.cmd := rfl
@[simp] theorem State.succeed_status (s : State) (out : List Byte) : (s.succeed out).status = statusDone := rfl
@[simp] theorem State.succeed_err (s : State) (out : List Byte) : (s.succeed out).err = codeNone := rfl
@[simp] theorem State.succeed_inLen (s : State) (out : List Byte) : (s.succeed out).inLen = s.inLen := rfl
@[simp] theorem State.succeed_outLen (s : State) (out : List Byte) : (s.succeed out).outLen = BitVec.ofNat 32 out.length := rfl
@[simp] theorem State.succeed_ibuf (s : State) (out : List Byte) : (s.succeed out).ibuf = s.ibuf := rfl
@[simp] theorem State.succeed_obuf (s : State) (out : List Byte) : (s.succeed out).obuf = Memory.ofBytes 0 out := rfl
@[simp] theorem State.succeed_host (s : State) (out : List Byte) : (s.succeed out).host = s.host := rfl
@[simp] theorem State.succeed_seen (s : State) (out : List Byte) : (s.succeed out).seen = s.seen := rfl
@[simp] theorem State.succeed_draws (s : State) (out : List Byte) : (s.succeed out).draws = s.draws := rfl

@[simp] theorem State.fail_cfg (s : State) (e : Err) : (s.fail e).cfg = s.cfg := rfl
@[simp] theorem State.fail_params (s : State) (e : Err) : (s.fail e).params = s.params := rfl
@[simp] theorem State.fail_cmd (s : State) (e : Err) : (s.fail e).cmd = s.cmd := rfl
@[simp] theorem State.fail_status (s : State) (e : Err) : (s.fail e).status = statusError := rfl
@[simp] theorem State.fail_err (s : State) (e : Err) : (s.fail e).err = e.code := rfl
@[simp] theorem State.fail_inLen (s : State) (e : Err) : (s.fail e).inLen = s.inLen := rfl
@[simp] theorem State.fail_outLen (s : State) (e : Err) : (s.fail e).outLen = 0#32 := rfl
@[simp] theorem State.fail_ibuf (s : State) (e : Err) : (s.fail e).ibuf = s.ibuf := rfl
@[simp] theorem State.fail_obuf (s : State) (e : Err) : (s.fail e).obuf = [] := rfl
@[simp] theorem State.fail_host (s : State) (e : Err) : (s.fail e).host = s.host := rfl
@[simp] theorem State.fail_seen (s : State) (e : Err) : (s.fail e).seen = s.seen := rfl
@[simp] theorem State.fail_draws (s : State) (e : Err) : (s.fail e).draws = s.draws := rfl

@[simp] theorem State.withCmd_cfg (s : State) (op : Byte) : (s.withCmd op).cfg = s.cfg := rfl
@[simp] theorem State.withCmd_params (s : State) (op : Byte) : (s.withCmd op).params = s.params := rfl
@[simp] theorem State.withCmd_cmd (s : State) (op : Byte) : (s.withCmd op).cmd = op := rfl
@[simp] theorem State.withCmd_status (s : State) (op : Byte) : (s.withCmd op).status = s.status := rfl
@[simp] theorem State.withCmd_err (s : State) (op : Byte) : (s.withCmd op).err = s.err := rfl
@[simp] theorem State.withCmd_inLen (s : State) (op : Byte) : (s.withCmd op).inLen = s.inLen := rfl
@[simp] theorem State.withCmd_outLen (s : State) (op : Byte) : (s.withCmd op).outLen = s.outLen := rfl
@[simp] theorem State.withCmd_ibuf (s : State) (op : Byte) : (s.withCmd op).ibuf = s.ibuf := rfl
@[simp] theorem State.withCmd_obuf (s : State) (op : Byte) : (s.withCmd op).obuf = s.obuf := rfl
@[simp] theorem State.withCmd_host (s : State) (op : Byte) : (s.withCmd op).host = s.host := rfl
@[simp] theorem State.withCmd_seen (s : State) (op : Byte) : (s.withCmd op).seen = s.seen := rfl
@[simp] theorem State.withCmd_draws (s : State) (op : Byte) : (s.withCmd op).draws = s.draws := rfl

@[simp] theorem State.withHost_cfg (s : State) (ops : List HostOp) : (s.withHost ops).cfg = s.cfg := rfl
@[simp] theorem State.withHost_params (s : State) (ops : List HostOp) : (s.withHost ops).params = s.params := rfl
@[simp] theorem State.withHost_cmd (s : State) (ops : List HostOp) : (s.withHost ops).cmd = s.cmd := rfl
@[simp] theorem State.withHost_status (s : State) (ops : List HostOp) : (s.withHost ops).status = s.status := rfl
@[simp] theorem State.withHost_err (s : State) (ops : List HostOp) : (s.withHost ops).err = s.err := rfl
@[simp] theorem State.withHost_inLen (s : State) (ops : List HostOp) : (s.withHost ops).inLen = s.inLen := rfl
@[simp] theorem State.withHost_outLen (s : State) (ops : List HostOp) : (s.withHost ops).outLen = s.outLen := rfl
@[simp] theorem State.withHost_ibuf (s : State) (ops : List HostOp) : (s.withHost ops).ibuf = s.ibuf := rfl
@[simp] theorem State.withHost_obuf (s : State) (ops : List HostOp) : (s.withHost ops).obuf = s.obuf := rfl
@[simp] theorem State.withHost_host (s : State) (ops : List HostOp) : (s.withHost ops).host = ops := rfl
@[simp] theorem State.withHost_seen (s : State) (ops : List HostOp) : (s.withHost ops).seen = s.seen := rfl
@[simp] theorem State.withHost_draws (s : State) (ops : List HostOp) : (s.withHost ops).draws = s.draws := rfl

@[simp] theorem State.record_cfg (s : State) (x : Seen) : (s.record x).cfg = s.cfg := rfl
@[simp] theorem State.record_params (s : State) (x : Seen) : (s.record x).params = s.params := rfl
@[simp] theorem State.record_cmd (s : State) (x : Seen) : (s.record x).cmd = s.cmd := rfl
@[simp] theorem State.record_status (s : State) (x : Seen) : (s.record x).status = s.status := rfl
@[simp] theorem State.record_err (s : State) (x : Seen) : (s.record x).err = s.err := rfl
@[simp] theorem State.record_inLen (s : State) (x : Seen) : (s.record x).inLen = s.inLen := rfl
@[simp] theorem State.record_outLen (s : State) (x : Seen) : (s.record x).outLen = s.outLen := rfl
@[simp] theorem State.record_ibuf (s : State) (x : Seen) : (s.record x).ibuf = s.ibuf := rfl
@[simp] theorem State.record_obuf (s : State) (x : Seen) : (s.record x).obuf = s.obuf := rfl
@[simp] theorem State.record_host (s : State) (x : Seen) : (s.record x).host = s.host := rfl
@[simp] theorem State.record_seen (s : State) (x : Seen) : (s.record x).seen = s.seen ++ [x] := rfl
@[simp] theorem State.record_draws (s : State) (x : Seen) : (s.record x).draws = s.draws := rfl

@[simp] theorem State.withDraws_cfg (s : State) (n : Nat) : (s.withDraws n).cfg = s.cfg := rfl
@[simp] theorem State.withDraws_params (s : State) (n : Nat) : (s.withDraws n).params = s.params := rfl
@[simp] theorem State.withDraws_cmd (s : State) (n : Nat) : (s.withDraws n).cmd = s.cmd := rfl
@[simp] theorem State.withDraws_status (s : State) (n : Nat) : (s.withDraws n).status = s.status := rfl
@[simp] theorem State.withDraws_err (s : State) (n : Nat) : (s.withDraws n).err = s.err := rfl
@[simp] theorem State.withDraws_inLen (s : State) (n : Nat) : (s.withDraws n).inLen = s.inLen := rfl
@[simp] theorem State.withDraws_outLen (s : State) (n : Nat) : (s.withDraws n).outLen = s.outLen := rfl
@[simp] theorem State.withDraws_ibuf (s : State) (n : Nat) : (s.withDraws n).ibuf = s.ibuf := rfl
@[simp] theorem State.withDraws_obuf (s : State) (n : Nat) : (s.withDraws n).obuf = s.obuf := rfl
@[simp] theorem State.withDraws_host (s : State) (n : Nat) : (s.withDraws n).host = s.host := rfl
@[simp] theorem State.withDraws_seen (s : State) (n : Nat) : (s.withDraws n).seen = s.seen := rfl
@[simp] theorem State.withDraws_draws (s : State) (n : Nat) : (s.withDraws n).draws = n := rfl

@[simp] theorem State.resetBlock_cfg (s : State) : (s.resetBlock).cfg = s.cfg := rfl
@[simp] theorem State.resetBlock_params (s : State) : (s.resetBlock).params = Params.reset := rfl
@[simp] theorem State.resetBlock_cmd (s : State) : (s.resetBlock).cmd = 0x00#8 := rfl
@[simp] theorem State.resetBlock_status (s : State) : (s.resetBlock).status = 0#2 := rfl
@[simp] theorem State.resetBlock_err (s : State) : (s.resetBlock).err = 0x00#8 := rfl
@[simp] theorem State.resetBlock_inLen (s : State) : (s.resetBlock).inLen = 0#32 := rfl
@[simp] theorem State.resetBlock_outLen (s : State) : (s.resetBlock).outLen = 0#32 := rfl
@[simp] theorem State.resetBlock_ibuf (s : State) : (s.resetBlock).ibuf = [] := rfl
@[simp] theorem State.resetBlock_obuf (s : State) : (s.resetBlock).obuf = [] := rfl
@[simp] theorem State.resetBlock_host (s : State) : (s.resetBlock).host = s.host := rfl
@[simp] theorem State.resetBlock_seen (s : State) : (s.resetBlock).seen = s.seen := rfl
@[simp] theorem State.resetBlock_draws (s : State) : (s.resetBlock).draws = s.draws := rfl

/-- A host write to a register other than `IN_LEN` and the parameter registers changes nothing (10_state.md R24). -/
theorem State.writeReg_ignored (s : State) (n : Nat) (v : Word) (h : n ≤ 2 ∨ n = 4 ∨ 14 ≤ n) : s.writeReg n v = s := by
  unfold State.writeReg
  split <;> first | rfl | omega

@[simp] theorem State.writeReg_cfg (s : State) (n : Nat) (v : Word) : (s.writeReg n v).cfg = s.cfg := by
  unfold State.writeReg; split <;> rfl
@[simp] theorem State.writeReg_cmd (s : State) (n : Nat) (v : Word) : (s.writeReg n v).cmd = s.cmd := by
  unfold State.writeReg; split <;> rfl
@[simp] theorem State.writeReg_status (s : State) (n : Nat) (v : Word) : (s.writeReg n v).status = s.status := by
  unfold State.writeReg; split <;> rfl
@[simp] theorem State.writeReg_err (s : State) (n : Nat) (v : Word) : (s.writeReg n v).err = s.err := by
  unfold State.writeReg; split <;> rfl
@[simp] theorem State.writeReg_outLen (s : State) (n : Nat) (v : Word) : (s.writeReg n v).outLen = s.outLen := by
  unfold State.writeReg; split <;> rfl
@[simp] theorem State.writeReg_ibuf (s : State) (n : Nat) (v : Word) : (s.writeReg n v).ibuf = s.ibuf := by
  unfold State.writeReg; split <;> rfl
@[simp] theorem State.writeReg_obuf (s : State) (n : Nat) (v : Word) : (s.writeReg n v).obuf = s.obuf := by
  unfold State.writeReg; split <;> rfl
@[simp] theorem State.writeReg_host (s : State) (n : Nat) (v : Word) : (s.writeReg n v).host = s.host := by
  unfold State.writeReg; split <;> rfl
@[simp] theorem State.writeReg_seen (s : State) (n : Nat) (v : Word) : (s.writeReg n v).seen = s.seen := by
  unfold State.writeReg; split <;> rfl
@[simp] theorem State.writeReg_draws (s : State) (n : Nat) (v : Word) : (s.writeReg n v).draws = s.draws := by
  unfold State.writeReg; split <;> rfl

end Sys2Proof.Machine
end

