-- ==== Sys2Proof/Laws/Command.lean ====
section
/-!
SUPPORT. What a command can do, said once: the operands, the four ways a command ends, and what the words of Safety.lean
come to for each.
-/

namespace Sys2Proof.Machine

/-- The input operand is `x` exactly when the host has loaded `x`. -/
theorem inputOperand_eq_some (s : State) (x : List Byte) : inputOperand s = some x ↔ s.inputIs x := by
  unfold inputOperand State.inputIs
  by_cases h : s.inLen.toNat > s.cfg.ibufCap.val
  · simp only [h, if_true]
    constructor
    · intro h'; cases h'
    · rintro ⟨h1, h2, -⟩; omega
  · simp only [h, if_false, Memory.readBytes_eq_some, Nat.zero_add]
    constructor
    · rintro ⟨h1, h2⟩; exact ⟨h1.symm, by omega, fun k hk => h2 k (by omega)⟩
    · rintro ⟨h1, -, h2⟩; exact ⟨h1.symm, fun k hk => h2 k (by omega)⟩

/-- There is no input operand exactly in the two input cases of 60_exceptions.md R283. -/
theorem inputOperand_eq_none (s : State) :
    inputOperand s = none ↔
      s.inLen.toNat > s.cfg.ibufCap.val ∨ ∃ k, k < s.inLen.toNat ∧ s.ibuf.read k = none := by
  unfold inputOperand
  by_cases h : s.inLen.toNat > s.cfg.ibufCap.val
  · simp [h]
  · simp [h, Memory.readBytes_eq_none]

/-- A command without its input or its parameters fails with `E_PARAM`. -/
theorem command_param {P : Type} (operand : Option P) (unit : P → List Byte → Except Err (List Byte)) (s : State)
    (h : inputOperand s = none ∨ operand = none) : command operand unit s = .next (s.fail .param) := by
  unfold command
  rcases h with h | h
  · simp [h]
  · subst h; cases inputOperand s <;> rfl

/-- A command on the empty input succeeds with the empty output. -/
theorem command_empty {P : Type} (p : P) (unit : P → List Byte → Except Err (List Byte)) (s : State)
    (h : inputOperand s = some []) : command (some p) unit s = .next (s.succeed []) := by
  simp [command, h]

/-- A command on a non-empty input ends as its unit's function says. -/
theorem command_conclude {P : Type} (p : P) (unit : P → List Byte → Except Err (List Byte)) (s : State)
    (x : List Byte) (h : inputOperand s = some x) (hx : x ≠ []) :
    command (some p) unit s = .next (s.conclude (unit p x)) := by
  simp [command, h, hx]

/-- Everything a command can answer. -/
theorem command_cases {P : Type} (operand : Option P) (unit : P → List Byte → Except Err (List Byte)) (s : State) :
    (command operand unit s = .next (s.fail .param) ∧ (inputOperand s = none ∨ operand = none)) ∨
    (∃ p, operand = some p ∧ inputOperand s = some [] ∧ command operand unit s = .next (s.succeed [])) ∨
    (∃ p x, operand = some p ∧ inputOperand s = some x ∧ x ≠ [] ∧
      command operand unit s = .next (s.conclude (unit p x))) := by
  cases hi : inputOperand s with
  | none => exact .inl ⟨command_param _ _ _ (.inl hi), .inl rfl⟩
  | some x =>
    cases operand with
    | none => exact .inl ⟨command_param _ _ _ (.inr rfl), .inr rfl⟩
    | some p =>
      by_cases hx : x = []
      · subst hx; exact .inr (.inl ⟨p, rfl, rfl, command_empty p unit s hi⟩)
      · exact .inr (.inr ⟨p, x, rfl, rfl, hx, command_conclude p unit s x hi hx⟩)

/-- Everything the end of a command can leave: an output that fits, or one error. -/
theorem State.conclude_cases (s : State) (r : Except Err (List Byte)) :
    (∃ out, r = .ok out ∧ out.length ≤ s.cfg.obufCap.val ∧ s.conclude r = s.succeed out) ∨
    (∃ out, r = .ok out ∧ s.cfg.obufCap.val < out.length ∧ s.conclude r = s.fail .capacity) ∨
    (∃ e, r = .error e ∧ s.conclude r = s.fail e) := by
  cases r with
  | error e => exact .inr (.inr ⟨e, rfl, rfl⟩)
  | ok out =>
    by_cases h : out.length > s.cfg.obufCap.val
    · exact .inr (.inl ⟨out, rfl, h, by simp [State.conclude, h]⟩)
    · exact .inl ⟨out, rfl, by omega, by simp [State.conclude, h]⟩

/-- Every command answers a next state: success with an output that fits, or one error. -/
theorem command_next {P : Type} (operand : Option P) (unit : P → List Byte → Except Err (List Byte)) (s : State) :
    (∃ out, out.length ≤ s.cfg.obufCap.val ∧ command operand unit s = .next (s.succeed out)) ∨
    (∃ e, command operand unit s = .next (s.fail e)) := by
  rcases command_cases operand unit s with ⟨h, -⟩ | ⟨p, -, -, h⟩ | ⟨p, x, -, -, -, h⟩
  · exact .inr ⟨_, h⟩
  · exact .inl ⟨[], by simp, h⟩
  · rcases s.conclude_cases (unit p x) with ⟨out, -, ho, hc⟩ | ⟨out, -, -, hc⟩ | ⟨e, -, hc⟩
    · exact .inl ⟨out, ho, by rw [h, hc]⟩
    · exact .inr ⟨_, by rw [h, hc]⟩
    · exact .inr ⟨_, by rw [h, hc]⟩

theorem State.succeed_sameInputSide (s : State) (out : List Byte) : s.sameInputSide (s.succeed out) := by
  simp [State.sameInputSide]

theorem State.fail_sameInputSide (s : State) (e : Err) : s.sameInputSide (s.fail e) := by
  simp [State.sameInputSide]

/-- What `succeed` leaves, in the words of the claims. -/
theorem State.succeed_doneWith (s : State) (out : List Byte) (h : out.length < 2 ^ 32) :
    (s.succeed out).doneWith out := by
  refine ⟨rfl, rfl, ?_, fun k => by simp⟩
  simp only [State.succeed_outLen, BitVec.toNat_ofNat]
  exact Nat.mod_eq_of_lt h

/-- What `fail` leaves, in the words of the claims. -/
theorem State.fail_failedWith (s : State) (e : Err) : (s.fail e).failedWith e.code :=
  ⟨rfl, rfl, rfl, fun _ => rfl⟩

/-- A command that answers `succeed` of an output that fits completes with it. -/
theorem Completes.of_exec {i : Instr} {s : State} {y : List Byte} (h : exec i s = .next (s.succeed y))
    (hy : y.length ≤ s.cfg.obufCap.val) : Completes i s y :=
  ⟨_, h, s.succeed_doneWith y (lt_of_le_of_lt hy s.cfg.obufCap.isLt), s.succeed_sameInputSide y⟩

/-- A command that answers `fail` fails with its code. -/
theorem FailsWith.of_exec {i : Instr} {s : State} {e : Err} (h : exec i s = .next (s.fail e)) : FailsWith i s e.code :=
  ⟨_, h, s.fail_failedWith e, s.fail_sameInputSide e⟩

/-- A command that answers `conclude r` ends as `r` says. -/
theorem Concludes.of_exec {i : Instr} {s : State} {r : Except Err (List Byte)} (h : exec i s = .next (s.conclude r)) :
    Concludes i s r := by
  rcases s.conclude_cases r with ⟨out, rfl, ho, hc⟩ | ⟨out, rfl, ho, hc⟩ | ⟨e, rfl, hc⟩
  · simp only [Concludes, ho, if_true]; exact .of_exec (by rw [h, hc]) ho
  · simp only [Concludes, Nat.not_le.2 ho, if_false]; exact FailsWith.of_exec (e := .capacity) (by rw [h, hc])
  · exact FailsWith.of_exec (by rw [h, hc])

/-- Two outputs of one completed command are the same. -/
theorem Completes.unique {i : Instr} {s : State} {y z : List Byte} (hy : Completes i s y) (hz : Completes i s z) :
    y = z := by
  obtain ⟨t, ht, ⟨-, -, -, hy⟩, -⟩ := hy
  obtain ⟨u, hu, ⟨-, -, -, hz⟩, -⟩ := hz
  rw [ht] at hu
  cases hu
  exact List.ext_getElem? fun k => by rw [← hy, ← hz]

end Sys2Proof.Machine
end

