-- ==== Sys2Proof/Laws/Fields.lean ====
section
/-!
SUPPORT. The big-endian fields and the bits of a byte: a field read back is the value written, and the bits of a packed
byte are those packed.
-/

namespace Sys2Proof.Machine

@[simp] theorem byteOf_toNat (b : Byte) : byteOf b.toNat = b := by simp [byteOf]

theorem byteOf_toNat_of_lt {n : Nat} (h : n < 256) : (byteOf n).toNat = n := by
  simp only [byteOf, BitVec.toNat_ofNat]; exact Nat.mod_eq_of_lt h

@[simp] theorem be16_length (v : Nat) : (be16 v).length = 2 := rfl

@[simp] theorem be32_length (v : Nat) : (be32 v).length = 4 := rfl

/-- `rd16` reads back what `be16` wrote. -/
theorem rd16_be16 (v : Nat) (h : v < 2 ^ 16) : rd16 (byteOf (v / 256)) (byteOf v) = v := by
  simp only [rd16, byteOf, BitVec.toNat_ofNat]; omega

/-- `rd32` reads back what `be32` wrote. -/
theorem rd32_be32 (v : Nat) (h : v < 2 ^ 32) :
    rd32 (byteOf (v / 16777216)) (byteOf (v / 65536)) (byteOf (v / 256)) (byteOf v) = v := by
  simp only [rd32, byteOf, BitVec.toNat_ofNat]; omega

theorem rd16_lt (a b : Byte) : rd16 a b < 2 ^ 16 := by
  have := a.isLt; have := b.isLt; simp only [rd16]; omega

theorem rd32_lt (a b c d : Byte) : rd32 a b c d < 2 ^ 32 := by
  have := a.isLt; have := b.isLt; have := c.isLt; have := d.isLt; simp only [rd32]; omega

@[simp] theorem bitsOfByte_length (b : Byte) : (bitsOfByte b).length = 8 := rfl

/-- The bits of a packed byte are the bits packed. -/
theorem bitsOfByte_byteOfBits (b7 b6 b5 b4 b3 b2 b1 b0 : Bool) :
    bitsOfByte (byteOfBits [b7, b6, b5, b4, b3, b2, b1, b0]) = [b7, b6, b5, b4, b3, b2, b1, b0] := by
  revert b7 b6 b5 b4 b3 b2 b1 b0; decide

/-- The pad fills the last byte and is below 8. -/
theorem padBits_spec (n : Nat) : padBits n < 8 ∧ (n + padBits n) % 8 = 0 := by
  unfold padBits; omega

/-- Unpacking a whole number of bytes gives the bits back. -/
theorem unpack_packWhole : ∀ (n : Nat) (bits : List Bool), bits.length = 8 * n →
    (packWhole bits).flatMap bitsOfByte = bits ∧ (packWhole bits).length = n
  | 0, bits, h => by
    have : bits = [] := List.eq_nil_of_length_eq_zero (by omega)
    subst this; exact ⟨rfl, rfl⟩
  | n + 1, bits, h => by
    match bits, h with
    | b7 :: b6 :: b5 :: b4 :: b3 :: b2 :: b1 :: b0 :: rest, h =>
      obtain ⟨h1, h2⟩ := unpack_packWhole n rest (by simp only [List.length_cons] at h; omega)
      refine ⟨?_, by simp [packWhole, h2]⟩
      simp only [packWhole, List.flatMap_cons, h1, bitsOfByte_byteOfBits]
      rfl

/-- The bits of a packed string are the string and its pad (44_huffman.md R178, R182). -/
theorem unpack_pack (bits : List Bool) :
    (pack bits).flatMap bitsOfByte = bits ++ List.replicate (padBits bits.length) false ∧
      8 * (pack bits).length = bits.length + padBits bits.length := by
  have hp := padBits_spec bits.length
  obtain ⟨n, hn⟩ : ∃ n, bits.length + padBits bits.length = 8 * n := ⟨_, (Nat.mul_div_cancel' (by omega)).symm⟩
  have h := unpack_packWhole n (bits ++ List.replicate (padBits bits.length) false) (by simp; omega)
  exact ⟨h.1, by unfold pack; rw [h.2, hn]⟩

end Sys2Proof.Machine
end

