-- ==== Sys2Proof/Laws/PerInstr.lean ====
section
/-!
SUPPORT. Family Opcode: the two fields of a command's opcode are those of 30_encoding.md R70, a family 1 to 8 and a
function 0 to 2, and the opcode is well formed and decodes to the command.
-/

namespace Sys2Proof.Laws.Opcode

/-- The opcode of a command is made of a legal family and a legal function, and decodes to the command. -/
def Statement (i : Instr) : Prop :=
  i.wf = true ∧ 1 ≤ opFamily (opcode i) ∧ opFamily (opcode i) ≤ 8 ∧ opFunction (opcode i) ≤ 2 ∧
    (opcode i).toNat = 16 * opFamily (opcode i) + opFunction (opcode i) ∧ decodeOp (opcode i) = .ok i

theorem rlecEnc : Statement .rlecEnc := ⟨rfl, by decide, by decide, by decide, by decide, rfl⟩
theorem rlecDec : Statement .rlecDec := ⟨rfl, by decide, by decide, by decide, by decide, rfl⟩
theorem rlepEnc : Statement .rlepEnc := ⟨rfl, by decide, by decide, by decide, by decide, rfl⟩
theorem rlepDec : Statement .rlepDec := ⟨rfl, by decide, by decide, by decide, by decide, rfl⟩
theorem mtfEnc : Statement .mtfEnc := ⟨rfl, by decide, by decide, by decide, by decide, rfl⟩
theorem mtfDec : Statement .mtfDec := ⟨rfl, by decide, by decide, by decide, by decide, rfl⟩
theorem bwtEnc : Statement .bwtEnc := ⟨rfl, by decide, by decide, by decide, by decide, rfl⟩
theorem bwtDec : Statement .bwtDec := ⟨rfl, by decide, by decide, by decide, by decide, rfl⟩
theorem hufEnc : Statement .hufEnc := ⟨rfl, by decide, by decide, by decide, by decide, rfl⟩
theorem hufDec : Statement .hufDec := ⟨rfl, by decide, by decide, by decide, by decide, rfl⟩
theorem hufBuild : Statement .hufBuild := ⟨rfl, by decide, by decide, by decide, by decide, rfl⟩
theorem lz77Enc : Statement .lz77Enc := ⟨rfl, by decide, by decide, by decide, by decide, rfl⟩
theorem lz77Dec : Statement .lz77Dec := ⟨rfl, by decide, by decide, by decide, by decide, rfl⟩
theorem lzssEnc : Statement .lzssEnc := ⟨rfl, by decide, by decide, by decide, by decide, rfl⟩
theorem lz78Enc : Statement .lz78Enc := ⟨rfl, by decide, by decide, by decide, by decide, rfl⟩
theorem lz78Dec : Statement .lz78Dec := ⟨rfl, by decide, by decide, by decide, by decide, rfl⟩

end Sys2Proof.Laws.Opcode
end

