-- ==== Sys2Proof/Laws/Step.lean ====
section
/-!
SUPPORT. What a step can do, said once: a command, the issue of an opcode, each host operation, and the step over them.
-/

namespace Sys2Proof.Machine

/-- Every command succeeds with an output that fits or fails with one error; it never stops the machine. -/
theorem exec_next (i : Instr) (s : State) :
    (∃ out, out.length ≤ s.cfg.obufCap.val ∧ exec i s = .next (s.succeed out)) ∨
    (∃ e, exec i s = .next (s.fail e)) := by
  cases i <;> exact command_next _ _ s

/-- The issue of an opcode stores it in `CMD` and then succeeds or fails. -/
theorem issue_next (op : Byte) (s : State) :
    (∃ out, out.length ≤ s.cfg.obufCap.val ∧ issue op s = .next ((s.withCmd op).succeed out)) ∨
    (∃ e, issue op s = .next ((s.withCmd op).fail e)) := by
  unfold issue
  split
  · exact .inr ⟨_, rfl⟩
  · exact exec_next _ (s.withCmd op)

/-- An opcode that decodes is issued as its command. -/
theorem issue_of_decode {op : Byte} {i : Instr} (h : decodeOp op = .ok i) (s : State) :
    issue op s = exec i (s.withCmd op) := by
  simp [issue, h]

/-- Everything a `LOAD` can answer. -/
theorem hostLoad_cases (x : List Byte) (s : State) :
    (x.length ≤ s.cfg.ibufCap.val ∧ hostLoad x s =
      .next { s with ibuf := s.ibuf.writeBytes 0 x, inLen := BitVec.ofNat 32 x.length }) ∨
    (s.cfg.ibufCap.val < x.length ∧ hostLoad x s = .fault (.noSuchIbufCell s.cfg.ibufCap.val)) := by
  unfold hostLoad
  by_cases h : x.length > s.cfg.ibufCap.val
  · exact .inr ⟨h, by simp [h]⟩
  · exact .inl ⟨by omega, by simp [h]⟩

/-- Everything a `SET` can answer. -/
theorem hostSet_cases (n : Nat) (v : Word) (s : State) :
    (n = 0 ∧ v.toNat ≤ 255 ∧ hostSet n v s = issue (v.setWidth 8) s) ∨
    (n = 0 ∧ 255 < v.toNat ∧ hostSet n v s = .refused (.cmdValueTooWide v)) ∨
    (n ≠ 0 ∧ hostSet n v s = .next (s.writeReg n v)) := by
  unfold hostSet
  by_cases h : n = 0
  · by_cases h' : v.toNat ≤ 255
    · exact .inl ⟨h, h', by simp [h, h']⟩
    · exact .inr (.inl ⟨h, by omega, by simp [h, h']⟩)
  · exact .inr (.inr ⟨h, by simp [h]⟩)

/-- Everything a write of a cell of `IBUF` can answer. -/
theorem hostWriteIbuf_cases (k : Nat) (b : Byte) (s : State) :
    (k < s.cfg.ibufCap.val ∧ hostWriteIbuf k b s = .next { s with ibuf := s.ibuf.write k b }) ∨
    (s.cfg.ibufCap.val ≤ k ∧ hostWriteIbuf k b s = .fault (.noSuchIbufCell k)) := by
  unfold hostWriteIbuf
  by_cases h : k ≥ s.cfg.ibufCap.val
  · exact .inr ⟨h, by simp [h]⟩
  · exact .inl ⟨by omega, by simp [h]⟩

/-- A draw for a place that holds a value. -/
@[simp] theorem drawWord_some (draws : Nat) (v : Word) : drawWord draws (some v) = (v, draws) := rfl

/-- A draw for a place that holds no value. -/
@[simp] theorem drawWord_none (draws : Nat) : drawWord draws none = (Config.freeWord draws, draws + 1) := rfl

/-- A draw for a cell that holds a byte. -/
@[simp] theorem drawByte_some (draws : Nat) (b : Byte) : drawByte draws (some b) = (b, draws) := rfl

/-- A draw for a cell that holds none. -/
@[simp] theorem drawByte_none (draws : Nat) : drawByte draws none = (Config.freeByte draws, draws + 1) := rfl

/-- A read or a comparison that does not stop changes at most the record and the count of free values. -/
theorem withDraws_record (s : State) (n : Nat) (x : Seen) :
    (s.withDraws n).record x = { s with draws := n, seen := s.seen ++ [x] } := rfl

/-- A read of a cell of `OBUF` stops exactly beyond its capacity. -/
theorem hostReadObuf_cases (k : Nat) (s : State) :
    (k < s.cfg.obufCap.val ∧ hostReadObuf k s = .next ((s.withDraws (drawByte s.draws (s.obuf.read k)).2).record
      (.obuf k (drawByte s.draws (s.obuf.read k)).1))) ∨
    (s.cfg.obufCap.val ≤ k ∧ hostReadObuf k s = .fault (.noSuchObufCell k)) := by
  unfold hostReadObuf
  by_cases h : k ≥ s.cfg.obufCap.val
  · exact .inr ⟨h, by simp [h]⟩
  · exact .inl ⟨by omega, by simp [h]⟩

/-- A read of a cell of `IBUF` stops exactly beyond its capacity. -/
theorem hostReadIbuf_cases (k : Nat) (s : State) :
    (k < s.cfg.ibufCap.val ∧ hostReadIbuf k s = .next ((s.withDraws (drawByte s.draws (s.ibuf.read k)).2).record
      (.ibuf k (drawByte s.draws (s.ibuf.read k)).1))) ∨
    (s.cfg.ibufCap.val ≤ k ∧ hostReadIbuf k s = .fault (.noSuchIbufCell k)) := by
  unfold hostReadIbuf
  by_cases h : k ≥ s.cfg.ibufCap.val
  · exact .inr ⟨h, by simp [h]⟩
  · exact .inl ⟨by omega, by simp [h]⟩

/-- A step with an operation left performs it on the state without it. -/
theorem step_cons {s : State} {op : HostOp} {rest : List HostOp} (h : s.host = op :: rest) :
    step s = perform op (s.withHost rest) := by
  simp [step, sequence, h]

/-- A step with none left changes nothing. -/
theorem step_nil {s : State} (h : s.host = []) : step s = .next s := by
  simp [step, sequence, h]

/-- A placed command is the next step's operation. -/
theorem step_withFetchWord (s : State) (nbits w : Nat) :
    step (s.withFetchWord nbits w) = issue (tableOpcode nbits w) s := rfl

end Sys2Proof.Machine
end

