-- ==== Sys2Proof/Tests/Slice0.lean ====
section
/-!
SUPPORT. The model's own tests: ill-formed terms refused, opcodes written out in bits, the spec's examples run for one
step (expected bytes from the rules cited), and for every obligation with hypotheses a state and operands that meet them.
-/

-- Many small theorems: elaborate them one after another, not each on a thread of its own.
set_option Elab.async false

namespace Sys2Proof.Tests

open Sys2Proof Sys2Proof.Machine

/-! ## Helpers -/

/-- Bytes from numbers. -/
def bytes (l : List Nat) : List Byte := l.map byteOf

/-- The state after reset of a block with these capacities, with these parameters and this input loaded. -/
def given (c : Config) (p : Params) (x : List Byte) : State :=
  { State.reset with cfg := c, params := p, ibuf := Memory.ofBytes 0 x, inLen := BitVec.ofNat 32 x.length }

/-- The same with every capacity at its largest and the reset parameters. -/
def loaded (x : List Byte) : State := given Config.widest Params.reset x

/-- Capacities. -/
def caps (i o d : Fin (2 ^ 32)) : Config := { ibufCap := i, obufCap := o, dictCap := d }

/-- The parameters with windows and lookaheads written. -/
def windows (w la : Word) : Params :=
  { Params.reset with
    lz77Window := some w, lz77Lookahead := some la, lzssWindow := some w, lzssLookahead := some la }

/-- The state after reset with host operations to perform. -/
def hosted (ops : List HostOp) : State := { State.reset with host := ops }

/-- The next state of an outcome, if it is one. -/
def nextState : Host.Outcome State Fault Refusal → Option State
  | .next t => some t
  | .fault _ => none
  | .refused _ => none

/-- `STATUS`, `ERR`, `OUT_LEN` and `OBUF` of the next state. -/
def result (r : Host.Outcome State Fault Refusal) : Option (BitVec 2 × BitVec 8 × Nat × Memory) :=
  (nextState r).map fun t => (t.status, t.err, t.outLen.toNat, t.obuf)

/-- Success with these bytes. -/
def good (l : List Nat) : Option (BitVec 2 × BitVec 8 × Nat × Memory) :=
  some (1#2, 0x00#8, l.length, Memory.ofBytes 0 (bytes l))

/-- Failure with this code. -/
def bad (code : BitVec 8) : Option (BitVec 2 × BitVec 8 × Nat × Memory) := some (2#2, code, 0, [])

theorem given_inputIs (c : Config) (p : Params) (x : List Byte) (h : x.length ≤ c.ibufCap.val) :
    (given c p x).inputIs x :=
  ⟨by
    have := c.ibufCap.isLt
    simp only [given, BitVec.toNat_ofNat]
    exact Nat.mod_eq_of_lt (by omega), h, fun k _ => Memory.read_ofBytes_zero k x⟩

theorem loaded_inputIs (x : List Byte) (h : x.length ≤ 4294967295) : (loaded x).inputIs x :=
  given_inputIs _ _ x h

/-! ## Ill-formed terms are refused -/

theorem test_wf_instr : ∀ i : Instr, i.wf = true := fun _ => rfl

theorem test_wf_config_zero_ibuf : (caps 0 1 1).wf = false := by decide
theorem test_wf_config_zero_obuf : (caps 1 0 1).wf = false := by decide
theorem test_wf_config_zero_dict : (caps 1 1 0).wf = false := by decide
theorem test_wf_hostop_no_register : HostOp.wf Config.widest (.set 14 0#32) = false := by decide
theorem test_wf_hostop_wide_cmd : HostOp.wf Config.widest (.set 0 256#32) = false := by decide
theorem test_wf_hostop_read_register : HostOp.wf Config.widest (.readReg 14) = false := by decide
theorem test_wf_hostop_expect_register : HostOp.wf Config.widest (.expectReg 14 0#32) = false := by decide
theorem test_wf_hostop_write_cell : HostOp.wf (caps 2 2 2) (.writeIbuf 2 0#8) = false := by decide
theorem test_wf_hostop_write_obuf : HostOp.wf (caps 2 2 2) (.writeObuf 2 0#8) = false := by decide
theorem test_wf_hostop_read_ibuf : HostOp.wf (caps 2 2 2) (.readIbuf 2) = false := by decide
theorem test_wf_hostop_read_obuf : HostOp.wf (caps 2 2 2) (.readObuf 2) = false := by decide
theorem test_wf_hostop_load : HostOp.wf (caps 2 2 2) (.load [1#8, 2#8, 3#8]) = false := by decide
theorem test_wf_hostop_expect_obuf : HostOp.wf (caps 2 2 2) (.expectObuf [1#8, 2#8, 3#8]) = false := by decide
theorem test_wf_rlec_run : RlecToken.wf (.run 128 0#8) = false := by decide
theorem test_wf_rlec_lit : RlecToken.wf (.lit (List.replicate 128 0#8)) = false := by decide +kernel
theorem test_wf_rlep : RlepPair.wf { count := 256, value := 0#8 } = false := by decide
theorem test_wf_bwt_empty : BwtRecord.wf { primary := 0, last := [] } = false := by decide
theorem test_wf_bwt_index : BwtRecord.wf { primary := 1, last := [0#8] } = false := by decide
theorem test_wf_huf_no_entry : HufEntry.tableWf [] = false := by decide
theorem test_wf_huf_257 : HufEntry.tableWf (List.replicate 257 { sym := 0#8, freq := 1 }) = false := by decide +kernel
theorem test_wf_huf_symbol_twice :
    HufEntry.tableWf [{ sym := 1#8, freq := 1 }, { sym := 1#8, freq := 2 }] = false := by decide
theorem test_wf_huf_freq_zero : HufEntry.tableWf [{ sym := 1#8, freq := 0 }] = false := by decide
theorem test_wf_huf_freq_wide : HufEntry.tableWf [{ sym := 1#8, freq := 2 ^ 32 }] = false := by decide
theorem test_wf_huf_code_empty : HufCode.wf { sym := 0#8, bits := [] } = false := by decide
theorem test_wf_huf_code_long : HufCode.wf { sym := 0#8, bits := List.replicate 256 true } = false := by decide +kernel
theorem test_wf_lz77_full : Lz77Token.wf (.full (2 ^ 16) 0 0#8) = false := by decide
theorem test_wf_lz77_final : Lz77Token.wf (.final 0 (2 ^ 16)) = false := by decide
theorem test_wf_lzss : LzssToken.wf (.copy (2 ^ 32) 1) = false := by decide
theorem test_wf_lz78_full : Lz78Token.wf (.full (2 ^ 32) 0#8) = false := by decide
theorem test_wf_lz78_final : Lz78Token.wf (.final (2 ^ 32)) = false := by decide

/-! ## Opcodes written out in bits: family (bits 7:4), function (bits 3:0), 30_encoding.md R70, R71 -/

theorem test_decode_rlec_enc : decodeOp 0b0001_0000#8 = .ok .rlecEnc := rfl
theorem test_decode_rlec_dec : decodeOp 0b0001_0001#8 = .ok .rlecDec := rfl
theorem test_decode_rlep_enc : decodeOp 0b0010_0000#8 = .ok .rlepEnc := rfl
theorem test_decode_rlep_dec : decodeOp 0b0010_0001#8 = .ok .rlepDec := rfl
theorem test_decode_mtf_enc : decodeOp 0b0011_0000#8 = .ok .mtfEnc := rfl
theorem test_decode_mtf_dec : decodeOp 0b0011_0001#8 = .ok .mtfDec := rfl
theorem test_decode_bwt_enc : decodeOp 0b0100_0000#8 = .ok .bwtEnc := rfl
theorem test_decode_bwt_dec : decodeOp 0b0100_0001#8 = .ok .bwtDec := rfl
theorem test_decode_huf_enc : decodeOp 0b0101_0000#8 = .ok .hufEnc := rfl
theorem test_decode_huf_dec : decodeOp 0b0101_0001#8 = .ok .hufDec := rfl
theorem test_decode_huf_build : decodeOp 0b0101_0010#8 = .ok .hufBuild := rfl
theorem test_decode_lz77_enc : decodeOp 0b0110_0000#8 = .ok .lz77Enc := rfl
theorem test_decode_lz77_dec : decodeOp 0b0110_0001#8 = .ok .lz77Dec := rfl
theorem test_decode_lzss_enc : decodeOp 0b0111_0000#8 = .ok .lzssEnc := rfl
theorem test_decode_lz78_enc : decodeOp 0b1000_0000#8 = .ok .lz78Enc := rfl
theorem test_decode_lz78_dec : decodeOp 0b1000_0001#8 = .ok .lz78Dec := rfl
/-- 30_encoding.md R73: "In particular `0x71` is illegal". -/
theorem test_decode_71_illegal : decodeOp 0x71#8 = .error (.illegalCommand 0x71#8) := rfl
theorem test_decode_no_byte : decodeBytes [] = .error .noByte := rfl
theorem test_decode_table_word : decodeTableWord 8 0x52 = some .hufBuild ∧ decodeTableWord 8 0x53 = none := by decide

/-! ## One command on the spec's examples -/

/-- 40_rle_control.md R103, "AAAABBBCCD". -/
theorem test_rlec_enc : result (exec .rlecEnc (loaded (bytes
    [0x41, 0x41, 0x41, 0x41, 0x42, 0x42, 0x42, 0x43, 0x43, 0x44]))) =
    good [0x04, 0x41, 0x03, 0x42, 0x02, 0x43, 0x81, 0x44] := by decide
/-- 40_rle_control.md R106: 128 bytes `A` with `m = 2`. -/
theorem test_rlec_enc_128 : rlecEnc 2 (List.replicate 128 0x41#8) = bytes [0x7F, 0x41, 0x81, 0x41] := by decide +kernel
/-- 40_rle_control.md R107. -/
theorem test_rlec_dec : result (exec .rlecDec (loaded (bytes [0x04, 0x41, 0x81, 0x44]))) =
    good [0x41, 0x41, 0x41, 0x41, 0x44] := by decide
/-- 40_rle_control.md R108: `02 41 05` fails at its second token. -/
theorem test_rlec_dec_no_value : result (exec .rlecDec (loaded (bytes [0x02, 0x41, 0x05]))) = bad 0x11#8 := by decide
/-- 41_rle_pair.md R121. -/
theorem test_rlep_enc : result (exec .rlepEnc (loaded (bytes
    [0x41, 0x41, 0x41, 0x41, 0x42, 0x42, 0x42, 0x43, 0x43, 0x44]))) =
    good [0x04, 0x41, 0x03, 0x42, 0x02, 0x43, 0x01, 0x44] := by decide
/-- 41_rle_pair.md R124. -/
theorem test_rlep_dec : result (exec .rlepDec (loaded (bytes [0x03, 0x41, 0x00, 0x42, 0x01, 0x43]))) =
    good [0x41, 0x41, 0x41, 0x43] := by decide
/-- 41_rle_pair.md R125. -/
theorem test_rlep_dec_odd : result (exec .rlepDec (loaded (bytes [0x03, 0x41, 0x02]))) = bad 0x12#8 := by decide
/-- 42_mtf.md R132, "banana". -/
theorem test_mtf_enc : result (exec .mtfEnc (loaded (bytes [0x62, 0x61, 0x6E, 0x61, 0x6E, 0x61]))) =
    good [0x62, 0x62, 0x6E, 0x01, 0x01, 0x01] := by decide +kernel
/-- 42_mtf.md R133: `A = 4`, the byte 4. -/
theorem test_mtf_enc_range :
    result (exec .mtfEnc (given Config.widest { Params.reset with mtfAlpha := 4#32 } (bytes [0x04]))) = bad 0x13#8 := by
  decide
/-- 42_mtf.md R135. -/
theorem test_mtf_dec : result (exec .mtfDec (loaded (bytes [0x62, 0x62, 0x6E, 0x01, 0x01, 0x01]))) =
    good [0x62, 0x61, 0x6E, 0x61, 0x6E, 0x61] := by decide +kernel
/-- 42_mtf.md R139: `A > 256` fails also on the empty input. -/
theorem test_mtf_dec_param :
    result (exec .mtfDec (given Config.widest { Params.reset with mtfAlpha := 257#32 } [])) = bad 0x02#8 := by decide
/-- 43_bwt.md R150, "banana". -/
theorem test_bwt_enc : result (exec .bwtEnc (loaded (bytes [0x62, 0x61, 0x6E, 0x61, 0x6E, 0x61]))) =
    good [0, 0, 0, 6, 0, 0, 0, 3, 0x6E, 0x6E, 0x62, 0x61, 0x61, 0x61] := by decide
/-- 43_bwt.md R151: `B = 4`, "banana". -/
theorem test_bwt_enc_blocks : result (exec .bwtEnc (given Config.widest { Params.reset with bwtBlock := 4#32 }
    (bytes [0x62, 0x61, 0x6E, 0x61, 0x6E, 0x61]))) =
    good [0, 0, 0, 4, 0, 0, 0, 2, 0x6E, 0x62, 0x61, 0x61, 0, 0, 0, 2, 0, 0, 0, 1, 0x6E, 0x61] := by decide
/-- 43_bwt.md R155. -/
theorem test_bwt_dec : result (exec .bwtDec (loaded (bytes
    [0, 0, 0, 6, 0, 0, 0, 3, 0x6E, 0x6E, 0x62, 0x61, 0x61, 0x61]))) = good [0x62, 0x61, 0x6E, 0x61, 0x6E, 0x61] := by
  decide
/-- 43_bwt.md R157: a record that is short and has a bad index. -/
theorem test_bwt_dec_short : result (exec .bwtDec (loaded (bytes [0, 0, 0, 6, 0, 0, 0, 9, 0x6E, 0x6E]))) = bad 0x14#8 := by
  decide
/-- 44_huffman.md R180, "AAAABBBCCD". -/
theorem test_huf_enc : result (exec .hufEnc (loaded (bytes
    [0x41, 0x41, 0x41, 0x41, 0x42, 0x42, 0x42, 0x43, 0x43, 0x44]))) =
    good [0, 4, 0x41, 0, 0, 0, 4, 0x42, 0, 0, 0, 3, 0x43, 0, 0, 0, 2, 0x44, 0, 0, 0, 1, 5, 0x0A, 0xBF, 0xC0] := by
  decide +kernel
/-- 44_huffman.md R184, "A". -/
theorem test_huf_enc_one : result (exec .hufEnc (loaded (bytes [0x41]))) = good [0, 1, 0x41, 0, 0, 0, 1, 7, 0] := by
  decide +kernel
/-- 44_huffman.md R190: the pad bits are not inspected. -/
theorem test_huf_dec : result (exec .hufDec (loaded (bytes
    [0, 4, 0x41, 0, 0, 0, 4, 0x42, 0, 0, 0, 3, 0x43, 0, 0, 0, 2, 0x44, 0, 0, 0, 1, 7, 0x7F]))) = good [0x41] := by
  decide +kernel
/-- 44_huffman.md R189: a 1 bit meets a single leaf. -/
theorem test_huf_dec_bits : result (exec .hufDec (loaded (bytes [0, 1, 0x41, 0, 0, 0, 1, 7, 0x80]))) = bad 0x17#8 := by
  decide
/-- 44_huffman.md R176. -/
theorem test_huf_build : result (exec .hufBuild (loaded (bytes
    [0, 4, 0x41, 0, 0, 0, 4, 0x42, 0, 0, 0, 3, 0x43, 0, 0, 0, 2, 0x44, 0, 0, 0, 1]))) =
    good [0x41, 1, 0x00, 0x42, 2, 0x80, 0x43, 3, 0xE0, 0x44, 3, 0xC0] := by decide +kernel
/-- 44_huffman.md R177: one byte too many. -/
theorem test_huf_build_long : result (exec .hufBuild (loaded (bytes [0, 1, 0x41, 0, 0, 0, 1, 0]))) = bad 0x16#8 := by
  decide
/-- 45_lz77.md R210, "abcabcabcd". -/
theorem test_lz77_enc : result (exec .lz77Enc (given Config.widest (windows 8#32 8#32) (bytes
    [0x61, 0x62, 0x63, 0x61, 0x62, 0x63, 0x61, 0x62, 0x63, 0x64]))) =
    good [0, 0, 0, 0, 0x61, 0, 0, 0, 0, 0x62, 0, 0, 0, 0, 0x63, 0, 3, 0, 3, 0x61, 0, 3, 0, 2, 0x64] := by
  decide +kernel
/-- 10_state.md R25: the windows hold no value after reset. -/
theorem test_lz77_enc_param : result (exec .lz77Enc (loaded (bytes [0x61]))) = bad 0x02#8 := by decide
/-- 45_lz77.md R220: an overlapping reference. -/
theorem test_lz77_dec : result (exec .lz77Dec (loaded (bytes [0, 0, 0, 0, 0x61, 0, 1, 0, 3, 0x62]))) =
    good [0x61, 0x61, 0x61, 0x61, 0x62] := by decide
/-- 45_lz77.md R218: a bad reference before a bad remainder. -/
theorem test_lz77_dec_ref : result (exec .lz77Dec (loaded (bytes [0, 1, 0, 1, 0x61, 0]))) = bad 0x19#8 := by decide
/-- 46_lzss.md R233 (c): "abab", `MM = 2`. -/
theorem test_lzss_enc : result (exec .lzssEnc (given Config.widest
    { windows 8#32 8#32 with lzssMinMatch := 2#32 } (bytes [0x61, 0x62, 0x61, 0x62]))) =
    good [0, 0x61, 0, 0x62, 1, 0, 0, 0, 2, 0, 0, 0, 2] := by decide
/-- 46_lzss.md R232: `MM = 0` on eight bytes `a`. -/
theorem test_lzss_enc_zero : lzssTokens 8 8 0 (List.replicate 8 0x61#8) =
    [.literal 0x61#8, .copy 1 1, .copy 2 2, .copy 4 4] := by decide
/-- 47_lz78.md R242, "ababab". -/
theorem test_lz78_enc : result (exec .lz78Enc (loaded (bytes [0x61, 0x62, 0x61, 0x62, 0x61, 0x62]))) =
    good [0, 0, 0, 0, 0x61, 0, 0, 0, 0, 0x62, 0, 0, 0, 1, 0x62, 0, 0, 0, 3] := by decide
/-- 47_lz78.md R250: two entries do not fit a dictionary of one. -/
theorem test_lz78_enc_capacity :
    result (exec .lz78Enc (given (caps 9 99 1) Params.reset (bytes [0x61, 0x62]))) = bad 0x03#8 := by decide
/-- 47_lz78.md R246. -/
theorem test_lz78_dec : result (exec .lz78Dec (loaded (bytes
    [0, 0, 0, 0, 0x61, 0, 0, 0, 0, 0x62, 0, 0, 0, 1, 0x62, 0, 0, 0, 3]))) =
    good [0x61, 0x62, 0x61, 0x62, 0x61, 0x62] := by decide
/-- 47_lz78.md R249: a bad code before a bad remainder. -/
theorem test_lz78_dec_code : result (exec .lz78Dec (loaded (bytes [0, 0, 0, 1, 0x61, 0]))) = bad 0x1B#8 := by decide

/-- 48_companion_units.md R261. -/
theorem test_lzss_dec : lzssDec (bytes [0, 0x61, 1, 0, 0, 0, 1, 0, 0, 0, 3]) = some (bytes [0x61, 0x61, 0x61, 0x61]) ∧
    lzssDec (bytes [2, 0x61]) = none := by decide
/-- 48_companion_units.md R264, R265: "aaaa", with the self-referential code. -/
theorem test_lzw : lzwEnc (bytes [0x61, 0x61, 0x61, 0x61]) = bytes [0, 0, 0, 0x61, 0, 0, 1, 0, 0, 0, 0, 0x61] ∧
    lzwDec (bytes [0, 0, 0, 0x61, 0, 0, 1, 0, 0, 0, 0, 0x61]) = some (bytes [0x61, 0x61, 0x61, 0x61]) := by decide
/-- 43_bwt.md R149: the trace of "abab". -/
theorem test_doubling : rotationOrderByDoubling (bytes [0x61, 0x62, 0x61, 0x62]) = [0, 2, 1, 3] := by decide

/-! ## One step -/

/-- 30_encoding.md R71: a placed command is the one that runs. -/
theorem test_step_placed : nextState (step ((loaded (bytes [0x41])).withFetchWord 8 0x20)) =
    nextState (exec .rlepEnc { loaded (bytes [0x41]) with cmd := 0x20#8 }) := by decide
/-- 10_state.md R24: `STATUS` is read-only. -/
theorem test_step_read_only : nextState (step (hosted [.set 1 3#32])) = some State.reset := by decide
/-- 10_state.md R43: the host cannot write `OBUF`. -/
theorem test_step_write_obuf : nextState (step (hosted [.writeObuf 0 1#8])) = some State.reset := by decide
/-- 10_state.md R42: a cell outside `IBUF` does not exist. -/
theorem test_step_no_cell : nextState (step { given (caps 2 2 2) Params.reset [] with host := [.writeIbuf 2 0#8] }) = none := by
  decide

/-! ## Witnesses: for each obligation with hypotheses, a state and operands that meet them, clause by clause -/

theorem witness_DecodeInvertsEncode : decodeOp 0x52#8 = .ok .hufBuild ∧ encode .hufBuild = [0x52#8] := ⟨rfl, rfl⟩

theorem witness_StepRunsDecodedCommand : decodeBytes [0x81#8] = .ok (.lz78Dec, []) ∧
    (hosted [.run 0x81#8]).host = .run 0x81#8 :: [] ∧ (hosted [.set 0 0x81#32]).host = .set 0 (0x81#8 |>.setWidth 32) :: [] :=
  ⟨rfl, rfl, by decide⟩

/-- Both ends of each of the nine illegal ranges. -/
theorem witness_IllegalOpcodeFails :
    ([0x00, 0x0F, 0x12, 0x1F, 0x22, 0x2F, 0x32, 0x3F, 0x42, 0x4F, 0x53, 0x5F, 0x62, 0x6F, 0x71, 0x7F, 0x82, 0xFF].all
      fun n => decide (result (step (hosted [.run (byteOf n)])) = bad 0x01#8)) = true := by decide

theorem witness_ResetStateTable :
    nextState (step { loaded (bytes [1, 2]) with cmd := 0x10#8, status := 2#2, err := 0x02#8, host := [.reset] }) =
      some State.reset := by decide

/-- Each register that stores, by its place in the table of 10_state.md R24; each that does not; the last cell of `IBUF`. -/
theorem witness_HostWritesStoreOneValue :
    ([3, 5, 6, 7, 8, 9, 10, 11, 12, 13].map fun n => (nextState (step (hosted [.set n 7#32]))).map fun t =>
        (t.inLen, t.params.rlecMinRun, t.params.rlepMinRun, t.params.mtfAlpha, t.params.bwtBlock)) =
      [some (7#32, 2#32, 2#32, 256#32, 0#32), some (0#32, 7#32, 2#32, 256#32, 0#32),
        some (0#32, 2#32, 7#32, 256#32, 0#32), some (0#32, 2#32, 2#32, 7#32, 0#32),
        some (0#32, 2#32, 2#32, 256#32, 7#32)] ++ List.replicate 5 (some (0#32, 2#32, 2#32, 256#32, 0#32)) ∧
    ([9, 10, 11, 12, 13].map fun n => (nextState (step (hosted [.set n 7#32]))).map fun t =>
        (t.params.lz77Window, t.params.lz77Lookahead, t.params.lzssWindow, t.params.lzssLookahead,
          t.params.lzssMinMatch)) =
      [some (some 7#32, none, none, none, 3#32), some (none, some 7#32, none, none, 3#32),
        some (none, none, some 7#32, none, 3#32), some (none, none, none, some 7#32, 3#32),
        some (none, none, none, none, 7#32)] ∧
    ([1, 2, 4, 14].all fun n => decide (nextState (step (hosted [.set n 7#32])) = some State.reset)) = true ∧
    ((nextState (step { given (caps 2 2 2) Params.reset [] with host := [.writeIbuf 1 7#8] })).bind fun t =>
      t.ibuf.read 1) = some 7#8 ∧
    (hosted [.writeObuf 9 7#8]).host = .writeObuf 9 7#8 :: [] :=
  ⟨by decide, by decide, by decide, by decide, by decide⟩

/-- An input as long as `IBUF`. -/
theorem witness_LoadWritesInput :
    nextState (step { given (caps 2 2 2) Params.reset [] with host := [.load (bytes [1, 2])] }) =
      some (given (caps 2 2 2) Params.reset (bytes [1, 2])) := by decide

/-- An output as long as `IBUF`, and the script of `DEFAULTS`. -/
theorem witness_PseudoOperationsExpand :
    (∃ s : State, s.host = .pipe :: [] ∧ s.doneWith (bytes [1, 2]) ∧ (bytes [1, 2]).length ≤ s.cfg.ibufCap.val) ∧
    ∃ s : State, s.host = defaultsScript ++ [] :=
  ⟨⟨({ given (caps 2 2 2) Params.reset [] with host := [.pipe] } : State).succeed (bytes [1, 2]), rfl,
    State.succeed_doneWith _ _ (by decide), by decide⟩, hosted defaultsScript, rfl⟩

/-- A register, the last cell of `OBUF` and the last cell of `IBUF`, with a value and without; an output to compare. -/
theorem witness_HostReadsReturnContents :
    (hosted [.readReg 13]).readReg 13 = some 3#32 ∧ (hosted [.readReg 9]).readReg 9 = none ∧
    ({ given (caps 2 2 2) Params.reset [] with obuf := bytes [5, 6] |> Memory.ofBytes 0 } : State).obuf.read 1 =
      some 6#8 ∧ (given (caps 2 2 2) Params.reset []).obuf.read 1 = none ∧ 1 < (caps 2 2 2).obufCap.val ∧
    (given (caps 2 2 2) Params.reset (bytes [5, 6])).ibuf.read 1 = some 6#8 ∧
    (given (caps 2 2 2) Params.reset []).ibuf.read 1 = none ∧ 1 < (caps 2 2 2).ibufCap.val ∧
    (hosted [.expectReg 13 3#32]).readReg 13 = some 3#32 ∧ 14 ≤ 14 ∧ State.reset.readReg 14 = none ∧
    ((State.reset.fail .bwtIndex).readReg 1, (State.reset.fail .bwtIndex).readReg 2) = (some 2#32, some 0x15#32) := by
  decide

theorem witness_HostReadsReturnContents_expect : ((hosted [.expectObuf (bytes [5])]).succeed (bytes [5])).host =
    .expectObuf (bytes [5]) :: [] ∧ ((hosted [.expectObuf (bytes [5])]).succeed (bytes [5])).doneWith (bytes [5]) :=
  ⟨rfl, State.succeed_doneWith _ _ (by decide)⟩

/-- A write of `IBUF` (clauses 1, 2, 3, 5), a write of a register (1, 4, 5) and a read (1 to 4). -/
theorem witness_OnlyCommandsTouchTheOutputSide :
    (nextState (step (hosted [.writeIbuf 0 1#8]))).isSome = true ∧ (nextState (step (hosted [.set 3 1#32]))).isSome = true ∧
    (nextState (step (hosted [.readReg 3]))).isSome = true := by decide

/-- The first value that stops and the last that does not. -/
theorem witness_StepStopsExactly :
    (nextState (step { given (caps 1 1 1) Params.reset [] with host := [.load (bytes [1])] })).isSome = true ∧
    nextState (step { given (caps 1 1 1) Params.reset [] with host := [.load (bytes [1, 2])] }) = none ∧
    nextState (step { given (caps 1 1 1) Params.reset [] with host := [.pipe], outLen := 2#32 }) = none ∧
    nextState (step { given (caps 1 1 1) Params.reset [] with host := [.writeIbuf 1 0#8] }) = none ∧
    nextState (step { given (caps 1 1 1) Params.reset [] with host := [.readIbuf 1] }) = none ∧
    nextState (step { given (caps 1 1 1) Params.reset [] with host := [.readObuf 1] }) = none ∧
    (nextState (step (hosted [.set 0 255#32]))).isSome = true ∧ nextState (step (hosted [.set 0 256#32])) = none := by
  decide

theorem witness_EveryCommandSucceedsOrFailsByTable :
    FailsWith .mtfEnc (given Config.widest { Params.reset with mtfAlpha := 255#32 } (bytes [0xFF])) 0x13#8 :=
  FailsWith.of_exec (e := .mtfRange) rfl

/-- Each row of the table of R283, at its first value. -/
theorem witness_ParameterErrorExactly :
    result (exec .rlecEnc { given (caps 1 1 1) Params.reset [] with inLen := 2#32 }) = bad 0x02#8 ∧
    result (exec .rlecEnc { loaded (bytes [1]) with inLen := 2#32 }) = bad 0x02#8 ∧
    result (exec .lz77Enc (given Config.widest (windows 65536#32 65535#32) [])) = bad 0x02#8 ∧
    result (exec .lz77Enc (given Config.widest (windows 65535#32 65536#32) [])) = bad 0x02#8 ∧
    result (exec .lzssEnc (given Config.widest { windows 0#32 0#32 with lzssWindow := none } [])) = bad 0x02#8 ∧
    result (exec .lzssEnc (given Config.widest { windows 0#32 0#32 with lzssLookahead := none } [])) = bad 0x02#8 :=
  ⟨by decide, by decide, by decide, by decide, by decide, by decide⟩

theorem witness_EmptyInputGivesEmptyOutput :
    (given Config.widest (windows 65535#32 65535#32) []).inLen = 0#32 ∧ (windows 65535#32 65535#32).accepted .lz77Enc ∧
    (windows 65535#32 65535#32).accepted .lzssEnc ∧ Params.reset.accepted .mtfDec :=
  ⟨rfl, ⟨⟨_, rfl, by decide⟩, _, rfl, by decide⟩, ⟨⟨_, rfl⟩, _, rfl⟩, by simp [Params.accepted, Params.reset]⟩

/-- The largest accepted parameters. -/
theorem witness_CommandConcludesAsUnit :
    (given Config.widest (windows 65535#32 65535#32) (bytes [1])).inputIs (bytes [1]) ∧
    Params.reset.mtfAlpha.toNat ≤ 256 ∧ (windows 65535#32 65535#32).lz77Window = some 65535#32 ∧
    (windows 65535#32 65535#32).lz77Lookahead = some 65535#32 ∧ (65535#32).toNat ≤ 65535 ∧
    (windows 65535#32 65535#32).lzssWindow = some 65535#32 ∧ (windows 65535#32 65535#32).lzssLookahead = some 65535#32 :=
  ⟨given_inputIs _ _ _ (by decide), by decide, rfl, rfl, by decide, rfl, rfl⟩

/-- Two states that differ in `STATUS`, `ERR`, `OBUF` and a register the command does not use. -/
theorem witness_ResultDependsOnlyOnOperands :
    (loaded (bytes [1])).inputIs (bytes [1]) ∧
    ({ given Config.widest { Params.reset with rlepMinRun := 9#32 } (bytes [1]) with
        status := 2#2, err := 0x03#8, obuf := [(0, 7#8)] } : State).inputIs (bytes [1]) ∧
    Params.reset.agreeFor { Params.reset with rlepMinRun := 9#32 } .rlecEnc :=
  ⟨loaded_inputIs _ (by decide), given_inputIs Config.widest { Params.reset with rlepMinRun := 9#32 } _ (by decide), rfl⟩

/-- A state that has just run a command meets the invariant, and a step from it answers a next state. -/
theorem witness_StepKeepsInvariant :
    ({ (hosted [.run 0x10#8]).fail .rlepOdd with cmd := 0x21#8 } : State).Inv ∧
    (nextState (step { (hosted [.run 0x10#8]).fail .rlepOdd with cmd := 0x21#8 })).isSome = true :=
  ⟨⟨rfl, rfl, rfl, rfl, by simp [hosted], by decide, by decide, by decide, by decide, by decide⟩, by decide⟩

theorem witness_RunLengthIsMaximal : 1 ≤ 1 ∧ runLen 1 (bytes [7, 7]) = 1 ∧ runLen 3 (bytes [7, 7, 8]) = 2 := by decide

theorem witness_LiteralBlockClosesFirst : bytes [7, 8, 8] ≠ [] ∧ ¬ 2 ≤ runLen 127 (bytes [7, 8, 8]) ∧
    literalBlock 2 127 (bytes [7, 8, 8]) = bytes [7] := by decide

/-- A run of exactly `m` bytes, one shorter, and an output one byte longer than `OBUF`. -/
theorem witness_RlecEncFollowsScan : (given (caps 9 1 1) Params.reset (bytes [7, 7])).inputIs (bytes [7, 7]) ∧
    2 ≤ runLen 127 (bytes [7, 7]) ∧ ¬ 3 ≤ runLen 127 (bytes [7, 7]) ∧ (rlecEnc 2 (bytes [7, 7])).length = 2 ∧
    (caps 9 1 1).obufCap.val = 1 ∧ (rlecEnc 2 (bytes [7, 7])).length ≤ (caps 9 2 1).obufCap.val :=
  ⟨given_inputIs _ _ _ (by decide), by decide, by decide, by decide, rfl, by decide⟩

theorem witness_RlecRoundTrip : (loaded (bytes [7, 7])).inputIs (bytes [7, 7]) ∧
    Completes .rlecEnc (loaded (bytes [7, 7])) (bytes [2, 7]) ∧ (loaded (bytes [2, 7])).inputIs (bytes [2, 7]) ∧
    (bytes [7, 7]).length ≤ (loaded (bytes [2, 7])).cfg.obufCap.val :=
  ⟨loaded_inputIs _ (by decide), .of_exec rfl (by decide), loaded_inputIs _ (by decide), by decide⟩

/-- Lengths 0 and 127 in both kinds of token. -/
theorem witness_RlecDecReadsTokens :
    (∀ t ∈ [RlecToken.run 0 1#8, .run 127 2#8, .lit []], t.wf = true) ∧
    (loaded (bytes [0, 1, 127, 2, 128])).inputIs
      ([RlecToken.run 0 1#8, .run 127 2#8, .lit []].flatMap rlecTokenBytes) ∧
    ([RlecToken.run 0 1#8, .run 127 2#8, .lit []].flatMap rlecTokenMeaning).length ≤ 4294967295 :=
  ⟨by decide, loaded_inputIs (bytes [0, 1, 127, 2, 128]) (by decide), by decide +kernel⟩

/-- Header 127 as the last byte, and header 130 with one byte after it. -/
theorem witness_RlecDecFirstBadToken :
    (∀ t ∈ [RlecToken.run 1 1#8], t.wf = true) ∧
    (loaded (bytes [1, 1, 127])).inputIs ([RlecToken.run 1 1#8].flatMap rlecTokenBytes ++ 127#8 :: []) ∧
    (127#8).toNat < 128 ∧
    (loaded (bytes [1, 1, 130, 5])).inputIs ([RlecToken.run 1 1#8].flatMap rlecTokenBytes ++ 130#8 :: [5#8]) ∧
    128 ≤ (130#8).toNat ∧ [5#8].length < (130#8).toNat - 128 :=
  ⟨by decide, loaded_inputIs (bytes [1, 1, 127]) (by decide), by decide, loaded_inputIs (bytes [1, 1, 130, 5]) (by decide),
    by decide, by decide⟩

/-- A run that ends before another byte, an input without equal neighbours, and both sides of the capacity. -/
theorem witness_RlepEncPairs : (bytes [8]).head? ≠ some 7#8 ∧
    (∀ k, k + 1 < (bytes [7, 8]).length → (bytes [7, 8])[k]? ≠ (bytes [7, 8])[k + 1]?) ∧
    (given (caps 9 1 1) Params.reset (bytes [7])).inputIs (bytes [7]) ∧ (caps 9 1 1).obufCap.val < (rlepEnc (bytes [7])).length ∧
    (rlepEnc (bytes [7])).length ≤ (caps 9 2 1).obufCap.val :=
  ⟨by decide, by
    intro k hk
    have hk' : k = 0 := by
      have : (bytes [7, 8]).length = 2 := rfl
      omega
    subst hk'; decide, given_inputIs _ _ _ (by decide), by decide, by decide⟩

theorem witness_RlepDecExactly : (loaded (bytes [7])).inputIs (bytes [7]) ∧ (bytes [7]).length % 2 = 1 ∧
    (loaded (bytes [0, 7])).inputIs (bytes [0, 7]) ∧ (bytes [0, 7]).length % 2 = 0 :=
  ⟨loaded_inputIs _ (by decide), rfl, loaded_inputIs _ (by decide), rfl⟩

theorem witness_RlepRoundTrip : (loaded (bytes [7, 7])).inputIs (bytes [7, 7]) ∧
    Completes .rlepEnc (loaded (bytes [7, 7])) (bytes [2, 7]) ∧ (loaded (bytes [2, 7])).inputIs (bytes [2, 7]) ∧
    rlepDec (bytes [2, 7]) = .ok (bytes [7, 7]) :=
  ⟨loaded_inputIs _ (by decide), .of_exec rfl (by decide), loaded_inputIs _ (by decide), rfl⟩

/-- The last position of a list, and the largest alphabet. -/
theorem witness_MoveToFrontKeepsSymbols : 2 < (bytes [5, 6, 7]).length ∧ moveToFront (bytes [5, 6, 7]) 2 = bytes [7, 5, 6] ∧
    256 ≤ 256 ∧ (rankList 256)[255]? = some 255#8 := by decide +kernel

/-- The first byte outside the alphabet and the last inside. -/
theorem witness_MtfRangeExactly :
    (given Config.widest { Params.reset with mtfAlpha := 4#32 } (bytes [4])).inputIs (bytes [4]) ∧
    (∃ b ∈ bytes [4], (4#32).toNat ≤ b.toNat) ∧
    (given Config.widest { Params.reset with mtfAlpha := 4#32 } (bytes [3])).inputIs (bytes [3]) ∧
    (∀ b ∈ bytes [3], b.toNat < (4#32).toNat) ∧ Params.reset.mtfAlpha.toNat ≤ 256 :=
  ⟨given_inputIs _ _ _ (by decide), by decide, given_inputIs _ _ _ (by decide), by decide, by decide⟩

theorem witness_MtfAlphabetClosure :
    Completes .mtfEnc (given Config.widest { Params.reset with mtfAlpha := 4#32 } (bytes [3, 3])) (bytes [3, 0]) ∧
    Completes .mtfDec (given Config.widest { Params.reset with mtfAlpha := 4#32 } (bytes [3, 0])) (bytes [3, 3]) :=
  ⟨.of_exec rfl (by decide), .of_exec rfl (by decide)⟩

/-- Position 2 holds a new byte below an earlier one, position 3 a byte seen at position 1. -/
theorem witness_MtfRanksCountRecency : mtfEnc 4 (bytes [3, 2, 1, 2]) = .ok (bytes [3, 3, 3, 1]) ∧
    (bytes [3, 2, 1, 2])[2]? = some 1#8 ∧ 1#8 ∉ (bytes [3, 2, 1, 2]).take 2 ∧
    (bytes [3, 2, 1, 2])[3]? = some 2#8 ∧ (bytes [3, 2, 1, 2])[1]? = some 2#8 ∧
    2#8 ∉ ((bytes [3, 2, 1, 2]).take 3).drop 2 :=
  ⟨rfl, by decide, by decide, by decide, by decide, by decide⟩

/-- A second alphabet that holds every rank, and one that misses the largest. -/
theorem witness_MtfRoundTrip : (∀ b ∈ bytes [3, 3], b.toNat < 4) ∧ mtfEnc 4 (bytes [3, 3]) = .ok (bytes [3, 0]) ∧
    (∀ p ∈ bytes [3, 0], p.toNat < 256) ∧ (∃ p ∈ bytes [3, 0], 3 ≤ p.toNat) ∧
    (loaded (bytes [3, 3])).inputIs (bytes [3, 3]) ∧ Completes .mtfEnc (loaded (bytes [3, 3])) (bytes [3, 0]) ∧
    (loaded (bytes [3, 0])).inputIs (bytes [3, 0]) :=
  ⟨by decide, rfl, by decide, by decide, loaded_inputIs _ (by decide), .of_exec rfl (by decide),
    loaded_inputIs _ (by decide)⟩

theorem witness_BwtBlockColumns : bytes [0x61, 0x62] ≠ [] ∧ (rotationOrder (bytes [0x61, 0x62]))[1]? = some 1 := by decide

/-- A block size that does not divide the input, and both sides of the capacity. -/
theorem witness_BwtEncRecords :
    (given (caps 9 19 1) { Params.reset with bwtBlock := 2#32 } (bytes [1, 2, 3])).inputIs (bytes [1, 2, 3]) ∧
    bytes [1, 2, 3] ≠ [] ∧ bwtBlockSize (2#32).toNat 3 = 2 ∧ 3 + 8 * ((3 + 2 - 1) / 2) = (caps 9 19 1).obufCap.val ∧
    (caps 9 18 1).obufCap.val < 3 + 8 * ((3 + 2 - 1) / 2) :=
  ⟨given_inputIs _ _ _ (by decide), by decide, by decide, by decide, by decide⟩

theorem witness_LfMapPermutesRows : (bytes [2, 1, 2])[0]? = some 2#8 ∧ (bytes [2, 1, 2])[1]? = some 1#8 ∧
    (bytes [2, 1, 2])[2]? = some 2#8 ∧ lfMap (bytes [2, 1, 2]) 1 < lfMap (bytes [2, 1, 2]) 0 ∧
    lfMap (bytes [2, 1, 2]) 0 < lfMap (bytes [2, 1, 2]) 2 := by decide

/-- 43_bwt.md R162, "abab": row 1 holds rotation 2, which equals rotation 0. -/
theorem witness_BwtInverseFromEveryRow : (rotationOrder (bytes [0x61, 0x62, 0x61, 0x62]))[1]? = some 2 := by decide

theorem witness_BwtRoundTrip : (loaded (bytes [7])).inputIs (bytes [7]) ∧
    Completes .bwtEnc (loaded (bytes [7])) (bytes [0, 0, 0, 1, 0, 0, 0, 0, 7]) ∧
    (loaded (bytes [0, 0, 0, 1, 0, 0, 0, 0, 7])).inputIs (bytes [0, 0, 0, 1, 0, 0, 0, 0, 7]) :=
  ⟨loaded_inputIs _ (by decide), .of_exec rfl (by decide), loaded_inputIs _ (by decide)⟩

/-- 43_bwt.md R158: a payload that is no last column. -/
theorem witness_BwtDecReadsRecords :
    (∀ r ∈ [({ primary := 0, last := bytes [0x61, 0x62] } : BwtRecord)], r.wf = true) ∧
    (loaded (bytes [0, 0, 0, 2, 0, 0, 0, 0, 0x61, 0x62])).inputIs
      ([({ primary := 0, last := bytes [0x61, 0x62] } : BwtRecord)].flatMap bwtRecordBytes) :=
  ⟨by decide, loaded_inputIs (bytes [0, 0, 0, 2, 0, 0, 0, 0, 0x61, 0x62]) (by decide)⟩

/-- 1 and 7 bytes left, one payload byte missing, `n = 0`, and `pi = n`. -/
theorem witness_BwtDecFirstBadRecord :
    (∀ n, n = 1 ∨ n = 7 → (loaded (List.replicate n 0#8)).inputIs
      (([] : List BwtRecord).flatMap bwtRecordBytes ++ List.replicate n 0#8)) ∧
    (loaded (be32 2 ++ be32 0 ++ [1#8])).inputIs (([] : List BwtRecord).flatMap bwtRecordBytes ++ (be32 2 ++ be32 0 ++ [1#8])) ∧
    [1#8].length < 2 ∧
    (loaded (be32 0 ++ be32 0 ++ [])).inputIs (([] : List BwtRecord).flatMap bwtRecordBytes ++ (be32 0 ++ be32 0 ++ [])) ∧
    (loaded (be32 1 ++ be32 1 ++ [1#8])).inputIs (([] : List BwtRecord).flatMap bwtRecordBytes ++ (be32 1 ++ be32 1 ++ [1#8])) ∧
    1 ≤ [1#8].length :=
  ⟨fun n hn => loaded_inputIs _ (by simp only [List.length_replicate]; omega), loaded_inputIs _ (by decide), by decide,
    loaded_inputIs _ (by decide), loaded_inputIs _ (by decide), by decide⟩

/-- The table A:4, B:3, C:2, D:1 of 44_huffman.md R179. -/
def table4 : List HufEntry :=
  [{ sym := 0x41#8, freq := 4 }, { sym := 0x42#8, freq := 3 }, { sym := 0x43#8, freq := 2 }, { sym := 0x44#8, freq := 1 }]

/-- The table of one symbol. -/
def table1 : List HufEntry := [{ sym := 0x41#8, freq := 1 }]

theorem witness_HufTreeMergesTwoSmallest : HufEntry.tableWf table4 = true ∧
    ([{ weight := 1, seq := 3, tree := .leaf 0x44#8 }] : List PoolItem).Pairwise (fun a b => a.before b = true) ∧
    (∀ y ∈ ([{ weight := 1, seq := 3, tree := .leaf 0x44#8 }] : List PoolItem), y.seq ≠ 4) := by decide

/-- 44_huffman.md R179. -/
theorem witness_HufCodesPrefixFree : HufEntry.tableWf table4 = true ∧ HufEntry.tableWf table1 = true ∧
    hufTree table4 = some (.node (.leaf 0x41#8) (.node (.leaf 0x42#8) (.node (.leaf 0x44#8) (.leaf 0x43#8)))) ∧
    hufTree table1 = some (.leaf 0x41#8) ∧ (0x41#8 : Byte) ≠ 0x42#8 := by decide

theorem witness_HufBuildWritesCodebook : HufEntry.tableWf table1 = true ∧
    (given (caps 9 2 1) Params.reset (hufTableBytes table1)).inputIs (hufTableBytes table1) ∧
    ([0x41#8, 1#8, 0#8] : List Byte) = (table1.flatMap fun e =>
      e.sym :: byteOf (codeOf (hufCodes (.leaf 0x41#8)) e.sym).length :: pack (codeOf (hufCodes (.leaf 0x41#8)) e.sym)) ∧
    (caps 9 2 1).obufCap.val < 3 ∧ 3 ≤ (caps 9 3 1).obufCap.val :=
  ⟨by decide, given_inputIs _ _ _ (by decide), by decide, by decide, by decide⟩

theorem witness_HufBuildRejectsExactly : (loaded (bytes [0])).inputIs (bytes [0]) ∧ bytes [0] ≠ [] ∧
    (loaded (hufTableBytes table1)).inputIs (hufTableBytes table1) ∧ hufTableBytes table1 ≠ [] :=
  ⟨loaded_inputIs _ (by decide), by decide, loaded_inputIs _ (by decide), by decide⟩

/-- One byte of input: one code bit and nine bytes of output, on both sides of the capacity. -/
theorem witness_HufEncWritesStream : (given (caps 9 8 1) Params.reset (bytes [0x41])).inputIs (bytes [0x41]) ∧
    bytes [0x41] ≠ [] ∧ (hufEnc (bytes [0x41])).length = 9 ∧ (caps 9 8 1).obufCap.val < 9 ∧
    9 ≤ (caps 9 9 1).obufCap.val :=
  ⟨given_inputIs _ _ _ (by decide), by decide, by decide +kernel, by decide, by decide⟩

theorem witness_HufDecHeaderExactly : (loaded (bytes [0, 1, 0x41, 0, 0, 0, 1])).inputIs (bytes [0, 1, 0x41, 0, 0, 0, 1]) ∧
    bytes [0, 1, 0x41, 0, 0, 0, 1] ≠ [] :=
  ⟨loaded_inputIs _ (by decide), by decide⟩

/-- Header of one symbol, pad 7: body `7F` is the code "0", body `80` is no code. -/
theorem witness_HufDecDecodesCodes : HufEntry.tableWf table1 = true ∧ hufTree table1 = some (.leaf 0x41#8) ∧
    (7#8).toNat ≤ 7 ∧ (7#8).toNat ≤ 8 * (bytes [0x80]).length ∧
    (loaded (hufTableBytes table1 ++ 7#8 :: bytes [0x7F])).inputIs (hufTableBytes table1 ++ 7#8 :: bytes [0x7F]) ∧
    (((bytes [0x7F]).flatMap bitsOfByte).take 1 = (bytes [0x41]).flatMap (codeOf (hufCodes (.leaf 0x41#8)))) ∧
    (loaded (hufTableBytes table1 ++ 7#8 :: bytes [0x80])).inputIs (hufTableBytes table1 ++ 7#8 :: bytes [0x80]) ∧
    ∀ y : List Byte, (∀ b ∈ y, b ∈ table1.map HufEntry.sym) →
      ((bytes [0x80]).flatMap bitsOfByte).take 1 ≠ y.flatMap (codeOf (hufCodes (.leaf 0x41#8))) := by
  refine ⟨by decide, by decide, by decide, by decide, loaded_inputIs _ (by decide), by decide,
    loaded_inputIs _ (by decide), ?_⟩
  intro y hy h
  have h1 : ((bytes [0x80]).flatMap bitsOfByte).take 1 = [true] := by decide
  rw [h1] at h
  cases y with
  | nil => simp at h
  | cons b y =>
    have hb : b = 0x41#8 := by simpa [table1] using hy b (by simp)
    subst hb
    simp [codeOf, hufCodes] at h

theorem witness_HufRoundTrip : (loaded (bytes [0x41])).inputIs (bytes [0x41]) ∧ bytes [0x41] ≠ [] ∧
    Completes .hufEnc (loaded (bytes [0x41])) (bytes [0, 1, 0x41, 0, 0, 0, 1, 7, 0]) ∧
    (loaded (bytes [0, 1, 0x41, 0, 0, 0, 1, 7, 0])).inputIs (bytes [0, 1, 0x41, 0, 0, 0, 1, 7, 0]) :=
  ⟨loaded_inputIs _ (by decide), by decide, .of_exec rfl (by decide), loaded_inputIs _ (by decide)⟩

/-- 45_lz77.md R212: at `i = 3`, a shorter candidate with a larger offset would not do. -/
theorem witness_FindMatchIsLongestNearest :
    findMatch 8 8 (bytes [0x61, 0x62, 0x63]) (bytes [0x61, 0x62, 0x63, 0x61]) = (3, 3) ∧
    ((bytes [0x61, 0x62, 0x63]).drop (3 - 3)).take 3 = (bytes [0x61, 0x62, 0x63, 0x61]).take 3 ∧
    findMatch 0 8 (bytes [0x61]) (bytes [0x61]) = (0, 0) := by decide

/-- Offset 0, an offset one too large, length 0, and the largest offset. -/
theorem witness_BackCopyRepeats : backCopy (bytes [1, 2]) 0 1 = none ∧ backCopy (bytes [1, 2]) 3 1 = none ∧
    backCopy (bytes [1, 2]) 9 0 = some (bytes [1, 2]) ∧ backCopy (bytes [1, 2]) 2 3 = some (bytes [1, 2, 1, 2, 1]) := by
  decide

/-- 45_lz77.md R211: "abab" ends with the final token (2,2); both sides of the capacity. -/
theorem witness_Lz77EncTokens :
    lz77Tokens 8 8 (bytes [0x61, 0x62, 0x61, 0x62]) =
      [.full 0 0 0x61#8, .full 0 0 0x62#8] ++ Lz77Token.final 2 2 :: [] ∧
    findMatch 8 8 (bytes [0x61, 0x62]) (bytes [0x61, 0x62]) = (2, 2) ∧ bytes [0x61, 0x62] ≠ [] ∧
    findMatch 8 8 [] (bytes [0x61, 0x62]) = (0, 0) ∧ (bytes [0x61, 0x62])[0]? = some 0x61#8 ∧
    (given (caps 9 4 1) (windows 65535#32 65535#32) (bytes [7])).inputIs (bytes [7]) ∧
    (caps 9 4 1).obufCap.val < (lz77Enc 65535 65535 (bytes [7])).length ∧
    (lz77Enc 65535 65535 (bytes [7])).length ≤ (caps 9 5 1).obufCap.val :=
  ⟨by decide, by decide, by decide, by decide, by decide, given_inputIs _ _ _ (by decide), by decide, by decide⟩

/-- After one full token: a final token, offset 0, an offset one too large, and 1 and 3 bytes left. -/
theorem witness_Lz77DecReadsTokens :
    (∀ t ∈ [Lz77Token.full 0 0 0x61#8], t.wf = true ∧ lz77IsFull t = true) ∧
    lz77ApplyAll [] [.full 0 0 0x61#8] = some (bytes [0x61]) ∧
    backCopy (bytes [0x61]) 1 3 = some (bytes [0x61, 0x61, 0x61, 0x61]) ∧
    (loaded (bytes [0, 0, 0, 0, 0x61, 0, 1, 0, 3])).inputIs
      ([Lz77Token.full 0 0 0x61#8].flatMap lz77TokenBytes ++ lz77TokenBytes (.final 1 3)) ∧
    (loaded (bytes [0, 0, 0, 0, 0x61, 0, 0, 0, 1])).inputIs
      ([Lz77Token.full 0 0 0x61#8].flatMap lz77TokenBytes ++ lz77TokenBytes (.final 0 1)) ∧
    (loaded (bytes [0, 0, 0, 0, 0x61, 0, 2, 0, 1, 0x62, 9])).inputIs
      ([Lz77Token.full 0 0 0x61#8].flatMap lz77TokenBytes ++ lz77TokenBytes (.full 2 1 0x62#8) ++ [9#8]) ∧
    (loaded (bytes [0, 0, 0, 0, 0x61, 0])).inputIs ([Lz77Token.full 0 0 0x61#8].flatMap lz77TokenBytes ++ bytes [0]) ∧
    (loaded (bytes [0, 0, 0, 0, 0x61, 0, 0, 0])).inputIs
      ([Lz77Token.full 0 0 0x61#8].flatMap lz77TokenBytes ++ bytes [0, 0, 0]) :=
  ⟨by decide, by decide, by decide, loaded_inputIs (bytes [0, 0, 0, 0, 0x61, 0, 1, 0, 3]) (by decide),
    loaded_inputIs (bytes [0, 0, 0, 0, 0x61, 0, 0, 0, 1]) (by decide),
    loaded_inputIs (bytes [0, 0, 0, 0, 0x61, 0, 2, 0, 1, 0x62, 9]) (by decide),
    loaded_inputIs (bytes [0, 0, 0, 0, 0x61, 0]) (by decide),
    loaded_inputIs (bytes [0, 0, 0, 0, 0x61, 0, 0, 0]) (by decide)⟩

theorem witness_Lz77RoundTrip :
    (given Config.widest (windows 65535#32 65535#32) (bytes [7, 7])).inputIs (bytes [7, 7]) ∧
    Completes .lz77Enc (given Config.widest (windows 65535#32 65535#32) (bytes [7, 7]))
      (bytes [0, 0, 0, 0, 7, 0, 1, 0, 1]) ∧
    (loaded (bytes [0, 0, 0, 0, 7, 0, 1, 0, 1])).inputIs (bytes [0, 0, 0, 0, 7, 0, 1, 0, 1]) :=
  ⟨given_inputIs _ _ _ (by decide), .of_exec rfl (by decide), loaded_inputIs _ (by decide)⟩

/-- A match of exactly the threshold and one shorter, no window, no lookahead, a threshold one too large, and both sides of
the capacity. -/
theorem witness_LzssEncTokens :
    findMatch 8 8 (bytes [0x61, 0x62]) (bytes [0x61, 0x62]) = (2, 2) ∧ max 1 2 ≤ 2 ∧ 2 < max 1 3 ∧ min 2 2 < 3 ∧
    LzssToken.copy 2 2 ∈ lzssTokens 8 8 2 (bytes [0x61, 0x62, 0x61, 0x62]) ∧
    (given (caps 9 1 1) (windows 8#32 8#32) (bytes [7])).inputIs (bytes [7]) ∧
    (caps 9 1 1).obufCap.val < (lzssEnc 8 8 3 (bytes [7])).length ∧ (lzssEnc 8 8 3 (bytes [7])).length ≤ (caps 9 2 1).obufCap.val :=
  ⟨by decide, by decide, by decide, by decide, by decide, given_inputIs _ _ _ (by decide), by decide, by decide⟩

theorem witness_LzssRoundTrip : (given Config.widest (windows 8#32 8#32) (bytes [7])).inputIs (bytes [7]) ∧
    Completes .lzssEnc (given Config.widest (windows 8#32 8#32) (bytes [7])) (bytes [0, 7]) :=
  ⟨given_inputIs _ _ _ (by decide), .of_exec rfl (by decide)⟩

/-- "aab": a dictionary of two entries is enough, of one is not; and an output one byte too long. -/
theorem witness_Lz78EncTokens : (given (caps 9 10 2) Params.reset (bytes [1, 1, 2])).inputIs (bytes [1, 1, 2]) ∧
    lz78Tokens 2 (bytes [1, 1, 2]) = .ok [.full 0 1#8, .full 1 2#8] ∧
    lz78Tokens 2 (bytes [1, 1]) = .ok ([.full 0 1#8] ++ Lz78Token.final 1 :: []) ∧
    (([.full 0 1#8, .full 1 2#8] : List Lz78Token).filter lz78IsFull).length ≤ (caps 9 10 2).dictCap.val ∧
    (caps 9 10 1).dictCap.val < (([.full 0 1#8, .full 1 2#8] : List Lz78Token).filter lz78IsFull).length ∧
    (([.full 0 1#8, .full 1 2#8] : List Lz78Token).flatMap lz78TokenBytes).length ≤ (caps 9 10 2).obufCap.val ∧
    (caps 9 9 2).obufCap.val < (([.full 0 1#8, .full 1 2#8] : List Lz78Token).flatMap lz78TokenBytes).length :=
  ⟨given_inputIs _ _ _ (by decide), rfl, rfl, by decide, by decide, by decide, by decide⟩

/-- "aaba": the second full token extends the sequence of code 1, and what stands before it; "aa": its final token. -/
theorem witness_Lz78EncTokens_search :
    (lz78Tokens 2 (bytes [1, 1, 2, 1])).toOption = some ([.full 0 1#8] ++ Lz78Token.full 1 2#8 :: [.final 1]) ∧
    lz78Apply ([[]], []) (lz78Pairs [.full 0 1#8]) = some ([[], bytes [1]], bytes [1]) ∧
    ([[], bytes [1]] : List (List Byte))[1]? = some (bytes [1]) ∧ bytes [1] ++ [2#8] ∉ ([[], bytes [1]] : List (List Byte)) ∧
    bytes [1, 1, 2, 1] ≠ [] ∧ (lz78Tokens 1 (bytes [1, 1])).toOption = some ([.full 0 1#8] ++ Lz78Token.final 1 :: []) := by
  decide

/-- After one full token: codes 0, 1 and 2, 1 and 3 bytes left, and a dictionary that is full. -/
theorem witness_Lz78DecReadsTokens : (∀ t ∈ [(0, 0x61#8)], t.1 < 2 ^ 32) ∧
    lz78Apply ([[]], []) [(0, 0x61#8)] = some ([[], bytes [0x61]], bytes [0x61]) ∧
    ([[], bytes [0x61]] : List (List Byte))[0]? = some [] ∧ ([[], bytes [0x61]] : List (List Byte))[1]? = some (bytes [0x61]) ∧
    ([(0, 0x61#8)] : List (Nat × Byte)).length < 2 ∧ (bytes [0]).length = 1 ∧ (bytes [0, 0, 0]).length = 3 ∧
    (loaded (bytes [0, 0, 0, 0, 0x61, 0, 0, 0, 2, 0x62])).inputIs
      (bytes [0, 0, 0, 0, 0x61] ++ be32 2 ++ bytes [0x62]) ∧
    (given (caps 9 9 0) Params.reset (bytes [0, 0, 0, 0, 0x61])).inputIs (bytes [0, 0, 0, 0, 0x61] ++ []) ∧
    ([(0, 0x61#8)] : List (Nat × Byte)).length = (caps 9 9 0).dictCap.val + 1 :=
  ⟨by decide, by decide, by decide, by decide, by decide, by decide, by decide,
    loaded_inputIs (bytes [0, 0, 0, 0, 0x61, 0, 0, 0, 2, 0x62]) (by decide), given_inputIs _ _ _ (by decide), by decide⟩

theorem witness_Lz78RoundTrip : (loaded (bytes [7, 7])).inputIs (bytes [7, 7]) ∧
    Completes .lz78Enc (loaded (bytes [7, 7])) (bytes [0, 0, 0, 0, 7, 0, 0, 0, 1]) ∧
    (loaded (bytes [0, 0, 0, 0, 7, 0, 0, 0, 1])).inputIs (bytes [0, 0, 0, 0, 7, 0, 0, 0, 1]) ∧
    (lz78Enc 1 (bytes [7, 7])).toOption = some (bytes [0, 0, 0, 0, 7, 0, 0, 0, 1]) ∧
    (lz78Dec 1 (bytes [0, 0, 0, 0, 7, 0, 0, 0, 1])).toOption = some (bytes [7, 7]) :=
  ⟨loaded_inputIs _ (by decide), .of_exec rfl (by decide), loaded_inputIs _ (by decide), by decide, by decide⟩

/-- Reversal, and the pair RLE codec after it. -/
theorem witness_CompositionRoundTrip :
    ∃ cs : List Codec, cs.length = 2 ∧ (∀ c ∈ cs, ∀ x y, c.compress x = some y → c.decompress y = some x) ∧
      composeEnc cs (bytes [7, 8]) = some (bytes [8, 7]) := by
  refine ⟨[{ compress := fun x => some x.reverse, decompress := fun y => some y.reverse },
    { compress := some, decompress := some }], rfl, ?_, by decide⟩
  intro c hc x y h
  simp only [List.mem_cons, List.not_mem_nil, or_false] at hc
  rcases hc with rfl | rfl
  · simp only [Option.some.injEq] at h ⊢
    rw [← h, List.reverse_reverse]
  · exact h.symm

end Sys2Proof.Tests
end

section
/-!
PROOFS. The one result that says how a command ends: the unit's function as the capacities and the parameter registers
choose it, the result of that function on the input, and how `Completes` and `FailsWith` are read off it.
-/

namespace Sys2Proof.Machine

/-- The unit's function of a command with its parameters applied; none when step 3 of 30_encoding.md R72 refuses them. -/
def unitOf (c : Config) (p : Params) : Instr → Option (List Byte → Except Err (List Byte))
  | .rlecEnc => (rlecOperand p).map fun m d => .ok (rlecEnc m d)
  | .rlecDec => some rlecDec
  | .rlepEnc => some fun d => .ok (rlepEnc d)
  | .rlepDec => some rlepDec
  | .mtfEnc => (mtfOperand p).map mtfEnc
  | .mtfDec => (mtfOperand p).map mtfDec
  | .bwtEnc => (bwtOperand p).map fun b d => .ok (bwtEnc b d)
  | .bwtDec => some bwtDec
  | .hufEnc => some fun d => .ok (hufEnc d)
  | .hufDec => some hufDec
  | .hufBuild => some hufBuild
  | .lz77Enc => (lz77Operand p).map fun q d => .ok (lz77Enc q.1 q.2 d)
  | .lz77Dec => some lz77Dec
  | .lzssEnc => (lzssOperand p).map fun q d => .ok (lzssEnc q.1 q.2.1 q.2.2 d)
  | .lz78Enc => some (lz78Enc c.dictCap.val)
  | .lz78Dec => some (lz78Dec c.dictCap.val)

/-- The result of steps 3 to 7 of 30_encoding.md R72 on the input `x`. -/
def commandResult (unit : Option (List Byte → Except Err (List Byte))) (x : List Byte) : Except Err (List Byte) :=
  match unit with
  | none => .error .param
  | some f => if x = [] then .ok [] else f x

@[simp] theorem commandResult_none (x : List Byte) : commandResult none x = .error .param := rfl

@[simp] theorem commandResult_some_nil (f : List Byte → Except Err (List Byte)) :
    commandResult (some f) [] = .ok [] := rfl

@[simp] theorem commandResult_some_of_ne_nil (f : List Byte → Except Err (List Byte)) {x : List Byte} (hx : x ≠ []) :
    commandResult (some f) x = f x := if_neg hx

/-- With its input loaded a command ends as its result says. -/
theorem command_eq_conclude {P : Type} (operand : Option P) (unit : P → List Byte → Except Err (List Byte))
    {s : State} {x : List Byte} (hx : s.inputIs x) :
    command operand unit s = .next (s.conclude (commandResult (operand.map unit) x)) := by
  have hin : inputOperand s = some x := (inputOperand_eq_some s x).2 hx
  cases operand with
  | none => exact command_param none unit s (.inr rfl)
  | some p =>
    by_cases hnil : x = []
    · subst hnil
      exact command_empty p unit s hin
    · rw [command_conclude p unit s x hin hnil, Option.map_some, commandResult_some_of_ne_nil _ hnil]

/-- With its input loaded each of the sixteen commands ends as its result says. -/
theorem exec_eq_conclude (i : Instr) {s : State} {x : List Byte} (hx : s.inputIs x) :
    exec i s = .next (s.conclude (commandResult (unitOf s.cfg s.params i) x)) := by
  cases i <;> exact command_eq_conclude _ _ hx

theorem concludes_commandResult (i : Instr) {s : State} {x : List Byte} (hx : s.inputIs x) :
    Concludes i s (commandResult (unitOf s.cfg s.params i) x) :=
  .of_exec (exec_eq_conclude i hx)

/-! The parameter registers choose the unit's function. -/

theorem unitOf_congr {p q : Params} {i : Instr} (c : Config) (h : p.agreeFor q i) : unitOf c p i = unitOf c q i := by
  cases i <;> simp_all [Params.agreeFor, unitOf, rlecOperand, mtfOperand, bwtOperand, lz77Operand, lzssOperand]

theorem boundedOperand_of_le {bound : Nat} {v : Word} (h : v.toNat ≤ bound) :
    boundedOperand bound (some v) = some v.toNat := if_pos h

theorem unitOf_of_accepted {p : Params} {i : Instr} (c : Config) (h : p.accepted i) : ∃ f, unitOf c p i = some f := by
  cases i with
  | mtfEnc | mtfDec =>
    have hop : mtfOperand p = some p.mtfAlpha.toNat := if_pos h
    exact ⟨_, by rw [unitOf, hop, Option.map_some]⟩
  | lz77Enc =>
    obtain ⟨⟨w, hw, hwle⟩, la, hla, hlale⟩ := h
    have hop : lz77Operand p = some (w.toNat, la.toNat) := by
      simp [lz77Operand, hw, hla, boundedOperand_of_le hwle, boundedOperand_of_le hlale]
    exact ⟨_, by rw [unitOf, hop, Option.map_some]⟩
  | lzssEnc =>
    obtain ⟨⟨w, hw⟩, la, hla⟩ := h
    have hop : lzssOperand p = some (w.toNat, la.toNat, p.lzssMinMatch.toNat) := by
      simp [lzssOperand, hw, hla, boundedOperand_of_le (Nat.le_of_lt_succ w.isLt),
        boundedOperand_of_le (Nat.le_of_lt_succ la.isLt)]
    exact ⟨_, by rw [unitOf, hop, Option.map_some]⟩
  | _ => exact ⟨_, rfl⟩

/-! `Completes` and `FailsWith` exclude each other, and how a command concludes decides both. -/

theorem FailsWith.unique {i : Instr} {s : State} {c d : BitVec 8} (hc : FailsWith i s c) (hd : FailsWith i s d) :
    c = d := by
  obtain ⟨t, ht, ⟨-, hc, -, -⟩, -⟩ := hc
  obtain ⟨u, hu, ⟨-, hd, -, -⟩, -⟩ := hd
  cases ht.symm.trans hu
  exact hc.symm.trans hd

theorem Completes.not_failsWith {i : Instr} {s : State} {y : List Byte} {c : BitVec 8} (hy : Completes i s y) :
    ¬ FailsWith i s c := by
  rintro ⟨u, hu, ⟨herror, -, -, -⟩, -⟩
  obtain ⟨t, ht, ⟨hdone, -, -, -⟩, -⟩ := hy
  cases ht.symm.trans hu
  exact absurd (hdone.symm.trans herror) (by decide)

theorem Concludes.completes_iff {i : Instr} {s : State} {r : Except Err (List Byte)} (h : Concludes i s r)
    (y : List Byte) : Completes i s y ↔ r = .ok y ∧ y.length ≤ s.cfg.obufCap.val := by
  cases r with
  | error e => exact iff_of_false (fun hy => hy.not_failsWith h) (by simp)
  | ok out =>
    by_cases hfit : out.length ≤ s.cfg.obufCap.val
    · have hout : Completes i s out := by simpa [Concludes, hfit] using h
      constructor
      · intro hy
        cases hout.unique hy
        exact ⟨rfl, hfit⟩
      · rintro ⟨⟨⟩, -⟩
        exact hout
    · have hcap : FailsWith i s 0x03#8 := by simpa [Concludes, hfit] using h
      refine iff_of_false (fun hy => hy.not_failsWith hcap) ?_
      rintro ⟨⟨⟩, hle⟩
      exact hfit hle

theorem Concludes.failsWith_iff {i : Instr} {s : State} {r : Except Err (List Byte)} (h : Concludes i s r)
    (c : BitVec 8) : FailsWith i s c ↔
      (∃ e, r = .error e ∧ c = e.code) ∨ ∃ out, r = .ok out ∧ s.cfg.obufCap.val < out.length ∧ c = 0x03#8 := by
  cases r with
  | error e =>
    have he : FailsWith i s e.code := h
    constructor
    · exact fun hc => .inl ⟨e, rfl, hc.unique he⟩
    · rintro (⟨_, ⟨⟩, rfl⟩ | ⟨_, ⟨⟩, -⟩)
      exact he
  | ok out =>
    by_cases hfit : out.length ≤ s.cfg.obufCap.val
    · have hout : Completes i s out := by simpa [Concludes, hfit] using h
      refine iff_of_false hout.not_failsWith ?_
      rintro (⟨_, ⟨⟩, -⟩ | ⟨_, ⟨⟩, hlt, -⟩)
      exact absurd hfit (Nat.not_le.2 hlt)
    · have hcap : FailsWith i s 0x03#8 := by simpa [Concludes, hfit] using h
      constructor
      · exact fun hc => .inr ⟨out, rfl, Nat.lt_of_not_le hfit, hc.unique hcap⟩
      · rintro (⟨_, ⟨⟩, -⟩ | ⟨_, -, -, rfl⟩)
        exact hcap

/-- No byte has to be loaded for an input of length 0. -/
theorem State.inputIs_nil {s : State} (h : s.inLen = 0#32) : s.inputIs [] :=
  ⟨by simp [h], Nat.zero_le _, fun _ hk => absurd hk (Nat.not_lt_zero _)⟩

/-- Settles O16: the input, the capacities and the registers the command uses fix its result, and the result and
`OBUF_CAP` fix how it ends. -/
theorem resultDependsOnlyOnOperands : Obligations.ResultDependsOnlyOnOperands := by
  intro i s s' x hx hx' hcfg hagree
  have hend := concludes_commandResult i hx
  have hend' := concludes_commandResult i hx'
  rw [hcfg, ← unitOf_congr s.cfg hagree] at hend'
  constructor
  · intro y
    rw [hend.completes_iff, hend'.completes_iff, hcfg]
  · intro c
    rw [hend.failsWith_iff, hend'.failsWith_iff, hcfg]

/-- Settles O14: accepted parameters give a unit's function, which the empty input never reaches. -/
theorem emptyInputGivesEmptyOutput : Obligations.EmptyInputGivesEmptyOutput := by
  intro i s hlen haccepted
  obtain ⟨f, hf⟩ := unitOf_of_accepted s.cfg haccepted
  have hend := concludes_commandResult i (State.inputIs_nil hlen)
  rw [hf, commandResult_some_nil] at hend
  exact (hend.completes_iff []).2 ⟨rfl, Nat.zero_le _⟩

end Sys2Proof.Machine
end

section
/-!
PROOFS. The state of the block between commands: what each host operation leaves, said once as a relation, and from it
the frames of the operations and the invariant.
-/

namespace Sys2Proof.Machine

/-! What a step can leave. -/

/-- The two ends of a command that ran from `s`: a success with an output that fits, or one error (30_encoding.md R72). -/
def State.Ends (s t : State) : Prop :=
  (∃ out, out.length ≤ s.cfg.obufCap.val ∧ t = s.succeed out) ∨ ∃ e, t = s.fail e

/-- The input side after a `LOAD` of `x` (30_encoding.md R90). -/
def State.withInput (s : State) (x : List Byte) : State :=
  { s with ibuf := s.ibuf.writeBytes 0 x, inLen := BitVec.ofNat 32 x.length }

/-- `Leaves s op t`: the host operation `op` performed on `s` can leave `t`. -/
inductive Leaves (s : State) : HostOp → State → Prop
  | reset : Leaves s .reset s.resetBlock
  | run {op : Byte} {t : State} (h : (s.withCmd op).Ends t) : Leaves s (.run op) t
  | setCmd {v : Word} {t : State} (hv : v.toNat ≤ 255) (h : (s.withCmd (v.setWidth 8)).Ends t) : Leaves s (.set 0 v) t
  | setReg {n : Nat} (v : Word) (hn : n ≠ 0) : Leaves s (.set n v) (s.writeReg n v)
  | writeIbuf {k : Nat} (b : Byte) (hk : k < s.cfg.ibufCap.val) :
      Leaves s (.writeIbuf k b) { s with ibuf := s.ibuf.write k b }
  | writeObuf (k : Nat) (b : Byte) : Leaves s (.writeObuf k b) s
  | load {x : List Byte} (hx : x.length ≤ s.cfg.ibufCap.val) : Leaves s (.load x) (s.withInput x)
  | pipe {x : List Byte} (n : Nat) (hx : x.length ≤ s.cfg.ibufCap.val) :
      Leaves s .pipe ((s.withDraws n).withInput x)
  | readReg (k n : Nat) (x : Seen) : Leaves s (.readReg k) ((s.withDraws n).record x)
  | readObuf (k n : Nat) (x : Seen) : Leaves s (.readObuf k) ((s.withDraws n).record x)
  | readIbuf (k n : Nat) (x : Seen) : Leaves s (.readIbuf k) ((s.withDraws n).record x)
  | expectReg (k : Nat) (v : Word) (n : Nat) (x : Seen) : Leaves s (.expectReg k v) ((s.withDraws n).record x)
  | expectObuf (y : List Byte) (n : Nat) (x : Seen) : Leaves s (.expectObuf y) ((s.withDraws n).record x)

theorem ends_of_issue {op : Byte} {s t : State} (h : issue op s = .next t) : (s.withCmd op).Ends t := by
  obtain ⟨out, hfit, hout⟩ | ⟨e, he⟩ := issue_next op s
  · cases hout.symm.trans h
    exact .inl ⟨out, hfit, rfl⟩
  · cases he.symm.trans h
    exact .inr ⟨e, rfl⟩

theorem withInput_of_hostLoad {x : List Byte} {s t : State} (h : hostLoad x s = .next t) :
    x.length ≤ s.cfg.ibufCap.val ∧ t = s.withInput x := by
  obtain ⟨hfit, hload⟩ | ⟨-, hload⟩ := hostLoad_cases x s
  · cases hload.symm.trans h
    exact ⟨hfit, rfl⟩
  · cases hload.symm.trans h

/-- Everything a host operation that does not stop can leave. -/
theorem leaves_of_perform {op : HostOp} {s t : State} (h : perform op s = .next t) : Leaves s op t := by
  cases op with
  | reset => cases h; exact .reset
  | run op => exact .run (ends_of_issue h)
  | set n v =>
    obtain ⟨rfl, hv, hset⟩ | ⟨-, -, hset⟩ | ⟨hn, hset⟩ := hostSet_cases n v s
    · exact .setCmd hv (ends_of_issue (hset.symm.trans h))
    · cases hset.symm.trans h
    · cases hset.symm.trans h
      exact .setReg v hn
  | writeIbuf k b =>
    obtain ⟨hk, hwrite⟩ | ⟨-, hwrite⟩ := hostWriteIbuf_cases k b s
    · cases hwrite.symm.trans h
      exact .writeIbuf b hk
    · cases hwrite.symm.trans h
  | writeObuf k b => cases h; exact .writeObuf k b
  | load x =>
    obtain ⟨hx, rfl⟩ := withInput_of_hostLoad h
    exact .load hx
  | pipe =>
    obtain ⟨hx, rfl⟩ := withInput_of_hostLoad h
    exact .pipe _ hx
  | readReg k => cases h; exact .readReg k _ _
  | expectReg k v => cases h; exact .expectReg k v _ _
  | expectObuf y => cases h; exact .expectObuf y _ _
  | readObuf k =>
    obtain ⟨-, hread⟩ | ⟨-, hread⟩ := hostReadObuf_cases k s
    · cases hread.symm.trans h
      exact .readObuf k _ _
    · cases hread.symm.trans h
  | readIbuf k =>
    obtain ⟨-, hread⟩ | ⟨-, hread⟩ := hostReadIbuf_cases k s
    · cases hread.symm.trans h
      exact .readIbuf k _ _
    · cases hread.symm.trans h

theorem leaves_of_step {op : HostOp} {rest : List HostOp} {s t : State} (hhost : s.host = op :: rest)
    (h : step s = .next t) : Leaves (s.withHost rest) op t :=
  leaves_of_perform ((step_cons hhost).symm.trans h)

/-! The invariant. -/

/-- The invariant speaks of the output side and of `IBUF` only, so an operation that leaves the output side has the
canonical form of `IBUF` to keep. -/
theorem State.Inv.of_outputSide {s t : State} (h : s.Inv) (hcfg : t.cfg = s.cfg) (hcmd : t.cmd = s.cmd)
    (hstatus : t.status = s.status) (herr : t.err = s.err) (hout : t.outLen = s.outLen) (hobuf : t.obuf = s.obuf)
    (hwf : t.ibuf.wf = true) (hwithin : t.ibuf.within s.cfg.ibufCap.val = true) : t.Inv where
  ibufWf := hwf
  ibufWithin := hcfg ▸ hwithin
  obufWf := hobuf ▸ h.obufWf
  obufWithin := hcfg ▸ hobuf ▸ h.obufWithin
  outputCells := hobuf ▸ hout ▸ h.outputCells
  statusLegal := hstatus ▸ h.statusLegal
  errAgrees := hstatus ▸ herr ▸ h.errAgrees
  errLegal := herr ▸ h.errLegal
  outputOnlyDone := hstatus ▸ hout ▸ h.outputOnlyDone
  idleFresh := hstatus ▸ hcmd ▸ h.idleFresh

theorem State.Inv.withInput {s : State} (h : s.Inv) {x : List Byte} (hx : x.length ≤ s.cfg.ibufCap.val) :
    (s.withInput x).Inv :=
  h.of_outputSide rfl rfl rfl rfl rfl rfl (Memory.writeBytes_wf _ _ _ h.ibufWf)
    (Memory.writeBytes_within _ _ _ _ (by omega) h.ibufWithin)

theorem State.Inv.withDraws {s : State} (h : s.Inv) (n : Nat) : (s.withDraws n).Inv :=
  h.of_outputSide rfl rfl rfl rfl rfl rfl h.ibufWf h.ibufWithin

theorem State.Inv.record {s : State} (h : s.Inv) (x : Seen) : (s.record x).Inv :=
  h.of_outputSide rfl rfl rfl rfl rfl rfl h.ibufWf h.ibufWithin

theorem State.Inv.withHost {s : State} (h : s.Inv) (ops : List HostOp) : (s.withHost ops).Inv :=
  h.of_outputSide rfl rfl rfl rfl rfl rfl h.ibufWf h.ibufWithin

theorem State.Inv.writeReg {s : State} (h : s.Inv) (n : Nat) (v : Word) : (s.writeReg n v).Inv :=
  h.of_outputSide (by simp) (by simp) (by simp) (by simp) (by simp) (by simp) (by simpa using h.ibufWf)
    (by simpa using h.ibufWithin)

theorem State.Inv.writeIbuf {s : State} (h : s.Inv) {k : Nat} (hk : k < s.cfg.ibufCap.val) (b : Byte) :
    ({ s with ibuf := s.ibuf.write k b } : State).Inv :=
  h.of_outputSide rfl rfl rfl rfl rfl rfl (Memory.write_wf _ _ _ h.ibufWf)
    (Memory.write_within _ _ _ _ hk h.ibufWithin)

/-- A reset gives the invariant from every state. -/
theorem State.resetBlock_inv (s : State) : s.resetBlock.Inv where
  ibufWf := rfl
  ibufWithin := rfl
  obufWf := rfl
  obufWithin := rfl
  outputCells := by simp
  statusLegal := by simp
  errAgrees := by simp
  errLegal := by simp
  outputOnlyDone := fun _ => rfl
  idleFresh := fun _ => rfl

/-- An output that fits leaves the invariant, whatever the state held but `IBUF`. -/
theorem State.succeed_inv {s : State} {out : List Byte} (hwf : s.ibuf.wf = true)
    (hwithin : s.ibuf.within s.cfg.ibufCap.val = true) (hfit : out.length ≤ s.cfg.obufCap.val) :
    (s.succeed out).Inv where
  ibufWf := hwf
  ibufWithin := hwithin
  obufWf := Memory.ofBytes_wf 0 out
  obufWithin := (Memory.within_iff _ _).2 fun c hc => by
    obtain ⟨-, hlt⟩ := Memory.mem_ofBytes 0 out c hc
    exact lt_of_lt_of_le (by omega) hfit
  outputCells k := by
    obtain ⟨-, -, hlen, hread⟩ := s.succeed_doneWith out (lt_of_le_of_lt hfit s.cfg.obufCap.isLt)
    rw [hlen, hread k, isSome_getElem?]
  statusLegal := by simp [statusDone]
  errAgrees := by simp [statusDone, codeNone]
  errLegal := by simp [codeNone]
  outputOnlyDone h := absurd rfl h
  idleFresh h := absurd h (by simp [statusDone])

/-- The code of an error is one of the table, and none of them is `E_NONE` (60_exceptions.md R281). -/
theorem Err.code_legal (e : Err) : e.code ≠ 0x00#8 ∧
    e.code ∈ [0x00#8, 0x01#8, 0x02#8, 0x03#8, 0x10#8, 0x11#8, 0x12#8, 0x13#8, 0x14#8, 0x15#8, 0x16#8, 0x17#8, 0x18#8,
      0x19#8, 0x1A#8, 0x1B#8] := by
  cases e <;> decide

/-- An error leaves the invariant, whatever the state held but `IBUF`. -/
theorem State.fail_inv {s : State} (e : Err) (hwf : s.ibuf.wf = true)
    (hwithin : s.ibuf.within s.cfg.ibufCap.val = true) : (s.fail e).Inv where
  ibufWf := hwf
  ibufWithin := hwithin
  obufWf := rfl
  obufWithin := rfl
  outputCells := by simp
  statusLegal := by simp [statusError]
  errAgrees := iff_of_true e.code_legal.1 rfl
  errLegal := e.code_legal.2
  outputOnlyDone _ := rfl
  idleFresh h := absurd h (by simp [statusError])

/-- A command changes `CMD` first, which the invariant need not survive; both ends restore it. -/
theorem State.Inv.of_ends {s t : State} {op : Byte} (h : s.Inv) (hends : (s.withCmd op).Ends t) : t.Inv := by
  obtain ⟨out, hfit, rfl⟩ | ⟨e, rfl⟩ := hends
  · exact State.succeed_inv h.ibufWf h.ibufWithin hfit
  · exact State.fail_inv e h.ibufWf h.ibufWithin

theorem State.Inv.of_leaves {s t : State} {op : HostOp} (h : s.Inv) (hleaves : Leaves s op t) : t.Inv := by
  cases hleaves with
  | reset => exact s.resetBlock_inv
  | run hends | setCmd _ hends => exact h.of_ends hends
  | setReg v _ => exact h.writeReg _ v
  | writeIbuf b hk => exact h.writeIbuf hk b
  | writeObuf k b => exact h
  | load hx => exact h.withInput hx
  | pipe n hx => exact (h.withDraws n).withInput hx
  | readReg | readObuf | readIbuf | expectReg | expectObuf => exact (h.withDraws _).record _

/-- Settles O18: with no operation left the state stays, and whatever the next one leaves keeps the invariant. -/
theorem stepKeepsInvariant : Obligations.StepKeepsInvariant := by
  intro s t h hstep
  cases hhost : s.host with
  | nil =>
    cases (step_nil hhost).symm.trans hstep
    exact h
  | cons op rest => exact (h.withHost rest).of_leaves (leaves_of_step hhost hstep)

/-- Settles O17: the state after reset is what a reset leaves of itself. -/
theorem invariantHoldsAtReset : Obligations.InvariantHoldsAtReset := State.reset.resetBlock_inv

/-! The frames of the host operations. -/

/-- A command leaves everything but `CMD`, `STATUS`, `ERR`, `OUT_LEN` and `OBUF`. -/
theorem State.Ends.frame {s t : State} (h : s.Ends t) : s.sameInputSide t := by
  obtain ⟨out, -, rfl⟩ | ⟨e, rfl⟩ := h
  · exact s.succeed_sameInputSide out
  · exact s.fail_sameInputSide e

/-- Settles O10: each clause is read off what the operation can leave. -/
theorem onlyCommandsTouchTheOutputSide : Obligations.OnlyCommandsTouchTheOutputSide := by
  intro s t op rest hhost hstep
  cases leaves_of_step hhost hstep with
  | reset => simp
  | run hends | setCmd _ hends =>
    obtain ⟨hibuf, hin, -, hparams, hcfg, hops, hseen, hdraws⟩ := hends.frame
    simp [hibuf, hin, hparams, hcfg, hops, hseen, hdraws]
  | setReg _ hn => simp [hn]
  | writeIbuf | writeObuf => simp
  | load | pipe => simp [State.withInput]
  | readReg | readObuf | readIbuf | expectReg | expectObuf => simp

/-! The opcode in `CMD`. -/

/-- The opcode byte of an 8-bit table row is the row's bits. -/
@[simp] theorem tableOpcode_toNat (op : Byte) : tableOpcode 8 op.toNat = op := by
  rw [tableOpcode, Nat.mod_eq_of_lt op.isLt, byteOf_toNat]

theorem decodeOp_of_decodeBytes {op : Byte} {i : Instr} (h : decodeBytes [op] = .ok (i, [])) : decodeOp op = .ok i := by
  cases hop : decodeOp op with
  | ok j =>
    simp only [decodeBytes, hop] at h
    cases h
    rfl
  | error e => simp [decodeBytes, hop] at h

/-- A `SET` of `CMD` with a byte issues it. -/
theorem hostSet_cmd (op : Byte) (s : State) : hostSet 0 (op.setWidth 32) s = issue op s := by
  have hle : (op.setWidth 32).toNat ≤ 255 := by
    have := op.isLt
    simp only [BitVec.toNat_setWidth]
    omega
  have hbyte : (op.setWidth 32).setWidth 8 = op := by simp
  rw [hostSet, if_pos rfl, if_pos hle, hbyte]

/-- Settles O3: all three ways of writing `CMD` issue the opcode, which decodes. -/
theorem stepRunsDecodedCommand : Obligations.StepRunsDecodedCommand := by
  intro s op i rest hdecode
  have hissue := issue_of_decode (decodeOp_of_decodeBytes hdecode)
  refine ⟨fun hrun => ?_, fun hset => ?_, ?_⟩
  · exact (step_cons hrun).trans (hissue _)
  · exact (step_cons hset).trans ((hostSet_cmd op _).trans (hissue _))
  · rw [step_withFetchWord, tableOpcode_toNat]
    exact hissue s

/-! Reset. -/

theorem State.resetBlock_isReset (s : State) : s.resetBlock.isReset := by
  simp [State.isReset, Params.reset]

/-- Settles O5: a reset keeps no register and no buffer, and the state after reset is a reset of itself. -/
theorem resetStateTable : Obligations.ResetStateTable :=
  ⟨State.reset.resetBlock_isReset, fun _ _ hreset => ⟨_, step_cons hreset, State.resetBlock_isReset _⟩⟩

/-! Host writes. -/

/-- A host write of an existing register that stores is read back. -/
theorem State.readReg_writeReg_same (s : State) {n : Nat} (v : Word) (hn : n = 3 ∨ (5 ≤ n ∧ n ≤ 13)) :
    (s.writeReg n v).readReg n = some v := by
  obtain rfl | ⟨hlow, hhigh⟩ := hn
  · rfl
  · interval_cases n <;> rfl

/-- A host write of a register leaves every other one: by the register written and the one read. -/
theorem State.readReg_writeReg_ne (s : State) {n m : Nat} (v : Word) (hm : m ≠ n) :
    (s.writeReg n v).readReg m = s.readReg m := by
  unfold State.writeReg
  split
  all_goals
    unfold State.readReg
    split
  any_goals rfl
  all_goals exact absurd rfl hm

/-- A `SET` of a register other than `CMD` writes it. -/
theorem step_set {s : State} {n : Nat} {v : Word} {rest : List HostOp} (hset : s.host = .set n v :: rest)
    (hn : n ≠ 0) : step s = .next ((s.withHost rest).writeReg n v) :=
  (step_cons hset).trans (if_neg hn)

/-- A `SET` of a register that does not store is the operation taken from the list and nothing else. -/
theorem step_set_ignored {s : State} {n : Nat} {v : Word} {rest : List HostOp} (hset : s.host = .set n v :: rest)
    (hn : n = 1 ∨ n = 2 ∨ n = 4 ∨ 14 ≤ n) : step s = .next (s.withHost rest) := by
  rw [step_set hset (by omega), State.writeReg_ignored _ n v (by omega)]

theorem step_writeIbuf {s : State} {k : Nat} {b : Byte} {rest : List HostOp}
    (hwrite : s.host = .writeIbuf k b :: rest) (hk : k < s.cfg.ibufCap.val) :
    step s = .next { s with host := rest, ibuf := s.ibuf.write k b } :=
  (step_cons hwrite).trans (if_neg (Nat.not_le.2 hk))

/-- Settles O6: by the register written, and by what a buffer reads after a write. -/
theorem hostWritesStoreOneValue : Obligations.HostWritesStoreOneValue := by
  constructor
  · intro s n v rest hset
    refine ⟨fun hn => ⟨_, step_set hset (by omega), State.readReg_writeReg_same _ v hn,
      fun m hm => State.readReg_writeReg_ne _ v hm, by simp⟩, ?_, ?_, ?_, ?_, ?_, ?_, ?_, ?_, ?_, ?_,
      fun hn => step_set_ignored hset hn⟩
    all_goals
      rintro rfl
      exact step_set hset (by decide)
  · intro s k b rest
    refine ⟨fun hwrite hk => ⟨_, step_writeIbuf hwrite hk, ?_, fun j hj => ?_, fun _ => rfl, rfl, rfl, rfl, rfl, rfl⟩,
      fun hwrite => step_cons hwrite⟩
    · simp [Memory.read_write]
    · simp [Memory.read_write, hj.symm]

/-! Host reads. -/

/-- The output of a success is what a comparison of `OBUF` reads, and no free value is drawn. -/
theorem State.doneWith.drawBytes_obuf {s : State} {y : List Byte} (h : s.doneWith y) (draws : Nat) :
    s.obuf.drawBytes draws 0 s.outLen.toNat = (y, draws) := by
  obtain ⟨-, -, hlen, hread⟩ := h
  refine Memory.drawBytes_eq _ _ _ _ _ ((Memory.readBytes_eq_some _ _ _ _).2 ⟨hlen.symm, fun j _ => ?_⟩)
  rw [Nat.zero_add, hread]

@[simp] theorem State.withHost_readReg (s : State) (ops : List HostOp) (n : Nat) :
    (s.withHost ops).readReg n = s.readReg n := rfl

/-- A register number above 13 names no register. -/
theorem State.readReg_of_le (s : State) {n : Nat} (hn : 14 ≤ n) : s.readReg n = none := by
  obtain ⟨k, rfl⟩ := Nat.exists_eq_add_of_le' hn
  rfl

section

variable {s : State} {rest : List HostOp} {k d : Nat}

theorem step_readReg {w : Word} (hhost : s.host = .readReg k :: rest) (hdraw : drawWord s.draws (s.readReg k) = (w, d)) :
    step s = .next { s with host := rest, seen := s.seen ++ [.reg k w], draws := d } := by
  rw [step_cons hhost]
  simp only [perform, hostReadReg, State.withHost_draws, State.withHost_readReg, hdraw]
  rfl

theorem step_expectReg {v w : Word} (hhost : s.host = .expectReg k v :: rest)
    (hdraw : drawWord s.draws (s.readReg k) = (w, d)) :
    step s = .next { s with host := rest, seen := s.seen ++ [.expect (decide (w = v))], draws := d } := by
  rw [step_cons hhost]
  simp only [perform, hostExpectReg, State.withHost_draws, State.withHost_readReg, hdraw]
  rfl

theorem step_readObuf {b : Byte} (hhost : s.host = .readObuf k :: rest) (hk : k < s.cfg.obufCap.val)
    (hdraw : drawByte s.draws (s.obuf.read k) = (b, d)) :
    step s = .next { s with host := rest, seen := s.seen ++ [.obuf k b], draws := d } := by
  rw [step_cons hhost]
  simp only [perform, hostReadObuf, State.withHost_cfg, if_neg (Nat.not_le.2 hk), State.withHost_draws,
    State.withHost_obuf, hdraw]
  rfl

theorem step_readIbuf {b : Byte} (hhost : s.host = .readIbuf k :: rest) (hk : k < s.cfg.ibufCap.val)
    (hdraw : drawByte s.draws (s.ibuf.read k) = (b, d)) :
    step s = .next { s with host := rest, seen := s.seen ++ [.ibuf k b], draws := d } := by
  rw [step_cons hhost]
  simp only [perform, hostReadIbuf, State.withHost_cfg, if_neg (Nat.not_le.2 hk), State.withHost_draws,
    State.withHost_ibuf, hdraw]
  rfl

theorem step_expectObuf {x y : List Byte} (hhost : s.host = .expectObuf x :: rest)
    (hdraw : s.obuf.drawBytes s.draws 0 s.outLen.toNat = (y, d)) :
    step s = .next { s with host := rest, seen := s.seen ++ [.expect (decide (y = x))], draws := d } := by
  rw [step_cons hhost]
  simp only [perform, hostExpectObuf, State.withHost_draws, State.withHost_obuf, State.withHost_outLen, hdraw]
  rfl

end

/-- Settles O9: a read draws from its place, which either holds a value or does not. -/
theorem hostReadsReturnContents : Obligations.HostReadsReturnContents := by
  intro s rest
  refine ⟨⟨rfl, rfl, rfl, rfl, rfl, rfl, rfl, rfl, rfl, rfl, rfl, rfl, rfl, rfl, fun n hn => s.readReg_of_le hn⟩,
    fun n hhost => ⟨fun v hv => ?_, fun hv => ?_⟩, fun k hhost hk => ⟨fun b hb => ?_, fun hb => ?_⟩,
    fun k hhost hk => ⟨fun b hb => ?_, fun hb => ?_⟩, fun n v w hhost hw => ?_, fun x y hhost hdone => ?_⟩
  · exact step_readReg hhost (by rw [hv, drawWord_some])
  · exact step_readReg hhost (by rw [hv, drawWord_none])
  · exact step_readObuf hhost hk (by rw [hb, drawByte_some])
  · exact step_readObuf hhost hk (by rw [hb, drawByte_none])
  · exact step_readIbuf hhost hk (by rw [hb, drawByte_some])
  · exact step_readIbuf hhost hk (by rw [hb, drawByte_none])
  · exact step_expectReg hhost (by rw [hw, drawWord_some])
  · exact step_expectObuf hhost (hdone.drawBytes_obuf s.draws)

end Sys2Proof.Machine
end

section
/-!
PROOFS. The encoding of commands and the host operations around them (30_encoding.md): the opcode map, the illegal
opcodes, each command's end as its unit's function says, and `LOAD`, `PIPE` and `DEFAULTS`.
-/

namespace Sys2Proof.Machine

/-! The opcode map. -/

theorem decodeOp_opcode (i : Instr) : decodeOp (opcode i) = .ok i := by
  cases i <;> rfl

/-- The two fields of 30_encoding.md R70 make up the byte. -/
theorem toNat_eq_fields (op : Byte) : op.toNat = 16 * opFamily op + opFunction op := by
  have hlt := op.isLt
  simp only [opFamily, opFunction, BitVec.extractLsb'_toNat, Nat.shiftRight_eq_div_pow]
  omega

/-- A byte with the two fields of an opcode is that opcode. -/
theorem eq_of_fields {op op' : Byte} (hfamily : opFamily op = opFamily op')
    (hfunction : opFunction op = opFunction op') : op = op' := by
  apply BitVec.eq_of_toNat_eq
  rw [toNat_eq_fields, toNat_eq_fields, hfamily, hfunction]

/-- The opcode map is one to one: each row of `decodeOp` names the fields of its command's opcode. -/
theorem decodeOp_eq_ok_iff {op : Byte} {i : Instr} : decodeOp op = .ok i ↔ op = opcode i := by
  constructor
  · intro h
    unfold decodeOp at h
    split at h <;> cases h
    all_goals
      rename_i hfamily hfunction
      exact eq_of_fields hfamily hfunction
  · rintro rfl
    exact decodeOp_opcode i

/-- The sixteen commands, in the order of 30_encoding.md R71. -/
def commands : List Instr :=
  [.rlecEnc, .rlecDec, .rlepEnc, .rlepDec, .mtfEnc, .mtfDec, .bwtEnc, .bwtDec, .hufEnc, .hufDec, .hufBuild, .lz77Enc,
    .lz77Dec, .lzssEnc, .lz78Enc, .lz78Dec]

theorem mem_commands (i : Instr) : i ∈ commands := by
  cases i <;> decide

theorem exists_decodeOp_iff (op : Byte) : (∃ i, decodeOp op = .ok i) ↔ op ∈ commands.map opcode := by
  simp [decodeOp_eq_ok_iff, mem_commands, eq_comm (a := op)]

/-- Settles O1: the rows of the map, and no others because the legal bytes are the opcodes of the commands. -/
theorem opcodeWordsDecode : Obligations.OpcodeWordsDecode :=
  ⟨rfl, rfl, rfl, rfl, rfl, rfl, rfl, rfl, rfl, rfl, rfl, rfl, rfl, rfl, rfl, rfl, exists_decodeOp_iff⟩

/-- Settles O2: both directions of the opcode map. -/
theorem decodeInvertsEncode : Obligations.DecodeInvertsEncode := by
  constructor
  · intro i rest
    simp [encode, decodeBytes, decodeOp_opcode]
  · intro op i hdecode
    rw [encode, decodeOp_eq_ok_iff.1 hdecode]

/-! The illegal opcodes. -/

theorem issue_of_ne_opcode {op : Byte} (hop : ∀ i, op ≠ opcode i) (s : State) :
    issue op s = .next ((s.withCmd op).fail .illegalCmd) := by
  unfold issue
  cases hdecode : decodeOp op with
  | ok i => exact absurd (decodeOp_eq_ok_iff.1 hdecode) (hop i)
  | error e => rfl

/-- Settles O4: no command's opcode is in the nine ranges. -/
theorem illegalOpcodeFails : Obligations.IllegalOpcodeFails := by
  intro s op rest hrun hrange
  have hop : ∀ i, op ≠ opcode i := by
    rintro i rfl
    revert hrange
    cases i <;> decide
  exact ⟨_, (step_cons hrun).trans (issue_of_ne_opcode hop _), State.fail_failedWith _ _,
    State.fail_sameInputSide _ _⟩

/-! The end of each command. -/

/-- Every unit's function gives the empty output for the empty input, so step 4 of 30_encoding.md R72 is no exception to
the steps after it. -/
theorem unitOf_apply_nil {c : Config} {p : Params} {i : Instr} {f : List Byte → Except Err (List Byte)}
    (hf : unitOf c p i = some f) : f [] = .ok [] := by
  cases i with
  | mtfEnc | mtfDec | lz77Enc | lzssEnc =>
    obtain ⟨_, -, rfl⟩ := Option.map_eq_some_iff.1 hf
    rfl
  | _ =>
    cases hf
    rfl

/-- With its input loaded and its parameters accepted a command ends as its unit's function says. -/
theorem concludes_of_unitOf {i : Instr} {s : State} {x : List Byte} {f : List Byte → Except Err (List Byte)}
    (hx : s.inputIs x) (hf : unitOf s.cfg s.params i = some f) : Concludes i s (f x) := by
  have hend := concludes_commandResult i hx
  by_cases hnil : x = []
  · subst hnil
    rwa [hf, commandResult_some_nil, ← unitOf_apply_nil hf] at hend
  · rwa [hf, commandResult_some_of_ne_nil f hnil] at hend

/-! The unit's functions that the checks of step 3 let through. -/

section

variable {c : Config} {p : Params} {w la : Word}

theorem mtfOperand_of_le (h : p.mtfAlpha.toNat ≤ 256) : mtfOperand p = some p.mtfAlpha.toNat := if_pos h

theorem unitOf_mtfEnc (h : p.mtfAlpha.toNat ≤ 256) : unitOf c p .mtfEnc = some (mtfEnc p.mtfAlpha.toNat) := by
  rw [unitOf, mtfOperand_of_le h, Option.map_some]

theorem unitOf_mtfDec (h : p.mtfAlpha.toNat ≤ 256) : unitOf c p .mtfDec = some (mtfDec p.mtfAlpha.toNat) := by
  rw [unitOf, mtfOperand_of_le h, Option.map_some]

theorem unitOf_lz77Enc (hw : p.lz77Window = some w) (hla : p.lz77Lookahead = some la) (hwle : w.toNat ≤ 65535)
    (hlale : la.toNat ≤ 65535) : unitOf c p .lz77Enc = some fun d => .ok (lz77Enc w.toNat la.toNat d) := by
  simp [unitOf, lz77Operand, hw, hla, boundedOperand_of_le hwle, boundedOperand_of_le hlale]

theorem unitOf_lzssEnc (hw : p.lzssWindow = some w) (hla : p.lzssLookahead = some la) :
    unitOf c p .lzssEnc = some fun d => .ok (lzssEnc w.toNat la.toNat p.lzssMinMatch.toNat d) := by
  simp [unitOf, lzssOperand, hw, hla, boundedOperand_of_le (Nat.le_of_lt_succ w.isLt),
    boundedOperand_of_le (Nat.le_of_lt_succ la.isLt)]

end

/-- Settles O15: the accepted parameters of each command choose its unit's function. -/
theorem commandConcludesAsUnit : Obligations.CommandConcludesAsUnit := by
  intro s x hx
  have hend {i f r} (hf : unitOf s.cfg s.params i = some f) (hr : f x = r) : Concludes i s r :=
    hr ▸ concludes_of_unitOf hx hf
  exact ⟨hend rfl rfl, hend rfl rfl, hend rfl rfl, hend rfl rfl,
    fun halpha => ⟨hend (unitOf_mtfEnc halpha) rfl, hend (unitOf_mtfDec halpha) rfl⟩,
    hend rfl rfl, hend rfl rfl, hend rfl rfl, hend rfl rfl, hend rfl rfl,
    fun _ _ hw hla hwle hlale => hend (unitOf_lz77Enc hw hla hwle hlale) rfl, hend rfl rfl,
    fun _ _ hw hla => hend (unitOf_lzssEnc hw hla) rfl, hend rfl rfl, hend rfl rfl⟩

/-! `LOAD`, `PIPE` and `DEFAULTS`. -/

theorem State.withInput_read (s : State) (x : List Byte) (k : Nat) :
    (s.withInput x).ibuf.read k = if k < x.length then x[k]? else s.ibuf.read k := by
  simp [State.withInput, Memory.read_writeBytes]

theorem State.withInput_inputIs {s : State} {x : List Byte} (hx : x.length ≤ s.cfg.ibufCap.val) :
    (s.withInput x).inputIs x := by
  refine ⟨?_, hx, fun k hk => ?_⟩
  · exact Nat.mod_eq_of_lt (lt_of_le_of_lt hx s.cfg.ibufCap.isLt)
  · rw [State.withInput_read, if_pos hk]

theorem State.withInput_read_of_le (s : State) {x : List Byte} {k : Nat} (hk : x.length ≤ k) :
    (s.withInput x).ibuf.read k = s.ibuf.read k := by
  rw [State.withInput_read, if_neg (Nat.not_lt.2 hk)]

theorem hostLoad_of_le {x : List Byte} {s : State} (hx : x.length ≤ s.cfg.ibufCap.val) :
    hostLoad x s = .next (s.withInput x) := if_neg (Nat.not_lt.2 hx)

/-- Settles O7: a `LOAD` that fits leaves `State.withInput`. -/
theorem loadWritesInput : Obligations.LoadWritesInput := by
  intro s x rest hload hx
  exact ⟨_, (step_cons hload).trans (hostLoad_of_le hx), State.withInput_inputIs hx,
    fun k hk => State.withInput_read_of_le _ hk, rfl, rfl, rfl, rfl, rfl, rfl, rfl, rfl, rfl, rfl⟩

/-- After a success `PIPE` loads the output, and draws no free value. -/
theorem hostPipe_of_doneWith {s : State} {y : List Byte} (hdone : s.doneWith y) (hy : y.length ≤ s.cfg.ibufCap.val) :
    hostPipe s = .next (s.withInput y) := by
  unfold hostPipe
  rw [hdone.drawBytes_obuf]
  exact hostLoad_of_le hy

/-- The `IN_LEN` that `PIPE` leaves is the `OUT_LEN` of the success. -/
theorem State.doneWith.withInput_inLen {s : State} {y : List Byte} (hdone : s.doneWith y) :
    (s.withInput y).inLen = s.outLen := by
  obtain ⟨-, -, hlen, -⟩ := hdone
  rw [State.withInput, ← hlen, BitVec.ofNat_toNat, BitVec.setWidth_eq]

/-- A run whose first host operation is a `SET` of a register other than `CMD`. -/
theorem run_set {s : State} {n : Nat} {v : Word} {rest : List HostOp} (k : Nat) (hset : s.host = .set n v :: rest)
    (hn : n ≠ 0) :
    Host.Core.run Sys2Proof.core (k + 1) s = Host.Core.run Sys2Proof.core k ((s.withHost rest).writeReg n v) := by
  have hstep : Sys2Proof.core.step s = .next ((s.withHost rest).writeReg n v) := step_set hset hn
  simp only [Host.Core.run, hstep]

/-- Settles O8: `PIPE` is a `LOAD` of the output, and each `SET` of `DEFAULTS` writes its register. -/
theorem pseudoOperationsExpand : Obligations.PseudoOperationsExpand := by
  constructor
  · intro s y rest hpipe hdone hy
    have hdone' : (s.withHost rest).doneWith y := hdone
    have hinput := State.withInput_inputIs (s := s.withHost rest) hy
    refine ⟨_, (step_cons hpipe).trans (hostPipe_of_doneWith hdone' hy), fun k hk => ?_,
      fun k hk => State.withInput_read_of_le _ hk, hdone'.withInput_inLen, hinput, rfl, rfl, rfl, rfl, rfl, rfl, rfl,
      rfl, rfl, rfl⟩
    obtain ⟨-, -, -, hobuf⟩ := hdone
    obtain ⟨-, -, hibuf⟩ := hinput
    rw [hibuf k hk, hobuf]
  · intro s rest hdefaults
    simp only [defaultsScript, List.cons_append, List.nil_append] at hdefaults
    rw [run_set 4 hdefaults (by decide), run_set 3 (State.writeReg_host _ _ _) (by decide),
      run_set 2 (State.writeReg_host _ _ _) (by decide), run_set 1 (State.writeReg_host _ _ _) (by decide),
      run_set 0 (State.writeReg_host _ _ _) (by decide)]
    simp only [Host.Core.run, State.writeReg, State.withHost]

end Sys2Proof.Machine
end

section
/-!
PROOFS. The control-byte RLE codec (40_rle_control.md): the run length, the literal block, the encoder's scan and the
decoder's loop, each by its equations, and the round trip from both.
-/

namespace Sys2Proof.Machine

/-! The run length (40_rle_control.md R101). -/

theorem countRun_le_cap (v : Byte) (cap : Nat) (d : List Byte) : countRun v cap d ≤ cap := by
  fun_induction countRun v cap d with
  | case1 | case2 | case4 => exact Nat.zero_le _
  | case3 _ _ ih => exact Nat.succ_le_succ ih

/-- The counted bytes are the first ones and all equal. -/
theorem replicate_countRun_prefix (v : Byte) (cap : Nat) (d : List Byte) :
    List.replicate (countRun v cap d) v <+: d := by
  fun_induction countRun v cap d with
  | case1 | case2 | case4 => exact List.nil_prefix
  | case3 _ _ ih => exact List.cons_prefix_cons.2 ⟨rfl, ih⟩

/-- A count below the cap ended at another byte or at the end. -/
theorem getElem?_countRun_ne (v : Byte) (cap : Nat) (d : List Byte) (h : countRun v cap d < cap) :
    d[countRun v cap d]? ≠ some v := by
  fun_induction countRun v cap d with
  | case1 => exact absurd h (Nat.lt_irrefl _)
  | case2 => simp
  | case3 _ _ ih => simpa using ih (Nat.lt_of_succ_lt_succ h)
  | case4 _ _ _ hne => simpa using hne

theorem runLen_pos (cap : Nat) (v : Byte) (rest : List Byte) : 1 ≤ runLen cap (v :: rest) :=
  Nat.le_add_left _ _

theorem runLen_le_cap {cap : Nat} (hcap : 1 ≤ cap) (v : Byte) (rest : List Byte) : runLen cap (v :: rest) ≤ cap := by
  have hcount := countRun_le_cap v (cap - 1) rest
  simp only [runLen]
  omega

/-- The bytes of a run are the first ones and all equal. -/
theorem replicate_runLen_prefix (cap : Nat) (v : Byte) (rest : List Byte) :
    List.replicate (runLen cap (v :: rest)) v <+: v :: rest :=
  List.cons_prefix_cons.2 ⟨rfl, replicate_countRun_prefix v (cap - 1) rest⟩

theorem runLen_le_length (cap : Nat) (v : Byte) (rest : List Byte) :
    runLen cap (v :: rest) ≤ (v :: rest).length := by
  simpa using (replicate_runLen_prefix cap v rest).length_le

theorem take_runLen (cap : Nat) (v : Byte) (rest : List Byte) :
    (v :: rest).take (runLen cap (v :: rest)) = List.replicate (runLen cap (v :: rest)) v := by
  simpa using (List.prefix_iff_eq_take.1 (replicate_runLen_prefix cap v rest)).symm

theorem getElem?_runLen_ne {cap : Nat} {v : Byte} {rest : List Byte} (h : runLen cap (v :: rest) < cap) :
    (v :: rest)[runLen cap (v :: rest)]? ≠ some v :=
  getElem?_countRun_ne v (cap - 1) rest (Nat.lt_sub_of_add_lt h)

/-- Settles O19: the run takes the equal first bytes, and as many as the cap allows. -/
theorem runLengthIsMaximal : Obligations.RunLengthIsMaximal := fun cap v rest hcap =>
  ⟨runLen_pos cap v rest, runLen_le_cap hcap v rest, runLen_le_length cap v rest, take_runLen cap v rest,
    getElem?_runLen_ne⟩

/-! The literal block (40_rle_control.md R105). -/

theorem literalBlock_prefix (m room : Nat) (d : List Byte) : literalBlock m room d <+: d := by
  fun_induction literalBlock m room d with
  | case1 | case2 | case3 => exact List.nil_prefix
  | case4 _ _ _ _ ih => exact List.cons_prefix_cons.2 ⟨rfl, ih⟩

theorem take_literalBlock_length (m room : Nat) (d : List Byte) :
    d.take (literalBlock m room d).length = literalBlock m room d :=
  (List.prefix_iff_eq_take.1 (literalBlock_prefix m room d)).symm

theorem literalBlock_length_le_room (m room : Nat) (d : List Byte) : (literalBlock m room d).length ≤ room := by
  fun_induction literalBlock m room d with
  | case1 | case2 | case3 => exact Nat.zero_le _
  | case4 _ _ _ _ ih => exact Nat.succ_le_succ ih

/-- Why a block closes: it is full, the input ends, or a qualifying run starts after it. -/
theorem literalBlock_closes (m room : Nat) (d : List Byte) :
    (literalBlock m room d).length = room ∨ (literalBlock m room d).length = d.length ∨
      m ≤ runLen 127 (d.drop (literalBlock m room d).length) := by
  fun_induction literalBlock m room d with
  | case1 => exact .inl rfl
  | case2 => exact .inr (.inl rfl)
  | case3 _ _ _ hrun => exact .inr (.inr hrun)
  | case4 _ _ _ _ ih => simpa using ih

/-- No qualifying run starts at a byte of a block. -/
theorem not_run_of_lt_literalBlock_length (m room : Nat) (d : List Byte) (j : Nat)
    (hj : j < (literalBlock m room d).length) : ¬ m ≤ runLen 127 (d.drop j) := by
  fun_induction literalBlock m room d generalizing j with
  | case1 | case2 | case3 => exact absurd hj (Nat.not_lt_zero _)
  | case4 _ _ _ hrun ih =>
    cases j with
    | zero => exact hrun
    | succ j => exact ih j (Nat.lt_of_succ_lt_succ hj)

/-- A block takes at least one byte where no qualifying run starts. -/
theorem literalBlock_length_pos {m : Nat} {v : Byte} {rest : List Byte} (hrun : ¬ m ≤ runLen 127 (v :: rest))
    (room : Nat) : 1 ≤ (literalBlock m (room + 1) (v :: rest)).length := by
  rw [literalBlock, if_neg hrun]
  exact Nat.le_add_left _ _

/-- Settles O20: a block takes the first bytes up to the first of the three reasons. -/
theorem literalBlockClosesFirst : Obligations.LiteralBlockClosesFirst := by
  intro m d
  refine ⟨(take_literalBlock_length m 127 d).symm, literalBlock_length_le_room m 127 d, literalBlock_closes m 127 d,
    not_run_of_lt_literalBlock_length m 127 d, fun hd hrun => ?_⟩
  cases d with
  | nil => exact absurd rfl hd
  | cons v rest => exact literalBlock_length_pos hrun 126

/-! The encoder's scan (40_rle_control.md R103): its equations and its induction. -/

/-- Any two numbers of rounds that reach the input's length give the same tokens, because each round takes a byte. -/
theorem rlecScan_congr (m fuel : Nat) (d : List Byte) :
    d.length ≤ fuel → ∀ k, d.length ≤ k → rlecScan m fuel d = rlecScan m k d := by
  have hleft {n j : Nat} {v : Byte} {rest : List Byte} (hn : 1 ≤ n) (hj : (v :: rest).length ≤ j + 1) :
      ((v :: rest).drop n).length ≤ j := by
    rw [List.length_drop]
    omega
  fun_induction rlecScan m fuel d with
  | case1 d =>
    intro hd
    obtain rfl := List.length_eq_zero_iff.1 (Nat.le_zero.1 hd)
    rintro (_ | k) - <;> rfl
  | case2 => rintro - (_ | k) - <;> rfl
  | case3 fuel v rest r hrun ih =>
    rintro hfuel (_ | k) hk
    · exact absurd hk (Nat.not_succ_le_zero _)
    have hpos : 1 ≤ r := runLen_pos 127 v rest
    rw [ih (hleft hpos hfuel) k (hleft hpos hk)]
    exact (if_pos hrun).symm
  | case4 fuel v rest r hrun lit ih =>
    rintro hfuel (_ | k) hk
    · exact absurd hk (Nat.not_succ_le_zero _)
    have hpos : 1 ≤ lit.length := literalBlock_length_pos hrun 126
    rw [ih (hleft hpos hfuel) k (hleft hpos hk)]
    exact (if_neg hrun).symm

theorem rlecScan_of_length_le {m fuel : Nat} {d : List Byte} (h : d.length ≤ fuel) :
    rlecScan m fuel d = rlecTokens m d :=
  rlecScan_congr m fuel d h _ le_rfl

@[simp] theorem rlecTokens_nil (m : Nat) : rlecTokens m [] = [] := rfl

section

variable {m : Nat} {v : Byte} {rest : List Byte}

/-- What is left after at least one byte is taken is scanned in the rounds that are left. -/
theorem rlecScan_drop (m : Nat) (v : Byte) (rest : List Byte) {n : Nat} (hn : 1 ≤ n) :
    rlecScan m rest.length ((v :: rest).drop n) = rlecTokens m ((v :: rest).drop n) :=
  rlecScan_of_length_le (by rw [List.length_drop, List.length_cons]; omega)

theorem rlecTokens_run (hrun : m ≤ runLen 127 (v :: rest)) :
    rlecTokens m (v :: rest) =
      .run (runLen 127 (v :: rest)) v :: rlecTokens m ((v :: rest).drop (runLen 127 (v :: rest))) := by
  rw [← rlecScan_drop m v rest (runLen_pos 127 v rest)]
  exact if_pos hrun

theorem rlecTokens_lit (hrun : ¬ m ≤ runLen 127 (v :: rest)) :
    rlecTokens m (v :: rest) = .lit (literalBlock m 127 (v :: rest)) ::
      rlecTokens m ((v :: rest).drop (literalBlock m 127 (v :: rest)).length) := by
  rw [← rlecScan_drop m v rest (literalBlock_length_pos hrun 126)]
  exact if_neg hrun

end

/-- Induction along the scan: each token goes on with the bytes after those it stands for. -/
theorem rlecTokens_induction (m : Nat) {motive : List Byte → Prop} (nil : motive [])
    (run : ∀ v rest, m ≤ runLen 127 (v :: rest) → motive ((v :: rest).drop (runLen 127 (v :: rest))) →
      motive (v :: rest))
    (lit : ∀ v rest, ¬ m ≤ runLen 127 (v :: rest) →
      motive ((v :: rest).drop (literalBlock m 127 (v :: rest)).length) → motive (v :: rest))
    (d : List Byte) : motive d := by
  induction hn : d.length using Nat.strong_induction_on generalizing d with
  | _ n ih =>
    subst hn
    cases d with
    | nil => exact nil
    | cons v rest =>
      have hdrop {k : Nat} (hk : 1 ≤ k) : motive ((v :: rest).drop k) :=
        ih _ (by simp only [List.length_drop, List.length_cons]; omega) _ rfl
      by_cases hrun : m ≤ runLen 127 (v :: rest)
      · exact run v rest hrun (hdrop (runLen_pos 127 v rest))
      · exact lit v rest hrun (hdrop (literalBlock_length_pos hrun 126))

/-- The encoder's tokens stand for its input. -/
theorem rlecTokens_meaning (m : Nat) (d : List Byte) : (rlecTokens m d).flatMap rlecTokenMeaning = d := by
  induction d using rlecTokens_induction m with
  | nil => rfl
  | run v rest hrun ih =>
    rw [rlecTokens_run hrun, List.flatMap_cons, ih, rlecTokenMeaning, ← take_runLen, List.take_append_drop]
  | lit v rest hrun ih =>
    rw [rlecTokens_lit hrun, List.flatMap_cons, ih]
    exact List.prefix_append_drop (literalBlock_prefix m 127 _) |>.symm

/-- The encoder's lengths fit the 7-bit field (40_rle_control.md R106). -/
theorem rlecTokens_wf (m : Nat) (d : List Byte) : ∀ t ∈ rlecTokens m d, t.wf = true := by
  induction d using rlecTokens_induction m with
  | nil => simp
  | run v rest hrun ih =>
    rw [rlecTokens_run hrun]
    exact List.forall_mem_cons.2 ⟨decide_eq_true (runLen_le_cap (by decide) v rest), ih⟩
  | lit v rest hrun ih =>
    rw [rlecTokens_lit hrun]
    exact List.forall_mem_cons.2 ⟨decide_eq_true (literalBlock_length_le_room m 127 _), ih⟩

/-! The encoder's stream. -/

theorem rlecEnc_nil (m : Nat) : rlecEnc m [] = [] := rfl

section

variable {m : Nat} {v : Byte} {rest : List Byte}

theorem rlecEnc_run (hrun : m ≤ runLen 127 (v :: rest)) :
    rlecEnc m (v :: rest) = byteOf (runLen 127 (v :: rest)) :: v ::
      rlecEnc m ((v :: rest).drop (runLen 127 (v :: rest))) := by
  rw [rlecEnc, rlecTokens_run hrun]
  rfl

theorem rlecEnc_lit (hrun : ¬ m ≤ runLen 127 (v :: rest)) :
    rlecEnc m (v :: rest) = (0x80#8 ||| byteOf (literalBlock m 127 (v :: rest)).length) ::
      (literalBlock m 127 (v :: rest) ++
        rlecEnc m ((v :: rest).drop (literalBlock m 127 (v :: rest)).length)) := by
  rw [rlecEnc, rlecTokens_lit hrun]
  rfl

end

/-- A token of `n` bytes of input is at most `2 * n` bytes long. -/
theorem rlecEnc_length_le (m : Nat) (d : List Byte) : (rlecEnc m d).length ≤ 2 * d.length := by
  induction d using rlecTokens_induction m with
  | nil => exact le_rfl
  | run v rest hrun ih =>
    have hpos := runLen_pos 127 v rest
    have hle := runLen_le_length 127 v rest
    rw [rlecEnc_run hrun]
    simp only [List.length_drop, List.length_cons] at ih hle ⊢
    omega
  | lit v rest hrun ih =>
    have hpos : 1 ≤ (literalBlock m 127 (v :: rest)).length := literalBlock_length_pos hrun 126
    have hle := (literalBlock_prefix m 127 (v :: rest)).length_le
    rw [rlecEnc_lit hrun]
    simp only [List.length_drop, List.length_cons, List.length_append] at ih hle ⊢
    omega

theorem concludes_rlecEnc {s : State} {x : List Byte} (hx : s.inputIs x) :
    Concludes .rlecEnc s (.ok (rlecEnc s.params.rlecMinRun.toNat x)) :=
  concludes_of_unitOf (f := fun d => .ok (rlecEnc s.params.rlecMinRun.toNat d)) hx rfl

theorem concludes_rlecDec {s : State} {x : List Byte} (hx : s.inputIs x) : Concludes .rlecDec s (rlecDec x) :=
  concludes_of_unitOf hx rfl

/-- Settles O21: the equations of the scan, and how a command concludes whose function raises nothing. -/
theorem rlecEncFollowsScan : Obligations.RlecEncFollowsScan := by
  refine ⟨fun m v rest => ⟨rlecEnc_nil m, rlecEnc_run, rlecEnc_lit⟩,
    fun s x hx => ⟨rlecEnc_length_le _ x, fun hfit => ?_, fun hlong => ?_⟩⟩
  · exact ((concludes_rlecEnc hx).completes_iff _).2 ⟨rfl, hfit⟩
  · exact ((concludes_rlecEnc hx).failsWith_iff _).2 (.inr ⟨_, rfl, hlong, rfl⟩)

/-! The header byte (30_encoding.md R75). -/

/-- Bits 6:0 of a header. -/
theorem header_length (h : Byte) : (h &&& 0x7F#8).toNat = h.toNat % 128 :=
  Nat.and_two_pow_sub_one_eq_mod h.toNat 7

/-- Bit 7 of a header. -/
theorem header_literal_iff (h : Byte) : h &&& 0x80#8 ≠ 0#8 ↔ 128 ≤ h.toNat := by
  revert h
  decide

theorem not_literal_header {h : Byte} (hh : h.toNat < 128) : ¬ h &&& 0x80#8 ≠ 0#8 :=
  mt (header_literal_iff h).1 (Nat.not_le.2 hh)

theorem literal_header_length {h : Byte} (hh : 128 ≤ h.toNat) : (h &&& 0x7F#8).toNat = h.toNat - 128 := by
  have hlt := h.isLt
  rw [header_length]
  omega

theorem toNat_literal_header {n : Nat} (hn : n ≤ 127) : (0x80#8 ||| byteOf n).toNat = 128 + n := by
  rw [BitVec.toNat_or, byteOf_toNat_of_lt (Nat.lt_of_le_of_lt hn (by decide))]
  exact (Nat.two_pow_add_eq_or_of_lt (i := 7) (by omega) 1).symm

/-! The decoder's loop (40_rle_control.md R107): its equations. -/

/-- Any two numbers of rounds that reach the input's length give the same result, because each round takes a header. -/
theorem rlecParse_congr (fuel : Nat) (d : List Byte) :
    d.length ≤ fuel → ∀ k, d.length ≤ k → rlecParse fuel d = rlecParse k d := by
  induction fuel generalizing d with
  | zero =>
    intro hd
    obtain rfl := List.length_eq_zero_iff.1 (Nat.le_zero.1 hd)
    rintro (_ | k) - <;> rfl
  | succ fuel ih =>
    rintro hfuel (_ | k) hk
    · obtain rfl := List.length_eq_zero_iff.1 (Nat.le_zero.1 hk)
      rfl
    obtain _ | ⟨h, rest⟩ := d
    · rfl
    have hleft {left : List Byte} (hle : left.length ≤ rest.length) : rlecParse fuel left = rlecParse k left :=
      ih left (hle.trans (Nat.le_of_succ_le_succ hfuel)) k (hle.trans (Nat.le_of_succ_le_succ hk))
    have hdrop (n : Nat) := hleft (List.drop_sublist n rest).length_le
    cases rest with
    | nil => simp only [rlecParse, hdrop]
    | cons v rest => simp only [rlecParse, hdrop, hleft (Nat.le_succ rest.length)]

theorem rlecParse_of_length_le {fuel : Nat} {d : List Byte} (h : d.length ≤ fuel) : rlecParse fuel d = rlecDec d :=
  rlecParse_congr fuel d h _ le_rfl

@[simp] theorem rlecDec_nil : rlecDec [] = .ok [] := rfl

section

variable {h : Byte} {rest : List Byte}

theorem rlecDec_run (hh : h.toNat < 128) (v : Byte) :
    rlecDec (h :: v :: rest) = (rlecDec rest).map (List.replicate h.toNat v ++ ·) := by
  rw [← rlecParse_of_length_le (Nat.le_succ rest.length), ← Nat.mod_eq_of_lt hh, ← header_length]
  exact if_neg (not_literal_header hh)

theorem rlecDec_noValue (hh : h.toNat < 128) : rlecDec [h] = .error .rlecNoValue :=
  if_neg (not_literal_header hh)

theorem rlecDec_lit (hh : 128 ≤ h.toNat) (hlen : h.toNat - 128 ≤ rest.length) :
    rlecDec (h :: rest) =
      (rlecDec (rest.drop (h.toNat - 128))).map (rest.take (h.toNat - 128) ++ ·) := by
  rw [← literal_header_length hh] at hlen ⊢
  rw [← rlecParse_of_length_le (List.drop_sublist _ rest).length_le]
  exact (if_pos ((header_literal_iff h).2 hh)).trans (if_neg (Nat.not_lt.2 hlen))

theorem rlecDec_overrun (hh : 128 ≤ h.toNat) (hlen : rest.length < h.toNat - 128) :
    rlecDec (h :: rest) = .error .rlecOverrun := by
  rw [← literal_header_length hh] at hlen
  exact (if_pos ((header_literal_iff h).2 hh)).trans (if_pos hlen)

end

/-! The decoder on tokens (40_rle_control.md R109, R111). -/

/-- The decoder takes a token with a 7-bit length off the stream and gives what it stands for. -/
theorem rlecDec_token_append {t : RlecToken} (ht : t.wf = true) (rest : List Byte) :
    rlecDec (rlecTokenBytes t ++ rest) = (rlecDec rest).map (rlecTokenMeaning t ++ ·) := by
  cases t with
  | run len v =>
    have hlen : len ≤ 127 := of_decide_eq_true ht
    have hheader : (byteOf len).toNat = len := byteOf_toNat_of_lt (by omega)
    simpa [rlecTokenBytes, rlecTokenMeaning, hheader] using
      rlecDec_run (rest := rest) (show (byteOf len).toNat < 128 by omega) v
  | lit l =>
    have hheader : (0x80#8 ||| byteOf l.length).toNat = 128 + l.length := toNat_literal_header (of_decide_eq_true ht)
    have hlit := rlecDec_lit (rest := l ++ rest) (h := 0x80#8 ||| byteOf l.length) (by omega)
      (by rw [hheader, List.length_append]; omega)
    simpa [hheader, rlecTokenBytes, rlecTokenMeaning] using hlit

/-- Good tokens before a stream add what they stand for and change no error. -/
theorem rlecDec_tokens_append {toks : List RlecToken} (htoks : ∀ t ∈ toks, t.wf = true) (rest : List Byte) :
    rlecDec (toks.flatMap rlecTokenBytes ++ rest) = (rlecDec rest).map (toks.flatMap rlecTokenMeaning ++ ·) := by
  induction toks with
  | nil => cases h : rlecDec rest <;> simp [h, Except.map]
  | cons t toks ih =>
    obtain ⟨ht, htoks⟩ := List.forall_mem_cons.1 htoks
    rw [List.flatMap_cons, List.append_assoc, rlecDec_token_append ht, ih htoks]
    cases rlecDec rest <;> simp [Except.map]

theorem rlecDec_tokens {toks : List RlecToken} (htoks : ∀ t ∈ toks, t.wf = true) :
    rlecDec (toks.flatMap rlecTokenBytes) = .ok (toks.flatMap rlecTokenMeaning) := by
  simpa [Except.map] using rlecDec_tokens_append htoks []

/-- An error of the stream after good tokens is the error of the whole. -/
theorem failsWith_rlecDec_of_tail {s : State} {toks : List RlecToken} {tail : List Byte} {e : Err}
    (htoks : ∀ t ∈ toks, t.wf = true) (hx : s.inputIs (toks.flatMap rlecTokenBytes ++ tail))
    (htail : rlecDec tail = .error e) : FailsWith .rlecDec s e.code := by
  have hend := concludes_rlecDec hx
  rwa [rlecDec_tokens_append htoks, htail] at hend

/-- Settles O23: the decoder reads each token of the list, and its function raises nothing. -/
theorem rlecDecReadsTokens : Obligations.RlecDecReadsTokens := by
  intro s toks htoks hx
  exact ⟨fun len v => ⟨rfl, rfl⟩, fun l => ⟨rfl, rfl⟩,
    fun hfit => ((concludes_rlecDec hx).completes_iff _).2 ⟨rlecDec_tokens htoks, hfit⟩⟩

/-- Settles O24: the bad token is the first of what is left after the good ones. -/
theorem rlecDecFirstBadToken : Obligations.RlecDecFirstBadToken := by
  intro s toks h rest htoks hx
  constructor
  · rintro hrun rfl
    exact failsWith_rlecDec_of_tail (e := .rlecNoValue) htoks hx (rlecDec_noValue hrun)
  · intro hlit hlen
    exact failsWith_rlecDec_of_tail (e := .rlecOverrun) htoks hx (rlecDec_overrun hlit hlen)

/-! The round trip (40_rle_control.md R110). -/

theorem rlecDec_rlecEnc (m : Nat) (x : List Byte) : rlecDec (rlecEnc m x) = .ok x := by
  rw [rlecEnc, rlecDec_tokens (rlecTokens_wf m x), rlecTokens_meaning]

/-- Settles O22: the encoder's tokens are well formed and stand for its input, and the decoder gives what tokens stand
for. -/
theorem rlecRoundTrip : Obligations.RlecRoundTrip := by
  refine ⟨rlecDec_rlecEnc, fun s s' x y hx henc hy hfit => ?_⟩
  obtain ⟨hout, -⟩ := ((concludes_rlecEnc hx).completes_iff y).1 henc
  cases hout
  exact ((concludes_rlecDec hy).completes_iff x).2 ⟨rlecDec_rlecEnc _ x, hfit⟩

end Sys2Proof.Machine
end

section
/-!
PROOFS. The legacy pair RLE codec (41_rle_pair.md): the encoder's scan by its equations, the decoder on pairs, and the
round trip from both.
-/

namespace Sys2Proof.Machine

/-! The run that opens a list with equal first bytes. -/

theorem countRun_replicate_append {v : Byte} {rest : List Byte} (hrest : rest.head? ≠ some v) (cap n : Nat) :
    countRun v cap (List.replicate n v ++ rest) = min cap n := by
  induction n generalizing cap with
  | zero =>
    cases cap with
    | zero => rfl
    | succ cap =>
      cases rest with
      | nil => rfl
      | cons b rest =>
        have hb : b ≠ v := by simpa using hrest
        exact if_neg hb
  | succ n ih =>
    cases cap with
    | zero => simp [countRun]
    | succ cap => simp [List.replicate_succ, countRun, ih]

theorem runLen_replicate_append {v : Byte} {rest : List Byte} (hrest : rest.head? ≠ some v) (n : Nat) :
    runLen 255 (v :: (List.replicate n v ++ rest)) = min 255 (n + 1) := by
  rw [runLen, countRun_replicate_append hrest]
  omega

/-! The encoder's scan (41_rle_pair.md R121): its equations and its induction. -/

/-- Any two numbers of rounds that reach the input's length give the same pairs, because each round takes a byte. -/
theorem rlepScan_congr (fuel : Nat) (d : List Byte) :
    d.length ≤ fuel → ∀ k, d.length ≤ k → rlepScan fuel d = rlepScan k d := by
  fun_induction rlepScan fuel d with
  | case1 d =>
    intro hd
    obtain rfl := List.length_eq_zero_iff.1 (Nat.le_zero.1 hd)
    rintro (_ | k) - <;> rfl
  | case2 => rintro - (_ | k) - <;> rfl
  | case3 fuel v rest r ih =>
    rintro hfuel (_ | k) hk
    · exact absurd hk (Nat.not_succ_le_zero _)
    have hpos : 1 ≤ r := runLen_pos 255 v rest
    have hleft {j : Nat} (hj : (v :: rest).length ≤ j + 1) : ((v :: rest).drop r).length ≤ j := by
      rw [List.length_drop]
      omega
    rw [ih (hleft hfuel) k (hleft hk)]
    rfl

@[simp] theorem rlepPairs_nil : rlepPairs [] = [] := rfl

theorem rlepPairs_cons (v : Byte) (rest : List Byte) :
    rlepPairs (v :: rest) = { count := runLen 255 (v :: rest), value := v } ::
      rlepPairs ((v :: rest).drop (runLen 255 (v :: rest))) := by
  have hpos := runLen_pos 255 v rest
  have hleft : ((v :: rest).drop (runLen 255 (v :: rest))).length ≤ rest.length := by
    rw [List.length_drop, List.length_cons]
    omega
  exact congrArg (_ :: ·) (rlepScan_congr _ _ hleft _ le_rfl)

/-- Induction along the scan: each pair goes on with the bytes after its run. -/
theorem rlepPairs_induction {motive : List Byte → Prop} (nil : motive [])
    (run : ∀ v rest, motive ((v :: rest).drop (runLen 255 (v :: rest))) → motive (v :: rest))
    (d : List Byte) : motive d := by
  induction hn : d.length using Nat.strong_induction_on generalizing d with
  | _ n ih =>
    subst hn
    cases d with
    | nil => exact nil
    | cons v rest =>
      have hpos := runLen_pos 255 v rest
      exact run v rest (ih _ (by rw [List.length_drop, List.length_cons]; omega) _ rfl)

/-- The encoder's counts are never 0 and fit a byte (41_rle_pair.md R122). -/
theorem rlepPairs_count (d : List Byte) : ∀ p ∈ rlepPairs d, 1 ≤ p.count ∧ p.count ≤ 255 := by
  induction d using rlepPairs_induction with
  | nil => simp
  | run v rest ih =>
    rw [rlepPairs_cons]
    exact List.forall_mem_cons.2 ⟨⟨runLen_pos 255 v rest, runLen_le_cap (by decide) v rest⟩, ih⟩

theorem rlepPairs_wf (d : List Byte) : ∀ p ∈ rlepPairs d, p.wf = true :=
  fun p hp => decide_eq_true (rlepPairs_count d p hp).2

/-- The encoder's pairs stand for its input. -/
theorem rlepPairs_meaning (d : List Byte) : (rlepPairs d).flatMap rlepPairMeaning = d := by
  induction d using rlepPairs_induction with
  | nil => rfl
  | run v rest ih =>
    rw [rlepPairs_cons, List.flatMap_cons, ih, rlepPairMeaning, ← take_runLen, List.take_append_drop]

/-- Every pair takes at least one byte of the input. -/
theorem rlepPairs_length_le (d : List Byte) : (rlepPairs d).length ≤ d.length := by
  induction d using rlepPairs_induction with
  | nil => exact le_rfl
  | run v rest ih =>
    have hpos := runLen_pos 255 v rest
    rw [rlepPairs_cons]
    simp only [List.length_drop, List.length_cons] at ih ⊢
    omega

/-- Without equal neighbours every run is one byte long. -/
theorem rlepPairs_length_of_neighbours_ne {d : List Byte} (hne : ∀ k, k + 1 < d.length → d[k]? ≠ d[k + 1]?) :
    (rlepPairs d).length = d.length := by
  induction d with
  | nil => rfl
  | cons v rest ih =>
    have hhead : rest.head? ≠ some v := by
      intro h
      obtain ⟨tail, rfl⟩ := List.head?_eq_some_iff.1 h
      exact hne 0 (by simp) rfl
    have hrun : runLen 255 (v :: rest) = 1 := runLen_replicate_append hhead 0
    have htail : ∀ k, k + 1 < rest.length → rest[k]? ≠ rest[k + 1]? :=
      fun k hk => hne (k + 1) (Nat.succ_lt_succ hk)
    rw [rlepPairs_cons, hrun, List.length_cons, List.length_cons]
    exact congrArg (· + 1) (ih htail)

/-! The encoder's stream. -/

@[simp] theorem rlepEnc_nil : rlepEnc [] = [] := rfl

theorem rlepEnc_cons (v : Byte) (rest : List Byte) :
    rlepEnc (v :: rest) =
      byteOf (runLen 255 (v :: rest)) :: v :: rlepEnc ((v :: rest).drop (runLen 255 (v :: rest))) := by
  rw [rlepEnc, rlepPairs_cons]
  rfl

theorem rlepEnc_length (d : List Byte) : (rlepEnc d).length = 2 * (rlepPairs d).length := by
  simp [rlepEnc, List.length_flatMap, rlepPairBytes, Nat.mul_comm]

/-- The pair at the start of a maximal run of `n + 1` bytes takes as many of them as a count can hold. -/
theorem rlepEnc_replicate_append {v : Byte} {rest : List Byte} (hrest : rest.head? ≠ some v) (n : Nat) :
    rlepEnc (List.replicate (n + 1) v ++ rest) =
      byteOf (min 255 (n + 1)) :: v :: rlepEnc (List.replicate (n + 1 - 255) v ++ rest) := by
  have hdrop : (List.replicate (n + 1) v ++ rest).drop (min 255 (n + 1)) =
      List.replicate (n + 1 - 255) v ++ rest := by
    have hleft : n + 1 - min 255 (n + 1) = n + 1 - 255 := by omega
    rw [List.drop_append_of_le_length (by simp), List.drop_replicate, hleft]
  rw [← hdrop, List.replicate_succ, List.cons_append, rlepEnc_cons, runLen_replicate_append hrest]

/-- A maximal run is cut into `q` pairs of count 255 and a last pair with what is left (41_rle_pair.md R122). -/
theorem rlepEnc_long_run {v : Byte} {rest : List Byte} (hrest : rest.head? ≠ some v) (q : Nat) {r : Nat}
    (hr : r < 255) :
    rlepEnc (List.replicate (255 * q + r) v ++ rest) =
      (List.replicate q [0xFF#8, v]).flatten ++ (if r = 0 then [] else [byteOf r, v]) ++ rlepEnc rest := by
  induction q with
  | zero =>
    cases r with
    | zero => simp
    | succ r =>
      have hmin : min 255 (r + 1) = r + 1 := by omega
      have hleft : r + 1 - 255 = 0 := by omega
      rw [Nat.mul_zero, Nat.zero_add, rlepEnc_replicate_append hrest, hmin, hleft]
      simp
  | succ q ih =>
    have hn : 255 * (q + 1) + r = 255 * q + r + 254 + 1 := by omega
    have hmin : min 255 (255 * q + r + 254 + 1) = 255 := by omega
    have hleft : 255 * q + r + 254 + 1 - 255 = 255 * q + r := by omega
    rw [hn, rlepEnc_replicate_append hrest, hmin, hleft, ih]
    simp [List.replicate_succ]

/-! The decoder (41_rle_pair.md R124 to R126). -/

theorem rlepDec_of_odd {x : List Byte} (hodd : x.length % 2 = 1) : rlepDec x = .error .rlepOdd := if_pos hodd

theorem rlepDec_of_even {x : List Byte} (heven : x.length % 2 = 0) : rlepDec x = .ok (rlepExpand x) :=
  if_neg (by omega)

/-- The expansion of well-formed pairs is what they stand for. -/
theorem rlepExpand_pairs {pairs : List RlepPair} (hpairs : ∀ p ∈ pairs, p.wf = true) :
    rlepExpand (pairs.flatMap rlepPairBytes) = pairs.flatMap rlepPairMeaning := by
  induction pairs with
  | nil => rfl
  | cons p pairs ih =>
    obtain ⟨hp, hpairs⟩ := List.forall_mem_cons.1 hpairs
    have hcount : (byteOf p.count).toNat = p.count :=
      byteOf_toNat_of_lt (Nat.lt_succ_of_le (of_decide_eq_true hp))
    simp [rlepPairBytes, rlepPairMeaning, rlepExpand, hcount, ih hpairs]

theorem rlepDec_pairs {pairs : List RlepPair} (hpairs : ∀ p ∈ pairs, p.wf = true) :
    rlepDec (pairs.flatMap rlepPairBytes) = .ok (pairs.flatMap rlepPairMeaning) := by
  have heven : (pairs.flatMap rlepPairBytes).length % 2 = 0 := by
    simp [List.length_flatMap, rlepPairBytes]
  rw [rlepDec_of_even heven, rlepExpand_pairs hpairs]

/-- Two bytes are always a well-formed pair. -/
theorem exists_pairs_of_even (x : List Byte) (heven : x.length % 2 = 0) :
    ∃ pairs : List RlepPair, (∀ p ∈ pairs, p.wf = true) ∧ x = pairs.flatMap rlepPairBytes := by
  induction x using List.twoStepInduction with
  | nil => exact ⟨[], by simp, rfl⟩
  | singleton => exact absurd heven (by simp)
  | cons_cons count value rest ih _ =>
    obtain ⟨pairs, hpairs, rfl⟩ := ih (by simpa [Nat.add_assoc] using heven)
    have hcount : count.toNat ≤ 255 := Nat.le_of_lt_succ count.isLt
    exact ⟨{ count := count.toNat, value } :: pairs, List.forall_mem_cons.2 ⟨decide_eq_true hcount, hpairs⟩,
      by simp [rlepPairBytes]⟩

/-- A pair stands for at most 255 bytes. -/
theorem rlepExpand_length_le (x : List Byte) : (rlepExpand x).length ≤ 255 * (x.length / 2) := by
  fun_induction rlepExpand x with
  | case1 count value rest ih =>
    have hlt := count.isLt
    simp only [List.length_append, List.length_replicate, List.length_cons]
    omega
  | case2 => exact Nat.zero_le _

theorem rlepDec_length_le {x y : List Byte} (h : rlepDec x = .ok y) : y.length ≤ 255 * (x.length / 2) := by
  rcases Nat.mod_two_eq_zero_or_one x.length with heven | hodd
  · cases (rlepDec_of_even heven).symm.trans h
    exact rlepExpand_length_le x
  · cases (rlepDec_of_odd hodd).symm.trans h

theorem rlepDec_rlepEnc (x : List Byte) : rlepDec (rlepEnc x) = .ok x := by
  rw [rlepEnc, rlepDec_pairs (rlepPairs_wf x), rlepPairs_meaning]

/-! The commands. -/

theorem concludes_rlepEnc {s : State} {x : List Byte} (hx : s.inputIs x) : Concludes .rlepEnc s (.ok (rlepEnc x)) :=
  concludes_of_unitOf (f := fun d => .ok (rlepEnc d)) hx rfl

theorem concludes_rlepDec {s : State} {x : List Byte} (hx : s.inputIs x) : Concludes .rlepDec s (rlepDec x) :=
  concludes_of_unitOf hx rfl

/-- Settles O27: the encoder's pairs are well formed and stand for its input, and the decoder gives what pairs stand
for. -/
theorem rlepRoundTrip : Obligations.RlepRoundTrip := by
  refine ⟨rlepDec_rlepEnc, fun x y => rlepDec_length_le, fun s s' x y hx henc hy hfit => ?_⟩
  obtain ⟨hout, -⟩ := ((concludes_rlepEnc hx).completes_iff y).1 henc
  cases hout
  exact ((concludes_rlepDec hy).completes_iff x).2 ⟨rlepDec_rlepEnc x, hfit⟩

/-- Settles O25: the equations of the scan, a maximal run cut at 255, and how a command concludes whose function raises
nothing. -/
theorem rlepEncPairs : Obligations.RlepEncPairs := by
  refine ⟨fun v rest => ⟨rlepEnc_nil, rlepEnc_cons v rest⟩, fun n v rest hrest => ?_,
    fun d => ⟨rfl, rlepPairs_count d, rlepPairs_meaning d, ?_, ?_, fun hne => ?_⟩,
    fun s x hx => ⟨fun hfit => ?_, fun hlong => ?_⟩⟩
  · simpa [Nat.div_add_mod] using rlepEnc_long_run hrest (n / 255) (Nat.mod_lt n (by decide))
  · rw [rlepEnc_length, Nat.mul_mod_right]
  · rw [rlepEnc_length]
    exact Nat.mul_le_mul_left 2 (rlepPairs_length_le d)
  · rw [rlepEnc_length, rlepPairs_length_of_neighbours_ne hne]
  · exact ((concludes_rlepEnc hx).completes_iff _).2 ⟨rfl, hfit⟩
  · exact ((concludes_rlepEnc hx).failsWith_iff _).2 (.inr ⟨_, rfl, hlong, rfl⟩)

/-- Settles O26: an input of even length is the bytes of well-formed pairs, which the decoder reads; one of odd length
is refused. -/
theorem rlepDecExactly : Obligations.RlepDecExactly := by
  refine fun s x hx => ⟨fun p => ⟨rfl, rfl⟩, fun hodd => ?_, fun heven => ?_⟩
  · exact ((concludes_rlepDec hx).failsWith_iff _).2 (.inl ⟨_, rlepDec_of_odd hodd, rfl⟩)
  · obtain ⟨pairs, hpairs, rfl⟩ := exists_pairs_of_even x heven
    exact ⟨pairs, hpairs, rfl,
      fun hfit => ((concludes_rlepDec hx).completes_iff _).2 ⟨rlepDec_pairs hpairs, hfit⟩⟩

end Sys2Proof.Machine
end

section
/-!
PROOFS. Move-To-Front (42_mtf.md): the move to the front on a split list, the two loops as total functions behind one
check of the alphabet, and the round trip by prefixes of rank lists.
-/

namespace Sys2Proof.Machine

/-! The move to the front (42_mtf.md R131). -/

/-- Moving the element after `front` to the front, on a list split at that element. -/
theorem moveToFront_append_cons (front rest : List Byte) (c : Byte) :
    moveToFront (front ++ c :: rest) front.length = c :: (front ++ rest) := by
  simp [moveToFront, List.drop_append]

/-- A list split at a position it has. -/
theorem exists_split_at {list : List Byte} {p : Nat} (hp : p < list.length) :
    ∃ front c rest, list = front ++ c :: rest ∧ p = front.length :=
  ⟨list.take p, list[p], list.drop (p + 1), by simp, by simp [hp.le]⟩

/-- A list split at the first occurrence of a byte it holds. -/
theorem exists_split_at_idxOf {list : List Byte} {c : Byte} (hc : c ∈ list) :
    ∃ front rest, list = front ++ c :: rest ∧ list.idxOf c = front.length ∧ c ∉ front := by
  obtain ⟨front, rest, rfl, hfront⟩ := List.eq_append_cons_of_mem hc
  exact ⟨front, rest, rfl, by rw [List.idxOf_append_of_notMem hfront]; simp, hfront⟩

theorem moveToFront_perm (list : List Byte) (p : Nat) : (moveToFront list p).Perm list := by
  have htake : list.take p ++ (list.drop p).take 1 = list.take (p + 1) := List.take_add.symm
  calc moveToFront list p
    _ = (list.drop p).take 1 ++ list.take p ++ list.drop (p + 1) := rfl
    List.Perm _ (list.take p ++ (list.drop p).take 1 ++ list.drop (p + 1)) := List.perm_append_comm.append_right _
    _ = list := by rw [htake, List.take_append_drop]

@[simp] theorem moveToFront_length (list : List Byte) (p : Nat) : (moveToFront list p).length = list.length :=
  (moveToFront_perm list p).length_eq

@[simp] theorem mem_moveToFront {list : List Byte} {p : Nat} {b : Byte} : b ∈ moveToFront list p ↔ b ∈ list :=
  (moveToFront_perm list p).mem_iff

@[simp] theorem moveToFront_zero (list : List Byte) : moveToFront list 0 = list := by
  cases list <;> rfl

/-- What stands after the moved position stays where it is. -/
theorem moveToFront_append {list : List Byte} {p : Nat} (hp : p < list.length) (tail : List Byte) :
    moveToFront (list ++ tail) p = moveToFront list p ++ tail := by
  obtain ⟨front, c, rest, rfl, rfl⟩ := exists_split_at hp
  rw [List.append_assoc, List.cons_append, moveToFront_append_cons, moveToFront_append_cons]
  simp

/-! The rank list at the start (42_mtf.md R131). -/

@[simp] theorem rankList_length (alpha : Nat) : (rankList alpha).length = alpha := by
  simp [rankList]

theorem getElem?_rankList {alpha k : Nat} (hk : k < alpha) : (rankList alpha)[k]? = some (byteOf k) := by
  simp [rankList, hk]

theorem rankList_nodup {alpha : Nat} (halpha : alpha ≤ 256) : (rankList alpha).Nodup := by
  refine List.Nodup.map_on (fun j hj k hk hjk => ?_) List.nodup_range
  rw [List.mem_range] at hj hk
  rw [← byteOf_toNat_of_lt (hj.trans_le halpha), hjk, byteOf_toNat_of_lt (hk.trans_le halpha)]

theorem mem_rankList {alpha : Nat} (halpha : alpha ≤ 256) {b : Byte} : b ∈ rankList alpha ↔ b.toNat < alpha := by
  simp only [rankList, List.mem_map, List.mem_range]
  constructor
  · rintro ⟨k, hk, rfl⟩
    rwa [byteOf_toNat_of_lt (hk.trans_le halpha)]
  · exact fun hb => ⟨b.toNat, hb, byteOf_toNat b⟩

/-- At the start the rank of a byte is its value. -/
theorem idxOf_rankList {alpha : Nat} (halpha : alpha ≤ 256) {b : Byte} (hb : b.toNat < alpha) :
    (rankList alpha).idxOf b = b.toNat := by
  have hlt : b.toNat < (rankList alpha).length := by rwa [rankList_length]
  have hget : (rankList alpha)[b.toNat] = b := by simp [rankList]
  simpa only [hget] using (rankList_nodup halpha).idxOf_getElem b.toNat hlt

/-- The rank list of a smaller alphabet opens that of a larger one. -/
theorem rankList_prefix {alpha alpha' : Nat} (h : alpha ≤ alpha') : rankList alpha <+: rankList alpha' := by
  obtain ⟨n, rfl⟩ := Nat.exists_eq_add_of_le h
  rw [rankList, rankList, List.range_add, List.map_append]
  exact List.prefix_append _ _

/-- Settles O28: a position splits the list, and the move takes the element between the parts to the front. -/
theorem moveToFrontKeepsSymbols : Obligations.MoveToFrontKeepsSymbols := by
  refine ⟨fun alpha halpha => ⟨rankList_length alpha, rankList_nodup halpha, fun k => getElem?_rankList⟩,
    fun list p hp => ⟨moveToFront_perm list p, ?_⟩⟩
  obtain ⟨front, c, rest, rfl, rfl⟩ := exists_split_at hp
  rw [moveToFront_append_cons]
  refine ⟨by simp, fun q hq => ?_, fun q hq => ?_, moveToFront_zero _⟩
  · rw [List.getElem?_cons_succ, List.getElem?_append_left hq, List.getElem?_append_left hq]
  · obtain ⟨n, rfl⟩ := Nat.exists_eq_add_of_lt hq
    have hle : front.length ≤ front.length + n := Nat.le_add_right _ _
    rw [List.getElem?_cons_succ, List.getElem?_append_right hle, List.getElem?_append_right (by omega)]
    simp [Nat.add_assoc]

/-! The two loops behind the check of the alphabet (42_mtf.md R132, R133, R135, R136). -/

/-- The output `y` of a loop that raises `F_MTF_RANGE` when a byte of its input `x` is outside the alphabet. -/
def ifBelow (alpha : Nat) (x y : List Byte) : Except Err (List Byte) :=
  if ∀ b ∈ x, b.toNat < alpha then .ok y else .error .mtfRange

section

variable {alpha : Nat} {x y : List Byte}

theorem ifBelow_of_lt (hx : ∀ b ∈ x, b.toNat < alpha) : ifBelow alpha x y = .ok y := if_pos hx

theorem ifBelow_of_le (hx : ∃ b ∈ x, alpha ≤ b.toNat) : ifBelow alpha x y = .error .mtfRange :=
  if_neg (by simpa using hx)

theorem ifBelow_eq_ok_iff {z : List Byte} : ifBelow alpha x y = .ok z ↔ (∀ b ∈ x, b.toNat < alpha) ∧ y = z := by
  unfold ifBelow
  split <;> simp_all

/-- The check of the whole input is the check of each byte in its round. -/
theorem ifBelow_cons (b out : Byte) : ifBelow alpha (b :: x) (out :: y) =
    if b.toNat ≥ alpha then .error .mtfRange else (ifBelow alpha x y).map (out :: ·) := by
  by_cases hb : alpha ≤ b.toNat
  · rw [if_pos hb, ifBelow_of_le ⟨b, List.mem_cons_self, hb⟩]
  · rw [if_neg hb]
    by_cases hx : ∀ b ∈ x, b.toNat < alpha
    · rw [ifBelow_of_lt hx, ifBelow_of_lt (List.forall_mem_cons.2 ⟨Nat.lt_of_not_le hb, hx⟩), Except.map]
    · have hx' : ¬ ∀ c ∈ b :: x, c.toNat < alpha := fun h => hx (List.forall_mem_cons.1 h).2
      rw [ifBelow, ifBelow, if_neg hx, if_neg hx', Except.map]

end

/-- The ranks of 42_mtf.md R132, without the check of the alphabet. -/
def ranksFrom : List Byte → List Byte → List Byte
  | _, [] => []
  | list, b :: rest => byteOf (list.idxOf b) :: ranksFrom (moveToFront list (list.idxOf b)) rest

/-- The symbols of 42_mtf.md R135, without the check of the alphabet. -/
def symbolsFrom : List Byte → List Byte → List Byte
  | _, [] => []
  | list, p :: rest => list.getD p.toNat 0#8 :: symbolsFrom (moveToFront list p.toNat) rest

theorem mtfRanks_eq (alpha : Nat) (list x : List Byte) :
    mtfRanks alpha list x = ifBelow alpha x (ranksFrom list x) := by
  induction x generalizing list with
  | nil => exact (ifBelow_of_lt (by simp)).symm
  | cons b rest ih => rw [ranksFrom, ifBelow_cons, ← ih, mtfRanks]

theorem mtfSymbols_eq (alpha : Nat) (list x : List Byte) :
    mtfSymbols alpha list x = ifBelow alpha x (symbolsFrom list x) := by
  induction x generalizing list with
  | nil => exact (ifBelow_of_lt (by simp)).symm
  | cons p rest ih => rw [symbolsFrom, ifBelow_cons, ← ih, mtfSymbols]

theorem mtfEnc_eq (alpha : Nat) (x : List Byte) : mtfEnc alpha x = ifBelow alpha x (ranksFrom (rankList alpha) x) :=
  mtfRanks_eq alpha _ x

theorem mtfDec_eq (alpha : Nat) (x : List Byte) : mtfDec alpha x = ifBelow alpha x (symbolsFrom (rankList alpha) x) :=
  mtfSymbols_eq alpha _ x

@[simp] theorem ranksFrom_length (list x : List Byte) : (ranksFrom list x).length = x.length := by
  induction x generalizing list with
  | nil => rfl
  | cons b rest ih => exact congrArg (· + 1) (ih _)

@[simp] theorem symbolsFrom_length (list x : List Byte) : (symbolsFrom list x).length = x.length := by
  induction x generalizing list with
  | nil => rfl
  | cons p rest ih => exact congrArg (· + 1) (ih _)

/-- A rank is read back from its byte: the list has at most 256 entries. -/
theorem toNat_rank {list : List Byte} {b : Byte} (hlen : list.length ≤ 256) (hb : b ∈ list) :
    (byteOf (list.idxOf b)).toNat = list.idxOf b :=
  byteOf_toNat_of_lt ((List.idxOf_lt_length_of_mem hb).trans_le hlen)

/-- Ranks of bytes of the list are positions of the list. -/
theorem ranksFrom_lt {list x : List Byte} (hlen : list.length ≤ 256) (hx : ∀ b ∈ x, b ∈ list) :
    ∀ p ∈ ranksFrom list x, p.toNat < list.length := by
  induction x generalizing list with
  | nil => simp [ranksFrom]
  | cons b rest ih =>
    obtain ⟨hb, hrest⟩ := List.forall_mem_cons.1 hx
    refine List.forall_mem_cons.2 ⟨?_, ?_⟩
    · rw [toNat_rank hlen hb]
      exact List.idxOf_lt_length_of_mem hb
    · simpa using ih (list := moveToFront list (list.idxOf b)) (by simpa using hlen) (by simpa using hrest)

/-- Positions of the list decode to bytes of the list. -/
theorem symbolsFrom_mem {list x : List Byte} (hx : ∀ p ∈ x, p.toNat < list.length) :
    ∀ b ∈ symbolsFrom list x, b ∈ list := by
  induction x generalizing list with
  | nil => simp [symbolsFrom]
  | cons p rest ih =>
    obtain ⟨hp, hrest⟩ := List.forall_mem_cons.1 hx
    refine List.forall_mem_cons.2 ⟨?_, ?_⟩
    · rw [List.getD_eq_getElem _ _ hp]
      exact List.getElem_mem hp
    · simpa using ih (list := moveToFront list p.toNat) (by simpa using hrest)

/-! The round trip (42_mtf.md R138). -/

/-- From the same list the decoder's loop undoes the encoder's. -/
theorem symbolsFrom_ranksFrom {list x : List Byte} (hlen : list.length ≤ 256) (hx : ∀ b ∈ x, b ∈ list) :
    symbolsFrom list (ranksFrom list x) = x := by
  induction x generalizing list with
  | nil => rfl
  | cons b rest ih =>
    obtain ⟨hb, hrest⟩ := List.forall_mem_cons.1 hx
    have hget : list.getD (list.idxOf b) 0#8 = b := by
      rw [List.getD_eq_getElem _ _ (List.idxOf_lt_length_of_mem hb), List.getElem_idxOf]
    rw [ranksFrom, symbolsFrom, toNat_rank hlen hb, hget, ih (by simpa using hlen) (by simpa using hrest)]

/-- Ranks below a list's length are decoded without what follows that list. -/
theorem symbolsFrom_of_prefix {list list' y : List Byte} (hlist : list <+: list')
    (hy : ∀ p ∈ y, p.toNat < list.length) : symbolsFrom list' y = symbolsFrom list y := by
  obtain ⟨tail, rfl⟩ := hlist
  induction y generalizing list with
  | nil => rfl
  | cons p rest ih =>
    obtain ⟨hp, hrest⟩ := List.forall_mem_cons.1 hy
    rw [symbolsFrom, symbolsFrom, moveToFront_append hp, ih (by simpa using hrest), List.getD_append _ _ _ _ hp]

/-- Ranks below both alphabets decode to the same symbols in either. -/
theorem symbolsFrom_rankList_congr {alpha alpha' : Nat} {y : List Byte} (hy : ∀ p ∈ y, p.toNat < alpha)
    (hy' : ∀ p ∈ y, p.toNat < alpha') : symbolsFrom (rankList alpha') y = symbolsFrom (rankList alpha) y := by
  rcases Nat.le_total alpha alpha' with h | h
  · exact symbolsFrom_of_prefix (rankList_prefix h) (by simpa using hy)
  · exact (symbolsFrom_of_prefix (rankList_prefix h) (by simpa using hy')).symm

section

variable {alpha : Nat} {x : List Byte}

theorem ranksFrom_rankList_lt (halpha : alpha ≤ 256) (hx : ∀ b ∈ x, b.toNat < alpha) :
    ∀ p ∈ ranksFrom (rankList alpha) x, p.toNat < alpha := by
  simpa using ranksFrom_lt (list := rankList alpha) (by simpa using halpha) (by simpa [mem_rankList halpha] using hx)

theorem symbolsFrom_rankList_lt (halpha : alpha ≤ 256) (hx : ∀ p ∈ x, p.toNat < alpha) :
    ∀ b ∈ symbolsFrom (rankList alpha) x, b.toNat < alpha := by
  simpa [mem_rankList halpha] using symbolsFrom_mem (list := rankList alpha) (by simpa using hx)

/-- Any alphabet that holds every rank decodes them. -/
theorem mtfDec_ranksFrom {alpha' : Nat} (halpha : alpha ≤ 256) (hx : ∀ b ∈ x, b.toNat < alpha)
    (hy : ∀ p ∈ ranksFrom (rankList alpha) x, p.toNat < alpha') :
    mtfDec alpha' (ranksFrom (rankList alpha) x) = .ok x := by
  rw [mtfDec_eq, ifBelow_of_lt hy, symbolsFrom_rankList_congr (ranksFrom_rankList_lt halpha hx) hy,
    symbolsFrom_ranksFrom (by simpa using halpha) (by simpa [mem_rankList halpha] using hx)]

theorem mtfDec_of_mtfEnc {y : List Byte} (halpha : alpha ≤ 256) (henc : mtfEnc alpha x = .ok y) :
    mtfDec alpha y = .ok x := by
  rw [mtfEnc_eq] at henc
  obtain ⟨hx, rfl⟩ := ifBelow_eq_ok_iff.1 henc
  exact mtfDec_ranksFrom halpha hx (ranksFrom_rankList_lt halpha hx)

end

/-! The commands. -/

/-- A command without its input fails with `E_PARAM`. -/
theorem failsWith_of_no_input (i : Instr) {s : State} (hin : inputOperand s = none) : FailsWith i s 0x02#8 := by
  have hexec : exec i s = .next (s.fail .param) := by cases i <;> exact command_param _ _ s (.inl hin)
  exact FailsWith.of_exec hexec

/-- A completed command had its input and accepted parameters, and its output is its unit's. -/
theorem Completes.exists_unitOf {i : Instr} {s : State} {y : List Byte} (h : Completes i s y) :
    ∃ x f, s.inputIs x ∧ unitOf s.cfg s.params i = some f ∧ f x = .ok y := by
  cases hin : inputOperand s with
  | none => exact absurd (failsWith_of_no_input i hin) h.not_failsWith
  | some x =>
    have hx := (inputOperand_eq_some s x).1 hin
    cases hf : unitOf s.cfg s.params i with
    | none =>
      have hend := concludes_commandResult i hx
      rw [hf, commandResult_none] at hend
      exact absurd hend h.not_failsWith
    | some f => exact ⟨x, f, hx, rfl, (((concludes_of_unitOf hx hf).completes_iff y).1 h).1⟩

/-- Step 3 of 30_encoding.md R72 lets only a legal alphabet through. -/
theorem mtfAlpha_le_of_unitOf {c : Config} {p : Params} {i : Instr} {f : List Byte → Except Err (List Byte)}
    (hi : i = .mtfEnc ∨ i = .mtfDec) (hf : unitOf c p i = some f) : p.mtfAlpha.toNat ≤ 256 := by
  by_contra hlarge
  have hop : mtfOperand p = none := if_neg hlarge
  rcases hi with rfl | rfl <;> simp [unitOf, hop] at hf

/-- The function of an MTF command checks the alphabet and gives one byte of it for each byte of the input. -/
theorem unitOf_mtf {c : Config} {p : Params} {i : Instr} {f : List Byte → Except Err (List Byte)}
    (hi : i = .mtfEnc ∨ i = .mtfDec) (hf : unitOf c p i = some f) (x : List Byte) :
    ∃ y, f x = ifBelow p.mtfAlpha.toNat x y ∧ y.length = x.length ∧
      ((∀ b ∈ x, b.toNat < p.mtfAlpha.toNat) → ∀ b ∈ y, b.toNat < p.mtfAlpha.toNat) := by
  have halpha := mtfAlpha_le_of_unitOf hi hf
  rcases hi with rfl | rfl
  · cases (unitOf_mtfEnc halpha).symm.trans hf
    exact ⟨_, mtfEnc_eq _ x, ranksFrom_length _ x, ranksFrom_rankList_lt halpha⟩
  · cases (unitOf_mtfDec halpha).symm.trans hf
    exact ⟨_, mtfDec_eq _ x, symbolsFrom_length _ x, symbolsFrom_rankList_lt halpha⟩

/-- Settles O32: the decoder undoes the ranks in every alphabet that holds them, and its check refuses the others. -/
theorem mtfRoundTrip : Obligations.MtfRoundTrip := by
  constructor
  · intro alpha x halpha hx
    refine ⟨ranksFrom (rankList alpha) x, (mtfEnc_eq alpha x).trans (ifBelow_of_lt hx),
      mtfDec_ranksFrom halpha hx (ranksFrom_rankList_lt halpha hx),
      fun alpha' _ => ⟨mtfDec_ranksFrom halpha hx, fun hy => ?_⟩⟩
    rw [mtfDec_eq, ifBelow_of_le hy]
  · intro s s' x y hx henc hy hparam hfit
    obtain ⟨-, f, -, hf, -⟩ := henc.exists_unitOf
    have halpha := mtfAlpha_le_of_unitOf (.inl rfl) hf
    obtain ⟨hranks, -⟩ := ((concludes_of_unitOf hx (unitOf_mtfEnc halpha)).completes_iff y).1 henc
    have hdec := concludes_of_unitOf hy (unitOf_mtfDec (hparam ▸ halpha))
    rw [hparam, mtfDec_of_mtfEnc halpha hranks] at hdec
    exact (hdec.completes_iff x).2 ⟨rfl, hfit⟩

/-- Settles O29: both units check the alphabet first and then give one byte for each. -/
theorem mtfRangeExactly : Obligations.MtfRangeExactly := by
  intro i s x hi hx halpha
  obtain ⟨f, hf⟩ : ∃ f, unitOf s.cfg s.params i = some f :=
    unitOf_of_accepted s.cfg (by rcases hi with rfl | rfl <;> exact halpha)
  obtain ⟨y, hfx, hlen, -⟩ := unitOf_mtf hi hf x
  have hend := concludes_of_unitOf hx hf
  rw [hfx] at hend
  constructor
  · intro hlarge
    exact (hend.failsWith_iff _).2 (.inl ⟨.mtfRange, ifBelow_of_le hlarge, rfl⟩)
  · intro hsmall hfit
    exact ⟨y, hlen, (hend.completes_iff y).2 ⟨ifBelow_of_lt hsmall, hlen.trans_le hfit⟩⟩

/-- Settles O30: a completed command passed the check of the alphabet. -/
theorem mtfAlphabetClosure : Obligations.MtfAlphabetClosure := by
  intro i s y hi hy
  obtain ⟨x, f, -, hf, hfx⟩ := hy.exists_unitOf
  obtain ⟨z, hz, -, hclosed⟩ := unitOf_mtf hi hf x
  obtain ⟨hx, rfl⟩ := ifBelow_eq_ok_iff.1 (hz.symm.trans hfx)
  exact hclosed hx

end Sys2Proof.Machine
end

section
/-!
PROOFS. The rank of a byte without the rank list (42_mtf.md R131, R132): where a byte stands after others were moved to
the front, by the distinct ones that moved past it.
-/

namespace Sys2Proof.Machine

/-! One move. -/

section

variable {list : List Byte} {b c d : Byte}

@[simp] theorem idxOf_moveToFront_self (hc : c ∈ list) : (moveToFront list (list.idxOf c)).idxOf c = 0 := by
  obtain ⟨front, rest, hlist, hidx, -⟩ := exists_split_at_idxOf hc
  rw [hidx, hlist, moveToFront_append_cons, List.idxOf_cons_self]

/-- A byte goes one position back when one behind it moves to the front. -/
theorem idxOf_moveToFront_of_ne (hc : c ∈ list) (hb : b ≠ c) :
    (moveToFront list (list.idxOf c)).idxOf b = list.idxOf b + if list.idxOf b < list.idxOf c then 1 else 0 := by
  obtain ⟨front, rest, hlist, hidx, -⟩ := exists_split_at_idxOf hc
  rw [hidx, hlist, moveToFront_append_cons, List.idxOf_cons_ne _ hb.symm]
  by_cases hfront : b ∈ front
  · have hlt := List.idxOf_lt_length_of_mem hfront
    rw [List.idxOf_append_of_mem hfront, List.idxOf_append_of_mem hfront, if_pos hlt]
  · rw [List.idxOf_append_of_notMem hfront, List.idxOf_append_of_notMem hfront, List.idxOf_cons_ne _ hb.symm,
      if_neg (by omega)]
    omega

/-- Two bytes keep their order when a third one moves to the front. -/
theorem idxOf_moveToFront_lt_iff (hc : c ∈ list) (hb : b ≠ c) (hd : d ≠ c) :
    (moveToFront list (list.idxOf c)).idxOf b < (moveToFront list (list.idxOf c)).idxOf d ↔
      list.idxOf b < list.idxOf d := by
  have hbc : list.idxOf c ≠ list.idxOf b := mt (List.idxOf_inj hc).1 hb.symm
  have hdc : list.idxOf c ≠ list.idxOf d := mt (List.idxOf_inj hc).1 hd.symm
  rw [idxOf_moveToFront_of_ne hc hb, idxOf_moveToFront_of_ne hc hd]
  split <;> split <;> omega

end

/-! Several moves. -/

/-- The rank list after the bytes of `h` were moved to the front in turn. -/
def listAfter (list h : List Byte) : List Byte := h.foldl (fun l c => moveToFront l (l.idxOf c)) list

@[simp] theorem listAfter_nil (list : List Byte) : listAfter list [] = list := rfl

@[simp] theorem listAfter_cons (list : List Byte) (c : Byte) (h : List Byte) :
    listAfter list (c :: h) = listAfter (moveToFront list (list.idxOf c)) h := rfl

theorem listAfter_append (list h h' : List Byte) : listAfter list (h ++ h') = listAfter (listAfter list h) h' :=
  List.foldl_append

theorem listAfter_perm (list h : List Byte) : (listAfter list h).Perm list := by
  induction h generalizing list with
  | nil => exact .refl _
  | cons c h ih => exact (ih _).trans (moveToFront_perm list _)

/-- A rank is the position of its byte in the list that the bytes before it left. -/
theorem getElem?_ranksFrom {x : List Byte} {k : Nat} {b : Byte} (hb : x[k]? = some b) (list : List Byte) :
    (ranksFrom list x)[k]? = some (byteOf ((listAfter list (x.take k)).idxOf b)) := by
  induction x generalizing list k with
  | nil => cases hb
  | cons c rest ih =>
    cases k with
    | zero =>
      cases hb
      rfl
    | succ k => exact ih hb _

/-- What stands behind `b` after `c` moved to the front stood there before and is not `c`. -/
theorem filter_behind_moveToFront {list : List Byte} {b c : Byte} (hc : c ∈ list) (hb : b ≠ c)
    (seen : Finset Byte) :
    (seen.filter fun d => (moveToFront list (list.idxOf c)).idxOf b < (moveToFront list (list.idxOf c)).idxOf d) =
      (seen.erase c).filter fun d => list.idxOf b < list.idxOf d := by
  ext d
  by_cases hd : d = c
  · subst hd
    simp [idxOf_moveToFront_self hc]
  · simp [hd, idxOf_moveToFront_lt_iff hc hb hd]

/-- Each distinct byte that stood behind `b` moves past it once. -/
theorem idxOf_listAfter {list h : List Byte} {b : Byte} (hh : ∀ c ∈ h, c ∈ list) (hb : b ∉ h) :
    (listAfter list h).idxOf b =
      list.idxOf b + (h.toFinset.filter fun c => list.idxOf b < list.idxOf c).card := by
  induction h generalizing list with
  | nil => rfl
  | cons c h ih =>
    obtain ⟨hc, hh⟩ := List.forall_mem_cons.1 hh
    obtain ⟨hbc, hb⟩ := List.ne_and_not_mem_of_not_mem_cons hb
    have hinsert : (c :: h).toFinset = insert c (h.toFinset.erase c) := by
      rw [List.toFinset_cons, ← Finset.erase_insert_eq_erase, Finset.insert_erase (Finset.mem_insert_self c _)]
    rw [listAfter_cons, ih (by simpa using hh) hb, filter_behind_moveToFront hc hbc, idxOf_moveToFront_of_ne hc hbc,
      hinsert, Finset.filter_insert]
    split
    · rw [Finset.card_insert_of_notMem (by simp)]
      omega
    · rfl

/-- The distinct bytes of a list that satisfy `q`, counted as the claims count them. -/
theorem card_filter_toFinset (h : List Byte) (q : Byte → Prop) [DecidablePred q] :
    (h.toFinset.filter q).card = (h.dedup.filter fun c => decide (q c)).length := rfl

/-- A new byte is behind its value by the greater bytes that moved past it. -/
theorem idxOf_listAfter_rankList {alpha : Nat} {h : List Byte} {b : Byte} (halpha : alpha ≤ 256)
    (hh : ∀ c ∈ h, c.toNat < alpha) (hb : b.toNat < alpha) (hnew : b ∉ h) :
    (listAfter (rankList alpha) h).idxOf b =
      b.toNat + (h.dedup.filter fun c => decide (b.toNat < c.toNat)).length := by
  rw [idxOf_listAfter (by simpa [mem_rankList halpha] using hh) hnew, idxOf_rankList halpha hb,
    ← card_filter_toFinset]
  congr 2
  refine Finset.filter_congr fun c hc => ?_
  rw [idxOf_rankList halpha (hh c (List.mem_toFinset.1 hc))]

/-- Behind a byte at the front stands every other one. -/
theorem idxOf_listAfter_of_front {list h : List Byte} {b : Byte} (hb : b ∈ list) (hfront : list.idxOf b = 0)
    (hh : ∀ c ∈ h, c ∈ list) (hnew : b ∉ h) : (listAfter list h).idxOf b = h.dedup.length := by
  have hbehind : ∀ c ∈ h.toFinset, 0 < list.idxOf c := by
    intro c hc
    have hne : b ≠ c := fun hbc => hnew (hbc ▸ List.mem_toFinset.1 hc)
    have hidx : list.idxOf b ≠ list.idxOf c := mt (List.idxOf_inj hb).1 hne
    exact Nat.pos_of_ne_zero (hfront ▸ hidx.symm)
  rw [idxOf_listAfter hh hnew, hfront, Nat.zero_add, Finset.filter_true_of_mem hbehind, List.card_toFinset]

/-- The position of a byte depends only on what came after its last occurrence, which put it at the front. -/
theorem idxOf_listAfter_of_occurred {list h : List Byte} {b : Byte} {j : Nat} (hh : ∀ c ∈ h, c ∈ list)
    (hb : h[j]? = some b) (hsince : b ∉ h.drop (j + 1)) :
    (listAfter list h).idxOf b = (h.drop (j + 1)).dedup.length := by
  obtain ⟨hj, hget⟩ := List.getElem?_eq_some_iff.1 hb
  have hmem {c : Byte} (hc : c ∈ h) : c ∈ listAfter list (h.take j) := (listAfter_perm list _).mem_iff.2 (hh c hc)
  have hbmem := hmem (List.mem_of_getElem? hb)
  have hsplit : listAfter list h = listAfter (moveToFront (listAfter list (h.take j))
      ((listAfter list (h.take j)).idxOf b)) (h.drop (j + 1)) := by
    rw [← listAfter_cons, ← hget, ← List.drop_eq_getElem_cons hj, ← listAfter_append, List.take_append_drop]
  rw [hsplit]
  exact idxOf_listAfter_of_front (mem_moveToFront.2 hbmem) (idxOf_moveToFront_self hbmem)
    (fun c hc => mem_moveToFront.2 (hmem (List.mem_of_mem_drop hc))) hsince

/-- Settles O31: the rank is a position in the list the earlier bytes left, where a new byte started at its value and an
earlier one at the front. -/
theorem mtfRanksCountRecency : Obligations.MtfRanksCountRecency := by
  intro alpha x y halpha henc
  rw [mtfEnc_eq] at henc
  obtain ⟨hx, rfl⟩ := ifBelow_eq_ok_iff.1 henc
  refine ⟨ranksFrom_length _ x, fun k b p hb hp => ?_⟩
  have hblt : b.toNat < alpha := hx b (List.mem_of_getElem? hb)
  have htake : ∀ c ∈ x.take k, c.toNat < alpha := fun c hc => hx c (List.mem_of_mem_take hc)
  have hrank : p.toNat = (listAfter (rankList alpha) (x.take k)).idxOf b := by
    have hperm := listAfter_perm (rankList alpha) (x.take k)
    have hp' := (getElem?_ranksFrom hb (rankList alpha)).symm.trans hp
    rw [← Option.some.inj hp', toNat_rank]
    · simpa [hperm.length_eq] using halpha
    · rwa [hperm.mem_iff, mem_rankList halpha]
  rw [hrank]
  exact ⟨idxOf_listAfter_rankList halpha htake hblt, fun j hj hbj hsince => idxOf_listAfter_of_occurred
    (by simpa [mem_rankList halpha] using htake) ((List.getElem?_take_of_lt hj).trans hbj) hsince⟩

end Sys2Proof.Machine
end

section
/-!
PROOFS. The rotation order (43_bwt.md R146, R147): the order of the rotations is Mathlib's order of lists of numbers, and
the model's sort is Mathlib's insertion sort.
-/

namespace Sys2Proof.Machine

/-! Lists of bytes in the order of 43_bwt.md R146. -/

/-- The bytes as unsigned numbers, whose lists Mathlib orders lexicographically. -/
def unsigned (l : List Byte) : List ℕ := l.map BitVec.toNat

@[simp] theorem unsigned_nil : unsigned [] = [] := rfl

@[simp] theorem unsigned_cons (b : Byte) (l : List Byte) : unsigned (b :: l) = b.toNat :: unsigned l := rfl

@[simp] theorem unsigned_length (l : List Byte) : (unsigned l).length = l.length := List.length_map _

theorem unsigned_append (l m : List Byte) : unsigned (l ++ m) = unsigned l ++ unsigned m := List.map_append

theorem unsigned_injective : Function.Injective unsigned :=
  List.map_injective_iff.2 fun _ _ => BitVec.eq_of_toNat_eq

/-- The step of the order that `lexLe` makes; core's lemma is about another `≤` of lists. -/
theorem cons_le_cons_iff {a b : ℕ} {l m : List ℕ} : a :: l ≤ b :: m ↔ a < b ∨ a = b ∧ l ≤ m := by
  rw [le_iff_lt_or_eq, le_iff_lt_or_eq, List.cons.injEq, and_or_left, ← or_assoc]
  exact or_congr_left List.cons_lt_cons_iff

theorem nil_le (l : List ℕ) : [] ≤ l := not_lt.1 (List.not_lt_nil l)

theorem lexLe_iff (l m : List Byte) : lexLe l m = true ↔ unsigned l ≤ unsigned m := by
  fun_induction lexLe l m with
  | case1 m => exact iff_of_true rfl (nil_le _)
  | case2 a l => exact iff_of_false Bool.false_ne_true (not_le.2 (List.nil_lt_cons _ _))
  | case3 l a m ih => simp [ih, cons_le_cons_iff]
  | case4 a l b m hne =>
    have htoNat : a.toNat ≠ b.toNat := mt BitVec.eq_of_toNat_eq hne
    simp [cons_le_cons_iff, htoNat]

theorem lex_iff (l m : List Byte) :
    List.Lex (fun a b : Byte => a.toNat < b.toNat) l m ↔ unsigned l < unsigned m := by
  induction l generalizing m with
  | nil => cases m <;> simp
  | cons a l ih =>
    cases m with
    | nil => simp
    | cons b m => rw [List.cons_lex_cons_iff, ih, unsigned_cons, unsigned_cons, List.cons_lt_cons_iff, BitVec.toNat_inj]

/-- Of lists with heads of one length the heads decide, and behind equal heads the tails. -/
theorem append_le_append_iff {l m : List ℕ} (h : l.length = m.length) (l' m' : List ℕ) :
    l ++ l' ≤ m ++ m' ↔ l < m ∨ l = m ∧ l' ≤ m' := by
  induction l generalizing m with
  | nil => simp [List.length_eq_zero_iff.1 h.symm]
  | cons a l ih =>
    cases m with
    | nil => cases h
    | cons b m =>
      simp only [List.cons_append, cons_le_cons_iff, List.cons_lt_cons_iff, ih (Nat.succ.inj h),
        List.cons.injEq]
      tauto

/-! The sort of the rotations (43_bwt.md R147). -/

theorem orderedInsert_congr {α : Type} {r s : α → α → Prop} [DecidableRel r] [DecidableRel s] {a : α} {l : List α}
    (h : ∀ b ∈ l, r a b ↔ s a b) : l.orderedInsert r a = l.orderedInsert s a := by
  induction l with
  | nil => rfl
  | cons b l ih =>
    obtain ⟨hb, hl⟩ := List.forall_mem_cons.1 h
    simp [hb, ih hl]

/-- An insertion sort compares an element only with those that stand after it. -/
theorem insertionSort_congr {α : Type} {r s : α → α → Prop} [DecidableRel r] [DecidableRel s] {l : List α}
    (h : l.Pairwise fun a b => r a b ↔ s a b) : l.insertionSort r = l.insertionSort s := by
  induction h with
  | nil => rfl
  | @cons a l hhead _ ih =>
    rw [List.insertionSort_cons, List.insertionSort_cons, ih]
    exact orderedInsert_congr (by simpa using hhead)

theorem pairwise_insertionSort_key {α β : Type} [LinearOrder β] (key : α → β) (l : List α) :
    (l.insertionSort fun a b => key a ≤ key b).Pairwise fun a b => key a ≤ key b := by
  have : Std.Total fun a b => key a ≤ key b := ⟨fun a b => le_total _ _⟩
  have : IsTrans α fun a b => key a ≤ key b := ⟨fun _ _ _ => le_trans⟩
  exact List.pairwise_insertionSort _ l

/-- What 43_bwt.md R147 orders the start indices by: the rotation, then the index. -/
def rotationKey (t : List Byte) (i : ℕ) : List ℕ ×ₗ ℕ := toLex (unsigned (rotation t i), i)

theorem rotationKey_le_iff_of_lt (t : List Byte) {i j : ℕ} (h : i < j) :
    rotationKey t i ≤ rotationKey t j ↔ unsigned (rotation t i) ≤ unsigned (rotation t j) := by
  rw [rotationKey, rotationKey, Prod.Lex.toLex_le_toLex, le_iff_lt_or_eq (b := unsigned (rotation t j))]
  simp [h.le]

theorem sortRotations_eq (t : List Byte) (l : List ℕ) :
    sortRotations t l = l.insertionSort fun i j => unsigned (rotation t i) ≤ unsigned (rotation t j) := by
  have hinsert (i : ℕ) (l : List ℕ) : insertRotation t i l =
      l.orderedInsert (fun i j => unsigned (rotation t i) ≤ unsigned (rotation t j)) i := by
    induction l with
    | nil => rfl
    | cons j l ih => simp [insertRotation, lexLe_iff, ih]
  induction l with
  | nil => rfl
  | cons i l ih => rw [sortRotations, hinsert, ih, List.insertionSort_cons]

theorem rotationOrder_eq (t : List Byte) : rotationOrder t =
    (List.range t.length).insertionSort fun i j => rotationKey t i ≤ rotationKey t j := by
  rw [rotationOrder, sortRotations_eq]
  exact insertionSort_congr (List.pairwise_lt_range.imp fun h => (rotationKey_le_iff_of_lt t h).symm)

theorem rotationOrder_perm (t : List Byte) : (rotationOrder t).Perm (List.range t.length) := by
  rw [rotationOrder_eq]
  exact List.perm_insertionSort _ _

theorem rotationOrder_nodup (t : List Byte) : (rotationOrder t).Nodup :=
  (rotationOrder_perm t).nodup_iff.2 List.nodup_range

@[simp] theorem rotationOrder_length (t : List Byte) : (rotationOrder t).length = t.length := by
  rw [(rotationOrder_perm t).length_eq, List.length_range]

theorem mem_rotationOrder {t : List Byte} {i : ℕ} : i ∈ rotationOrder t ↔ i < t.length := by
  rw [(rotationOrder_perm t).mem_iff, List.mem_range]

theorem rotationOrder_pairwise (t : List Byte) :
    (rotationOrder t).Pairwise fun i j => rotationKey t i < rotationKey t j := by
  have hle : (rotationOrder t).Pairwise fun i j => rotationKey t i ≤ rotationKey t j := by
    rw [rotationOrder_eq]
    exact pairwise_insertionSort_key _ _
  refine hle.imp₂ (fun i j hij hne => lt_of_le_of_ne hij fun heq => hne ?_) (rotationOrder_nodup t)
  exact congrArg (fun k => (ofLex k).2) heq

/-- The rows of the sorted table are in ascending order. -/
theorem rotationOrder_pairwise_le (t : List Byte) :
    (rotationOrder t).Pairwise fun i j => unsigned (rotation t i) ≤ unsigned (rotation t j) :=
  (rotationOrder_pairwise t).imp fun hkey => (Prod.Lex.le_iff'.1 hkey.le).1

/-- A rotation by at most the length is Mathlib's. -/
theorem rotation_eq_rotate {t : List Byte} {i : ℕ} (hi : i ≤ t.length) : rotation t i = t.rotate i :=
  (List.rotate_eq_drop_append_take hi).symm

/-- Settles O33: the order is a sort by the rotation and then the index, and no index stands in it twice. -/
theorem rotationOrderSorted : Obligations.RotationOrderSorted := by
  refine fun t => ⟨fun i k hi hk => ?_, rotationOrder_perm t, (rotationOrder_pairwise t).imp fun {i j} hij => ?_⟩
  · rw [rotation_eq_rotate hi.le, List.getElem?_rotate hk, Nat.add_comm]
  · rw [lex_iff, ← unsigned_injective.eq_iff]
    exact Prod.Lex.toLex_lt_toLex.1 hij

end Sys2Proof.Machine
end

section
/-!
PROOFS. The doubling-rank algorithm (43_bwt.md R149): the ranks of each round order the prefixes of the rotations that
have been compared so far.
-/

namespace Sys2Proof.Machine

/-! Prefixes of the rotations (43_bwt.md R149). -/

/-- The first `w` bytes read cyclically from `i` on, unsigned: of rotation `i`, gone through as often as `w` asks. -/
def cyclicPrefix (t : List Byte) (w i : ℕ) : List ℕ :=
  (List.range w).map fun k => (t.getD ((i + k) % t.length) 0#8).toNat

@[simp] theorem cyclicPrefix_length (t : List Byte) (w i : ℕ) : (cyclicPrefix t w i).length = w := by
  simp [cyclicPrefix]

theorem cyclicPrefix_add (t : List Byte) (v w i : ℕ) :
    cyclicPrefix t (v + w) i = cyclicPrefix t v i ++ cyclicPrefix t w (i + v) := by
  simp [cyclicPrefix, List.range_add, Function.comp_def, Nat.add_assoc]

@[simp] theorem cyclicPrefix_mod (t : List Byte) (w i : ℕ) :
    cyclicPrefix t w (i % t.length) = cyclicPrefix t w i := by
  simp [cyclicPrefix]

theorem cyclicPrefix_one {t : List Byte} {i : ℕ} (hi : i < t.length) :
    cyclicPrefix t 1 i = [(t.map BitVec.toNat).getD i 0] := by
  simp [cyclicPrefix, Nat.mod_eq_of_lt hi, hi]

theorem cyclicPrefix_full {t : List Byte} {i : ℕ} (hi : i < t.length) :
    cyclicPrefix t t.length i = unsigned (rotation t i) := by
  rw [rotation_eq_rotate hi.le]
  refine List.ext_getElem (by simp [unsigned]) fun k hk _ => ?_
  have hmod : (i + k) % t.length < t.length := Nat.mod_lt _ (Nat.zero_lt_of_lt hi)
  simp [cyclicPrefix, unsigned, List.getElem_rotate, Nat.add_comm k, hmod]

/-- What is read cyclically repeats the rotation. -/
theorem cyclicPrefix_congr {t : List Byte} {i j : ℕ} (hi : i < t.length)
    (h : cyclicPrefix t t.length i = cyclicPrefix t t.length j) (w : ℕ) : cyclicPrefix t w i = cyclicPrefix t w j := by
  have hbyte := List.map_inj_left.1 h
  refine List.map_congr_left fun k _ => ?_
  simpa using hbyte (k % t.length) (List.mem_range.2 (Nat.mod_lt k (Nat.zero_lt_of_lt hi)))

/-- A longer prefix that is equal whenever the shorter one is gives the same order. -/
theorem cyclicPrefix_le_iff {t : List Byte} {v w i j : ℕ} (hvw : v ≤ w)
    (h : cyclicPrefix t v i = cyclicPrefix t v j → cyclicPrefix t w i = cyclicPrefix t w j) :
    cyclicPrefix t w i ≤ cyclicPrefix t w j ↔ cyclicPrefix t v i ≤ cyclicPrefix t v j := by
  by_cases heq : cyclicPrefix t v i = cyclicPrefix t v j
  · exact iff_of_true (h heq).le heq.le
  · obtain ⟨d, rfl⟩ := Nat.exists_eq_add_of_le hvw
    rw [cyclicPrefix_add, cyclicPrefix_add, append_le_append_iff (by simp), or_iff_left (fun h => heq h.1),
      lt_iff_le_and_ne, and_iff_left heq]

/-! One round of the doubling algorithm (43_bwt.md R149). -/

theorem sortByKey_eq (key : ℕ → ℕ × ℕ) (l : List ℕ) :
    sortByKey key l = l.insertionSort fun i j => toLex (key i) ≤ toLex (key j) := by
  have hinsert (i : ℕ) (l : List ℕ) :
      insertByKey key i l = l.orderedInsert (fun i j => toLex (key i) ≤ toLex (key j)) i := by
    induction l with
    | nil => rfl
    | cons j l ih => simp [insertByKey, Prod.Lex.toLex_le_toLex, ih]
  induction l with
  | nil => rfl
  | cons i l ih => rw [sortByKey, hinsert, ih, List.insertionSort_cons]

theorem mem_sortByKey {key : ℕ → ℕ × ℕ} {l : List ℕ} {i : ℕ} : i ∈ sortByKey key l ↔ i ∈ l := by
  rw [sortByKey_eq, List.mem_insertionSort]

theorem sortByKey_pairwise (key : ℕ → ℕ × ℕ) (l : List ℕ) :
    (sortByKey key l).Pairwise fun i j => toLex (key i) ≤ toLex (key j) := by
  rw [sortByKey_eq]
  exact pairwise_insertionSort_key (fun i => toLex (key i)) l

/-- The new rank of an index of a list whose first rank is `r`. -/
def newRank (key : ℕ → ℕ × ℕ) (r : ℕ) (l : List ℕ) (i : ℕ) : ℕ := ((newRanks key r l).lookup i).getD 0

/-- The rank after the first index of a list. -/
def nextRank (key : ℕ → ℕ × ℕ) (r i j : ℕ) : ℕ := if key j = key i then r else r + 1

theorem le_nextRank (key : ℕ → ℕ × ℕ) (r i j : ℕ) : r ≤ nextRank key r i j := by
  unfold nextRank
  split <;> omega

theorem newRank_head (key : ℕ → ℕ × ℕ) (r i : ℕ) (l : List ℕ) : newRank key r (i :: l) i = r := by
  cases l <;> simp [newRank, newRanks]

theorem newRank_tail (key : ℕ → ℕ × ℕ) (r j : ℕ) (l : List ℕ) {i a : ℕ} (ha : a ≠ i) :
    newRank key r (i :: j :: l) a = newRank key (nextRank key r i j) (j :: l) a := by
  simp [newRank, newRanks, nextRank, List.lookup_cons, beq_eq_false_iff_ne.2 ha]

theorem le_newRank (key : ℕ → ℕ × ℕ) (l : List ℕ) (r : ℕ) : ∀ a ∈ l, r ≤ newRank key r l a := by
  induction l generalizing r with
  | nil => simp
  | cons i l ih =>
    intro a ha
    rcases eq_or_ne a i with rfl | hne
    · exact (newRank_head key r a l).ge
    · cases l with
      | nil => exact absurd (List.mem_singleton.1 ha) hne
      | cons j l =>
        rw [newRank_tail key r j l hne]
        exact (le_nextRank key r i j).trans (ih _ a (List.mem_of_ne_of_mem hne ha))

/-- The indices that share the first rank are those with the first key, because the rank rises where the key does. -/
theorem newRank_le_head_iff {key : ℕ → ℕ × ℕ} {i : ℕ} {l : List ℕ}
    (hl : (i :: l).Pairwise fun i j => toLex (key i) ≤ toLex (key j)) (r : ℕ) {a : ℕ} (ha : a ∈ i :: l) :
    newRank key r (i :: l) a ≤ r ↔ toLex (key a) ≤ toLex (key i) := by
  induction l generalizing i r with
  | nil => simp [List.mem_singleton.1 ha, newRank_head]
  | cons j l ih =>
    obtain ⟨hi, hl⟩ := List.pairwise_cons.1 hl
    rcases eq_or_ne a i with rfl | hne
    · simp [newRank_head]
    replace ha := List.mem_of_ne_of_mem hne ha
    rw [newRank_tail key r j l hne, nextRank]
    split
    next hkey => rw [ih hl r ha, hkey]
    next hkey =>
      have hrank := le_newRank key (j :: l) (r + 1) a ha
      have hja : toLex (key j) ≤ toLex (key a) :=
        (List.mem_cons.1 ha).elim (fun h => h ▸ le_rfl) (List.rel_of_pairwise_cons hl)
      refine iff_of_false (by omega) fun hai => hkey ?_
      exact toLex.injective (le_antisymm (hja.trans hai) (hi j List.mem_cons_self))

/-- Along a list sorted by key the new ranks order as the keys do. -/
theorem newRank_le_iff {key : ℕ → ℕ × ℕ} {l : List ℕ} (hl : l.Pairwise fun i j => toLex (key i) ≤ toLex (key j))
    (r : ℕ) {a b : ℕ} (ha : a ∈ l) (hb : b ∈ l) :
    newRank key r l a ≤ newRank key r l b ↔ toLex (key a) ≤ toLex (key b) := by
  induction l generalizing r with
  | nil => cases ha
  | cons i l ih =>
    rcases eq_or_ne b i with rfl | hbi
    · rw [newRank_head]
      exact newRank_le_head_iff hl r ha
    replace hb' := List.mem_of_ne_of_mem hbi hb
    rcases eq_or_ne a i with rfl | hai
    · rw [newRank_head]
      exact iff_of_true (le_newRank key _ r b hb) (List.rel_of_pairwise_cons hl hb')
    cases l with
    | nil => cases hb'
    | cons j l =>
      rw [newRank_tail key r j l hai, newRank_tail key r j l hbi]
      exact ih (List.pairwise_cons.1 hl).2 _ (List.mem_of_ne_of_mem hai ha) hb'

/-! The loop (43_bwt.md R149). -/

/-- The ranks order the start indices by the first `w` bytes of their rotations. -/
structure RanksPrefixes (t : List Byte) (w : ℕ) (rank : List ℕ) : Prop where
  length_eq : rank.length = t.length
  le_iff {i j : ℕ} (hi : i < t.length) (hj : j < t.length) :
    rank.getD i 0 ≤ rank.getD j 0 ↔ cyclicPrefix t w i ≤ cyclicPrefix t w j

/-- What a round of step `k` sorts by. -/
def doublingKey (rank : List ℕ) (k i : ℕ) : ℕ × ℕ := (rank.getD i 0, rank.getD ((i + k) % rank.length) 0)

theorem doublingRound_eq (rank : List ℕ) (k : ℕ) : doublingRound rank k = (List.range rank.length).map
    (newRank (doublingKey rank k) 0 (sortByKey (doublingKey rank k) (List.range rank.length))) := rfl

@[simp] theorem doublingRound_length (rank : List ℕ) (k : ℕ) : (doublingRound rank k).length = rank.length := by
  simp [doublingRound_eq]

theorem doublingRound_le_iff {rank : List ℕ} {i j : ℕ} (hi : i < rank.length) (hj : j < rank.length) (k : ℕ) :
    (doublingRound rank k).getD i 0 ≤ (doublingRound rank k).getD j 0 ↔
      toLex (doublingKey rank k i) ≤ toLex (doublingKey rank k j) := by
  have hmem {i : ℕ} (hi : i < rank.length) : i ∈ sortByKey (doublingKey rank k) (List.range rank.length) :=
    mem_sortByKey.2 (List.mem_range.2 hi)
  rw [← newRank_le_iff (sortByKey_pairwise _ _) 0 (hmem hi) (hmem hj)]
  simp [doublingRound_eq, hi, hj]

theorem ranksPrefixes_bytes (t : List Byte) : RanksPrefixes t 1 (t.map BitVec.toNat) where
  length_eq := List.length_map ..
  le_iff hi hj := by
    rw [cyclicPrefix_one hi, cyclicPrefix_one hj, cons_le_cons_iff, and_iff_left le_rfl, le_iff_lt_or_eq]

section

variable {t : List Byte} {w : ℕ} {rank : List ℕ}

theorem RanksPrefixes.eq_iff (h : RanksPrefixes t w rank) {i j : ℕ} (hi : i < t.length) (hj : j < t.length) :
    rank.getD i 0 = rank.getD j 0 ↔ cyclicPrefix t w i = cyclicPrefix t w j := by
  rw [le_antisymm_iff, le_antisymm_iff, h.le_iff hi hj, h.le_iff hj hi]

theorem RanksPrefixes.lt_iff (h : RanksPrefixes t w rank) {i j : ℕ} (hi : i < t.length) (hj : j < t.length) :
    rank.getD i 0 < rank.getD j 0 ↔ cyclicPrefix t w i < cyclicPrefix t w j :=
  lt_iff_lt_of_le_iff_le (h.le_iff hj hi)

/-- The key of a round of step `w` orders as the first `2 * w` bytes: it looks at the next `w` bytes where the first ones
agree. -/
theorem RanksPrefixes.doublingKey_le_iff (h : RanksPrefixes t w rank) {i j : ℕ} (hi : i < t.length)
    (hj : j < t.length) : toLex (doublingKey rank w i) ≤ toLex (doublingKey rank w j) ↔
      cyclicPrefix t (2 * w) i ≤ cyclicPrefix t (2 * w) j := by
  have hmod (i : ℕ) : (i + w) % t.length < t.length := Nat.mod_lt _ (Nat.zero_lt_of_lt hj)
  rw [Prod.Lex.toLex_le_toLex, doublingKey, doublingKey, h.length_eq, h.lt_iff hi hj, h.eq_iff hi hj,
    h.le_iff (hmod i) (hmod j), cyclicPrefix_mod, cyclicPrefix_mod, Nat.two_mul, cyclicPrefix_add, cyclicPrefix_add,
    append_le_append_iff (by simp)]

/-- A round of step `w` doubles the prefix. -/
theorem RanksPrefixes.doublingRound (h : RanksPrefixes t w rank) :
    RanksPrefixes t (2 * w) (doublingRound rank w) where
  length_eq := (doublingRound_length rank w).trans h.length_eq
  le_iff hi hj := by
    rw [doublingRound_le_iff (h.length_eq.symm ▸ hi) (h.length_eq.symm ▸ hj), h.doublingKey_le_iff hi hj]

/-- A prefix that covers the BWT block orders as the rotation does. -/
theorem RanksPrefixes.of_length_le (h : RanksPrefixes t w rank) (hw : t.length ≤ w) :
    RanksPrefixes t t.length rank where
  length_eq := h.length_eq
  le_iff hi hj := by rw [h.le_iff hi hj, cyclicPrefix_le_iff hw fun heq => cyclicPrefix_congr hi heq w]

/-- Distinct ranks mean distinct prefixes, which order as the rotations do. -/
theorem RanksPrefixes.of_nodup (h : RanksPrefixes t w rank) (hw : w ≤ t.length) (hnodup : rank.Nodup) :
    RanksPrefixes t t.length rank where
  length_eq := h.length_eq
  le_iff {i j} hi hj := by
    have hdistinct : cyclicPrefix t w i = cyclicPrefix t w j → i = j := fun heq => by
      have hrank := (h.eq_iff hi hj).2 heq
      rw [← h.length_eq] at hi hj
      rwa [List.getD_eq_getElem _ _ hi, List.getD_eq_getElem _ _ hj, hnodup.getElem_inj_iff] at hrank
    rw [h.le_iff hi hj, cyclicPrefix_le_iff hw fun heq => congrArg _ (hdistinct heq)]

/-- The loop ends with the order of the rotations, and `n` rounds are enough for it. -/
theorem RanksPrefixes.doublingLoop {fuel : ℕ} (hw : 0 < w) (hfuel : t.length ≤ w + fuel)
    (h : RanksPrefixes t w rank) : RanksPrefixes t t.length (doublingLoop fuel rank w) := by
  induction fuel generalizing w rank with
  | zero => exact h.of_length_le hfuel
  | succ fuel ih =>
    have hround := h.doublingRound
    rw [Machine.doublingLoop]
    split
    next hstop =>
      rcases le_total t.length (2 * w) with hcover | hshort
      · exact hround.of_length_le hcover
      rcases hstop with hnodup | hcover
      · exact hround.of_nodup hshort hnodup
      · exact hround.of_length_le (h.length_eq.symm.trans_le hcover)
    next hgo =>
      exact ih (by omega) (by omega) hround

end

theorem rotationOrderByDoubling_eq (t : List Byte) : ∃ rank, RanksPrefixes t t.length rank ∧
    rotationOrderByDoubling t =
      (List.range t.length).insertionSort fun i j => toLex (rank.getD i 0, i) ≤ toLex (rank.getD j 0, j) :=
  ⟨_, (ranksPrefixes_bytes t).doublingLoop Nat.one_pos (Nat.le_add_left _ 1), sortByKey_eq _ _⟩

/-- Settles O34: the ranks order as the rotations do, and both sorts break ties by the index. -/
theorem doublingGivesRotationOrder : Obligations.DoublingGivesRotationOrder := by
  intro t
  obtain ⟨rank, hrank, horder⟩ := rotationOrderByDoubling_eq t
  rw [horder, rotationOrder_eq]
  refine insertionSort_congr (List.Pairwise.imp_of_mem (fun {i j} hi hj _ => ?_) List.pairwise_lt_range)
  rw [List.mem_range] at hi hj
  rw [rotationKey, rotationKey, Prod.Lex.toLex_le_toLex, Prod.Lex.toLex_le_toLex, hrank.eq_iff hi hj,
    hrank.lt_iff hi hj, cyclicPrefix_full hi, cyclicPrefix_full hj]

end Sys2Proof.Machine
end

section
/-!
PROOFS. One BWT block (43_bwt.md R148, R153, R154): the last column, the LF-mapping as a permutation of the rows, and the
walk along it.
-/

namespace Sys2Proof.Machine

/-! The last column (43_bwt.md R148). -/

theorem map_getD_range {α : Type} (l : List α) (d : α) : (List.range l.length).map (fun k => l.getD k d) = l :=
  List.ext_getElem (by simp) fun k hk _ => by simp_all

/-- Going one place back cyclically permutes the places. -/
theorem map_predecessor_perm {α : Type} (f : ℕ → α) (n : ℕ) :
    ((List.range n).map fun i => f ((i + n - 1) % n)).Perm ((List.range n).map f) := by
  have hrotate : ((List.range n).map fun i => f ((i + n - 1) % n)) = ((List.range n).map f).rotate (n - 1) := by
    refine List.ext_getElem (by simp) fun k hk _ => ?_
    have hpos : 1 ≤ n := Nat.one_le_of_lt (by simpa using hk)
    simp [List.getElem_rotate, Nat.add_sub_assoc hpos]
  rw [hrotate]
  exact List.rotate_perm _ _

@[simp] theorem lastColumn_length (t : List Byte) : (lastColumn t).length = t.length := by
  simp [lastColumn]

theorem lt_of_rotationOrder {t : List Byte} {j i : ℕ} (h : (rotationOrder t)[j]? = some i) :
    j < t.length ∧ i < t.length :=
  ⟨rotationOrder_length t ▸ (List.getElem?_eq_some_iff.1 h).1, mem_rotationOrder.1 (List.mem_of_getElem? h)⟩

theorem getElem?_lastColumn {t : List Byte} {j i : ℕ} (h : (rotationOrder t)[j]? = some i) :
    (lastColumn t)[j]? = t[(i + t.length - 1) % t.length]? := by
  have hmod : (i + t.length - 1) % t.length < t.length := Nat.mod_lt _ (Nat.zero_lt_of_lt (lt_of_rotationOrder h).1)
  simp [lastColumn, h, hmod]

theorem lastColumn_perm (t : List Byte) : (lastColumn t).Perm t := by
  have hback := map_predecessor_perm (fun i => t.getD i 0#8) t.length
  rw [map_getD_range] at hback
  exact ((rotationOrder_perm t).map _).trans hback

theorem bwtBlock_primary_lt {t : List Byte} (ht : t ≠ []) : (bwtBlock t).primary < t.length := by
  rw [← rotationOrder_length t]
  exact List.idxOf_lt_length_iff.2 (mem_rotationOrder.2 (List.length_pos_of_ne_nil ht))

theorem rotationOrder_primary {t : List Byte} (ht : t ≠ []) : (rotationOrder t)[(bwtBlock t).primary]? = some 0 :=
  List.getElem?_idxOf (mem_rotationOrder.2 (List.length_pos_of_ne_nil ht))

/-- Settles O35: the column is the sorted rotations' predecessors, and going one place back permutes the places. -/
theorem bwtBlockColumns : Obligations.BwtBlockColumns := fun t ht =>
  ⟨lastColumn_length t, fun _ _ => getElem?_lastColumn, lastColumn_perm t, bwtBlock_primary_lt ht,
    rotationOrder_primary ht⟩

/-! The LF-mapping (43_bwt.md R153). -/

section

variable {l : List Byte} {i j : ℕ} {a b : Byte}

theorem lfMap_of_getElem? (h : l[j]? = some b) : lfMap l j = columnStart l b + (l.take j).count b := by
  simp [lfMap, List.getD_eq_getElem?_getD, h]

/-- The bytes counted before a place do not count the one at it. -/
theorem count_take_lt (h : l[i]? = some b) (hij : i < j) : (l.take i).count b < (l.take j).count b := by
  have hsub : (l.take i ++ [b]).Sublist (l.take j) := by
    obtain ⟨hi, rfl⟩ := List.getElem?_eq_some_iff.1 h
    rw [List.take_concat_get' l i hi]
    exact List.take_sublist_take_left hij
  have hcount := hsub.count_le b
  rw [List.count_append, List.count_singleton_self] at hcount
  omega

theorem columnStart_cons (c : Byte) (l : List Byte) (b : Byte) :
    columnStart (c :: l) b = columnStart l b + if c.toNat < b.toNat then 1 else 0 := by
  simp [columnStart, List.countP_cons]

/-- The bytes up to `b` are the smaller ones and the equal ones. -/
theorem columnStart_add_count (l : List Byte) (b : Byte) :
    columnStart l b + l.count b = l.countP fun c => decide (c.toNat ≤ b.toNat) := by
  induction l with
  | nil => rfl
  | cons c l ih =>
    rw [columnStart_cons, List.count_cons, List.countP_cons, ← ih]
    by_cases hcb : c = b
    · subst hcb
      simp [Nat.add_assoc]
    · have hne : c.toNat ≠ b.toNat := mt BitVec.eq_of_toNat_eq hcb
      simp [hcb, hne.le_iff_lt, Nat.add_right_comm]

/-- A row goes to a place in the run of its byte in the sorted column. -/
theorem lfMap_lt_run (h : l[j]? = some b) : lfMap l j < l.countP fun c => decide (c.toNat ≤ b.toNat) := by
  have hcount := count_take_lt h (List.getElem?_eq_some_iff.1 h).1
  rw [List.take_length] at hcount
  rw [lfMap_of_getElem? h, ← columnStart_add_count]
  omega

theorem lfMap_lt_length (hj : j < l.length) : lfMap l j < l.length :=
  (lfMap_lt_run (List.getElem?_eq_getElem hj)).trans_le List.countP_le_length

theorem lfMap_lt_of_byte_lt (hi : l[i]? = some a) (hj : l[j]? = some b) (hab : a.toNat < b.toNat) :
    lfMap l i < lfMap l j := by
  have hrun : (l.countP fun c => decide (c.toNat ≤ a.toNat)) ≤ columnStart l b :=
    List.countP_mono_left fun c _ hc => decide_eq_true ((of_decide_eq_true hc).trans_lt hab)
  rw [lfMap_of_getElem? hj]
  exact (lfMap_lt_run hi).trans_le (hrun.trans (Nat.le_add_right _ _))

theorem lfMap_lt_of_byte_eq (hi : l[i]? = some b) (hj : l[j]? = some b) (hij : i < j) : lfMap l i < lfMap l j := by
  rw [lfMap_of_getElem? hi, lfMap_of_getElem? hj]
  exact Nat.add_lt_add_left (count_take_lt hi hij) _

theorem lfMap_ne_of_lt (hij : i < j) (hj : j < l.length) : lfMap l i ≠ lfMap l j := by
  have hi' := List.getElem?_eq_getElem (hij.trans hj)
  have hj' := List.getElem?_eq_getElem hj
  rcases lt_trichotomy l[i].toNat l[j].toNat with hlt | heq | hgt
  · exact (lfMap_lt_of_byte_lt hi' hj' hlt).ne
  · rw [BitVec.eq_of_toNat_eq heq] at hi'
    exact (lfMap_lt_of_byte_eq hi' hj' hij).ne
  · exact (lfMap_lt_of_byte_lt hj' hi' hgt).ne'

theorem lfMap_perm (l : List Byte) : ((List.range l.length).map (lfMap l)).Perm (List.range l.length) := by
  have hnodup : ((List.range l.length).map (lfMap l)).Nodup :=
    List.pairwise_map.2 (List.pairwise_lt_range.imp_of_mem fun _ hj hij => lfMap_ne_of_lt hij (List.mem_range.1 hj))
  have hsub : (List.range l.length).map (lfMap l) ⊆ List.range l.length := by
    intro r hr
    obtain ⟨j, hj, rfl⟩ := List.mem_map.1 hr
    exact List.mem_range.2 (lfMap_lt_length (List.mem_range.1 hj))
  exact (List.subperm_of_subset hnodup hsub).perm_of_length_le (by simp)

/-- Settles O37: a smaller byte's run ends before a larger one's begins, and within a run the places count up, so no two
rows meet. -/
theorem lfMapPermutesRows : Obligations.LfMapPermutesRows := fun l =>
  ⟨lfMap_perm l, fun _ _ => lfMap_of_getElem?, fun _ _ _ _ hi hj =>
    ⟨lfMap_lt_of_byte_lt hi hj, fun hab => by subst hab; exact lfMap_lt_of_byte_eq hi hj⟩⟩

end

/-! The walk (43_bwt.md R154). -/

theorem bwtWalk_length (l : List Byte) (n p : ℕ) : (bwtWalk l n p).length = n := by
  induction n generalizing p with
  | zero => rfl
  | succ n ih => rw [bwtWalk, List.length_cons, ih]

theorem bwtInvBlock_length (r : BwtRecord) : (bwtInvBlock r).length = r.last.length := by
  rw [bwtInvBlock, List.length_reverse, bwtWalk_length]

/-- The walk reads the column at the rows that the LF-mapping leads to. -/
theorem getElem?_bwtWalk {l : List Byte} {n k p : ℕ} (hp : p < l.length) (hk : k < n) :
    (bwtWalk l n p)[k]? = l[(lfMap l)^[k] p]? := by
  induction n generalizing k p with
  | zero => exact absurd hk (Nat.not_lt_zero k)
  | succ n ih =>
    cases k with
    | zero => simp [bwtWalk, hp]
    | succ k => exact ih (lfMap_lt_length hp) (Nat.lt_of_succ_lt_succ hk)

theorem getElem?_bwtInvBlock {r : BwtRecord} (hr : r.primary < r.last.length) {k : ℕ} (hk : k < r.last.length) :
    (bwtInvBlock r)[r.last.length - 1 - k]? = r.last[(lfMap r.last)^[k] r.primary]? := by
  have hback : r.last.length - 1 - (r.last.length - 1 - k) = k := by omega
  rw [bwtInvBlock, List.getElem?_reverse (by rw [bwtWalk_length]; omega), bwtWalk_length, hback,
    getElem?_bwtWalk hr hk]

/-! The walk on a last column (43_bwt.md R154, R162). -/

/-- A placement of elements that keeps their order pairs the places, in order, with the sorted elements: sorting the
elements by their places sorts them. -/
theorem exists_pairs_of_placement {α : Type} [LinearOrder α] {l m : List α} {place : ℕ → ℕ} (hl : l.Pairwise (· ≤ ·))
    (hperm : m.Perm l) (hplace : ((List.range m.length).map place).Perm (List.range m.length))
    (hmono : ∀ i j a b, m[i]? = some a → m[j]? = some b → place i < place j → a ≤ b) :
    ∃ pairs : List (ℕ × α), pairs.map Prod.fst = List.range m.length ∧ pairs.map Prod.snd = l ∧
      ∀ r a, (r, a) ∈ pairs ↔ ∃ i, place i = r ∧ m[i]? = some a := by
  obtain ⟨pairs, hpairs, hsorted⟩ : ∃ pairs : List (ℕ × α),
      pairs.Perm (((List.range m.length).map place).zip m) ∧ pairs.Pairwise fun p q => p.1 ≤ q.1 :=
    ⟨_, List.perm_insertionSort _ _, pairwise_insertionSort_key Prod.fst _⟩
  have hmem (r : ℕ) (a : α) : (r, a) ∈ pairs ↔ ∃ i, place i = r ∧ m[i]? = some a := by
    rw [hpairs.mem_iff, List.mem_iff_getElem?]
    refine exists_congr fun i => ?_
    rw [List.getElem?_zip_eq_some]
    refine and_congr_left fun ha => ?_
    simp [(List.getElem?_eq_some_iff.1 ha).1]
  have hfst := hpairs.map Prod.fst
  rw [List.map_fst_zip (by simp)] at hfst
  have hplaces : pairs.map Prod.fst = List.range m.length :=
    List.Perm.eq_of_pairwise' (List.pairwise_map.2 hsorted) List.pairwise_le_range (hfst.trans hplace)
  have hsnd := hpairs.map Prod.snd
  rw [List.map_snd_zip (by simp)] at hsnd
  refine ⟨pairs, hplaces, ?_, hmem⟩
  have hstrict : pairs.Pairwise fun p q => p.1 < q.1 := List.pairwise_map.1 (hplaces ▸ List.pairwise_lt_range)
  refine List.Perm.eq_of_pairwise' (List.pairwise_map.2 (hstrict.imp_of_mem ?_)) hl (hsnd.trans hperm)
  rintro ⟨r, a⟩ ⟨r', b⟩ hp hq hlt
  obtain ⟨i, rfl, ha⟩ := (hmem r a).1 hp
  obtain ⟨j, rfl, hb⟩ := (hmem r' b).1 hq
  exact hmono i j a b ha hb hlt

/-- A sorted list holds at each place what an order-preserving placement of its elements puts there. -/
theorem getElem?_of_placement {α : Type} [LinearOrder α] {l m : List α} {place : ℕ → ℕ} (hl : l.Pairwise (· ≤ ·))
    (hperm : m.Perm l) (hplace : ((List.range m.length).map place).Perm (List.range m.length))
    (hmono : ∀ i j a b, m[i]? = some a → m[j]? = some b → place i < place j → a ≤ b) {j : ℕ} {b : α}
    (hb : m[j]? = some b) : l[place j]? = some b := by
  obtain ⟨pairs, hplaces, hvalues, hmem⟩ := exists_pairs_of_placement hl hperm hplace hmono
  obtain ⟨r, hr⟩ := List.mem_iff_getElem?.1 ((hmem _ _).2 ⟨j, rfl, hb⟩)
  have hget : (pairs.map Prod.fst)[r]? = some (place j) := by rw [List.getElem?_map, hr, Option.map_some]
  rw [hplaces, List.getElem?_eq_some_iff] at hget
  obtain ⟨_, hrplace⟩ := hget
  rw [List.getElem_range] at hrplace
  rw [← hrplace, ← hvalues, List.getElem?_map, hr, Option.map_some]

theorem rotation_length (t : List Byte) (i : ℕ) : (rotation t i).length = t.length := by
  simp only [rotation, List.length_append, List.length_drop, List.length_take]
  omega

/-- The byte before a rotation's start is the rotation's last byte, and goes to the front when the start moves to it. -/
theorem rotation_predecessor {t : List Byte} {i : ℕ} (hi : i < t.length) :
    ∃ m b, m.length + 1 = t.length ∧ t[(i + t.length - 1) % t.length]? = some b ∧ rotation t i = m ++ [b] ∧
      rotation t ((i + t.length - 1) % t.length) = b :: m := by
  have hlt : (i + t.length - 1) % t.length < t.length := Nat.mod_lt _ (Nat.zero_lt_of_lt hi)
  have hnext : t.rotate i = (t.rotate ((i + t.length - 1) % t.length)).rotate 1 := by
    have hone : i + t.length - 1 + 1 = i + t.length := by omega
    rw [List.rotate_rotate, ← List.rotate_mod t (_ + 1), Nat.mod_add_mod, hone, Nat.add_mod_right, List.rotate_mod]
  rw [rotation_eq_rotate hi.le, rotation_eq_rotate hlt.le, hnext]
  cases hrow : t.rotate ((i + t.length - 1) % t.length) with
  | nil => simp [List.length_pos_iff.1 (Nat.zero_lt_of_lt hi)] at hrow
  | cons b m =>
    refine ⟨m, b, by rw [← List.length_cons (a := b), ← hrow, List.length_rotate], ?_, by simp, rfl⟩
    have hhead := List.getElem?_rotate (n := (i + t.length - 1) % t.length) (Nat.zero_lt_of_lt hi)
    rw [hrow, Nat.zero_add, Nat.mod_mod] at hhead
    exact hhead.symm

theorem rotation_le_of_row_lt {t : List Byte} {j j' i i' : ℕ} (hi : (rotationOrder t)[j]? = some i)
    (hi' : (rotationOrder t)[j']? = some i') (h : j < j') : unsigned (rotation t i) ≤ unsigned (rotation t i') := by
  obtain ⟨hj, rfl⟩ := List.getElem?_eq_some_iff.1 hi
  obtain ⟨hj', rfl⟩ := List.getElem?_eq_some_iff.1 hi'
  exact List.pairwise_iff_getElem.1 (rotationOrder_pairwise_le t) j j' hj hj' h

/-- The LF-mapping keeps the order of the rotations that start one byte earlier: their first byte is the row's last one,
and equal ones leave the order to the rest of the row. -/
theorem earlier_le_of_lfMap_lt {t : List Byte} {j j' i i' : ℕ} (hi : (rotationOrder t)[j]? = some i)
    (hi' : (rotationOrder t)[j']? = some i') (h : lfMap (lastColumn t) j < lfMap (lastColumn t) j') :
    unsigned (rotation t ((i + t.length - 1) % t.length)) ≤ unsigned (rotation t ((i' + t.length - 1) % t.length)) := by
  obtain ⟨m, b, hm, hb, hrow, hearlier⟩ := rotation_predecessor (lt_of_rotationOrder hi).2
  obtain ⟨m', b', hm', hb', hrow', hearlier'⟩ := rotation_predecessor (lt_of_rotationOrder hi').2
  rw [← getElem?_lastColumn hi] at hb
  rw [← getElem?_lastColumn hi'] at hb'
  rw [hearlier, hearlier', unsigned_cons, unsigned_cons, cons_le_cons_iff]
  rcases lt_trichotomy b.toNat b'.toNat with hlt | heq | hgt
  · exact .inl hlt
  · obtain rfl := BitVec.eq_of_toNat_eq heq
    have hjj' : j < j' := by
      by_contra hle
      rcases eq_or_lt_of_not_gt hle with rfl | hlt
      · exact lt_irrefl _ h
      · exact lt_asymm h (lfMap_lt_of_byte_eq hb' hb hlt)
    have hle := rotation_le_of_row_lt hi hi' hjj'
    have hlen : (unsigned m).length = (unsigned m').length := by simpa using Nat.succ.inj (hm.trans hm'.symm)
    rw [hrow, hrow', unsigned_append, unsigned_append, append_le_append_iff hlen] at hle
    exact .inr ⟨rfl, hle.elim le_of_lt fun h => h.1.le⟩
  · exact absurd h (lfMap_lt_of_byte_lt hb' hb hgt).not_gt

/-- The LF-mapping leads to a row with the rotation that starts one byte earlier: these rotations are the rows again, and
the LF-mapping places them in order. -/
theorem rotation_lfMap {t : List Byte} {j i : ℕ} (h : (rotationOrder t)[j]? = some i) :
    ∃ i', (rotationOrder t)[lfMap (lastColumn t) j]? = some i' ∧
      rotation t i' = rotation t ((i + t.length - 1) % t.length) := by
  have hsorted : ((rotationOrder t).map fun i => unsigned (rotation t i)).Pairwise (· ≤ ·) :=
    List.pairwise_map.2 (rotationOrder_pairwise_le t)
  have hperm : ((rotationOrder t).map fun i => unsigned (rotation t ((i + t.length - 1) % t.length))).Perm
      ((rotationOrder t).map fun i => unsigned (rotation t i)) :=
    ((rotationOrder_perm t).map _).trans
      ((map_predecessor_perm (fun i => unsigned (rotation t i)) t.length).trans ((rotationOrder_perm t).map _).symm)
  have hplace := lfMap_perm (lastColumn t)
  have hrow := getElem?_of_placement (place := lfMap (lastColumn t)) hsorted hperm (by simpa using hplace) ?_
    (j := j) (by rw [List.getElem?_map, h, Option.map_some])
  · rw [List.getElem?_map, Option.map_eq_some_iff] at hrow
    obtain ⟨i', hi', heq⟩ := hrow
    exact ⟨i', hi', unsigned_injective heq⟩
  · intro k k' a b ha hb hlt
    rw [List.getElem?_map, Option.map_eq_some_iff] at ha hb
    obtain ⟨i₁, hi₁, rfl⟩ := ha
    obtain ⟨i₂, hi₂, rfl⟩ := hb
    exact earlier_le_of_lfMap_lt hi₁ hi₂ hlt

/-- The walk reads the row it starts from backwards. -/
theorem bwtWalk_lastColumn {t : List Byte} {n j i : ℕ} (hn : n ≤ t.length) (h : (rotationOrder t)[j]? = some i) :
    bwtWalk (lastColumn t) n j = (rotation t i).reverse.take n := by
  induction n generalizing j i with
  | zero => rfl
  | succ n ih =>
    obtain ⟨m, b, hm, hb, hrow, hearlier⟩ := rotation_predecessor (lt_of_rotationOrder h).2
    obtain ⟨i', hi', hrot⟩ := rotation_lfMap h
    have hlen : n ≤ m.length := by omega
    rw [bwtWalk, List.getD_eq_getElem?_getD, getElem?_lastColumn h, hb, ih (Nat.le_of_succ_le hn) hi', hrot, hearlier,
      hrow]
    simp [List.take_append_of_le_length, hlen]

/-- Settles O38: each step of the walk reads a row's last byte and leads to a row with that byte in front. -/
theorem bwtInverseFromEveryRow : Obligations.BwtInverseFromEveryRow := by
  intro t j i h
  have hlen : (rotation t i).reverse.length = t.length := by rw [List.length_reverse, rotation_length]
  rw [bwtInvBlock, lastColumn_length, bwtWalk_lastColumn le_rfl h, ← hlen, List.take_length, List.reverse_reverse]

end Sys2Proof.Machine
end

section
/-!
PROOFS. The streams of BWT records (43_bwt.md R150 to R159): the encoder's pieces and the decoder's loop.
-/

namespace Sys2Proof.Machine

/-! The records of the encoder (43_bwt.md R150 to R152). -/

theorem bwtRecord_wf_iff {r : BwtRecord} : r.wf = true ↔ r.last.length < 2 ^ 32 ∧ r.primary < r.last.length := by
  simp [BwtRecord.wf]

@[simp] theorem bwtRecordBytes_length (r : BwtRecord) : (bwtRecordBytes r).length = r.last.length + 8 := by
  simp only [bwtRecordBytes, List.length_append, be32_length]
  omega

@[simp] theorem bwtBlock_last_length (t : List Byte) : (bwtBlock t).last.length = t.length := lastColumn_length t

theorem bwtBlock_wf {t : List Byte} (ht : t ≠ []) (hlen : t.length < 2 ^ 32) : (bwtBlock t).wf = true := by
  rw [bwtRecord_wf_iff, bwtBlock_last_length]
  exact ⟨hlen, bwtBlock_primary_lt ht⟩

/-! The pieces of the input (43_bwt.md R150). -/

/-- The lengths of the pieces of at most `bs` bytes that `n` bytes are cut into. -/
def pieceLengths (bs n : ℕ) : List ℕ := List.replicate (n / bs) bs ++ if n % bs = 0 then [] else [n % bs]

section

variable {bs : ℕ} (hbs : 0 < bs)

include hbs

theorem length_drop_le_fuel {fuel : ℕ} {b : Byte} {rest : List Byte} (h : (b :: rest).length ≤ fuel + 1) :
    ((b :: rest).drop bs).length ≤ fuel := by
  rw [List.length_drop]
  omega

theorem bwtSplit_flatten {fuel : ℕ} {x : List Byte} (hx : x.length ≤ fuel) : (bwtSplit bs fuel x).flatten = x := by
  fun_induction bwtSplit bs fuel x with
  | case1 x => exact (List.length_eq_zero_iff.1 (Nat.le_zero.1 hx)).symm
  | case2 fuel => rfl
  | case3 fuel b rest ih => rw [List.flatten_cons, ih (length_drop_le_fuel hbs hx), List.take_append_drop]

theorem bwtSplit_ne_nil (fuel : ℕ) (x : List Byte) : ∀ t ∈ bwtSplit bs fuel x, t ≠ [] := by
  fun_induction bwtSplit bs fuel x with
  | case1 | case2 => simp
  | case3 fuel b rest ih => exact List.forall_mem_cons.2 ⟨by simp [hbs.ne'], ih⟩

theorem pieceLengths_of_pos {n : ℕ} (hn : 0 < n) : pieceLengths bs n = min bs n :: pieceLengths bs (n - bs) := by
  rcases Nat.lt_or_ge n bs with hlt | hge
  · simp [pieceLengths, Nat.div_eq_of_lt hlt, Nat.mod_eq_of_lt hlt, Nat.sub_eq_zero_of_le hlt.le, hlt.le, hn.ne']
  · rw [pieceLengths, Nat.div_eq_sub_div hbs hge, Nat.mod_eq_sub_mod hge, min_eq_left hge, List.replicate_succ]
    rfl

theorem bwtSplit_lengths {fuel : ℕ} {x : List Byte} (hx : x.length ≤ fuel) :
    (bwtSplit bs fuel x).map List.length = pieceLengths bs x.length := by
  fun_induction bwtSplit bs fuel x with
  | case1 x =>
    rw [Nat.le_zero.1 hx]
    simp [pieceLengths]
  | case2 fuel => simp [pieceLengths]
  | case3 fuel b rest ih =>
    rw [List.map_cons, ih (length_drop_le_fuel hbs hx), List.length_take, List.length_drop,
      ← pieceLengths_of_pos hbs (List.length_pos_of_ne_nil (List.cons_ne_nil b rest))]

theorem pieceLengths_length (n : ℕ) : (pieceLengths bs n).length = (n + bs - 1) / bs := by
  have hlast : bs ≤ n % bs + (bs - 1) ↔ n % bs ≠ 0 := by omega
  rw [Nat.add_sub_assoc hbs, Nat.add_div hbs, Nat.div_eq_of_lt (Nat.sub_one_lt hbs.ne'),
    Nat.mod_eq_of_lt (Nat.sub_one_lt hbs.ne')]
  by_cases hmod : n % bs = 0 <;> simp [pieceLengths, hlast, hmod, hbs]

end

/-- The BWT blocks of the input. -/
def bwtPieces (b : ℕ) (x : List Byte) : List (List Byte) := bwtSplit (bwtBlockSize b x.length) x.length x

theorem bwtRecords_eq (b : ℕ) (x : List Byte) : bwtRecords b x = (bwtPieces b x).map bwtBlock := rfl

theorem bwtBlockSize_pos (b : ℕ) {x : List Byte} (hx : x ≠ []) : 0 < bwtBlockSize b x.length := by
  have hlen := List.length_pos_of_ne_nil hx
  unfold bwtBlockSize
  split <;> omega

theorem bwtPieces_flatten (b : ℕ) (x : List Byte) : (bwtPieces b x).flatten = x := by
  by_cases hx : x = []
  · subst hx
    rfl
  · exact bwtSplit_flatten (bwtBlockSize_pos b hx) le_rfl

theorem bwtPieces_ne_nil {b : ℕ} {x t : List Byte} (ht : t ∈ bwtPieces b x) : t ≠ [] := by
  by_cases hx : x = []
  · subst hx
    cases ht
  · exact bwtSplit_ne_nil (bwtBlockSize_pos b hx) _ _ t ht

/-- Every field of the encoder's records fits. -/
theorem bwtRecords_wf (b : ℕ) {x : List Byte} (hx : x.length < 2 ^ 32) : ∀ r ∈ bwtRecords b x, r.wf = true := by
  intro r hr
  rw [bwtRecords_eq] at hr
  obtain ⟨t, ht, rfl⟩ := List.mem_map.1 hr
  have hsub := (List.sublist_flatten_of_mem ht).length_le
  rw [bwtPieces_flatten] at hsub
  exact bwtBlock_wf (bwtPieces_ne_nil ht) (hsub.trans_lt hx)

theorem records_length (pieces : List (List Byte)) :
    ((pieces.map bwtBlock).flatMap bwtRecordBytes).length = pieces.flatten.length + 8 * pieces.length := by
  induction pieces with
  | nil => rfl
  | cons t pieces ih =>
    rw [List.map_cons, List.flatMap_cons, List.length_append, ih, bwtRecordBytes_length, bwtBlock_last_length,
      List.flatten_cons, List.length_append, List.length_cons]
    omega

theorem bwtEnc_length (b : ℕ) {x : List Byte} (hx : x ≠ []) : (bwtEnc b x).length =
    x.length + 8 * ((x.length + bwtBlockSize b x.length - 1) / bwtBlockSize b x.length) := by
  have hbs := bwtBlockSize_pos b hx
  have hcount : (bwtPieces b x).length = (pieceLengths (bwtBlockSize b x.length) x.length).length := by
    rw [← bwtSplit_lengths hbs le_rfl, List.length_map, bwtPieces]
  rw [bwtEnc, bwtRecords_eq, records_length, bwtPieces_flatten, hcount, pieceLengths_length hbs]

/-! The decoder's loop (43_bwt.md R155): its equations. -/

/-- Any two numbers of rounds that reach the input's length give the same result, because each round takes a header. -/
theorem bwtParse_congr (fuel : Nat) (d : List Byte) :
    d.length ≤ fuel → ∀ k, d.length ≤ k → bwtParse fuel d = bwtParse k d := by
  fun_induction bwtParse fuel d with
  | case1 d =>
    intro hd
    obtain rfl := List.length_eq_zero_iff.1 (Nat.le_zero.1 hd)
    rintro (_ | k) - <;> rfl
  | case2 => rintro - (_ | k) - <;> rfl
  | case3 fuel n0 n1 n2 n3 p0 p1 p2 p3 rest n hshort =>
    rintro - (_ | k) hk
    · exact absurd hk (Nat.not_succ_le_zero _)
    · exact (if_pos hshort).symm
  | case4 fuel n0 n1 n2 n3 p0 p1 p2 p3 rest n pi hfull hindex =>
    rintro - (_ | k) hk
    · exact absurd hk (Nat.not_succ_le_zero _)
    · exact ((if_neg hfull).trans (if_pos hindex)).symm
  | case5 fuel n0 n1 n2 n3 p0 p1 p2 p3 rest n pi hfull hindex ih =>
    rintro hfuel (_ | k) hk
    · exact absurd hk (Nat.not_succ_le_zero _)
    · rw [ih (by rw [List.length_drop]; simp at hfuel; omega) k (by rw [List.length_drop]; simp at hk; omega)]
      exact ((if_neg hfull).trans (if_neg hindex)).symm
  | case6 fuel b rest hmatch =>
    rintro - (_ | k) hk
    · exact absurd hk (Nat.not_succ_le_zero _)
    · rw [bwtParse]
      exact hmatch

theorem bwtParse_of_length_le {fuel : Nat} {d : List Byte} (h : d.length ≤ fuel) : bwtParse fuel d = bwtDec d :=
  bwtParse_congr fuel d h _ le_rfl

@[simp] theorem bwtDec_nil : bwtDec [] = .ok [] := rfl

theorem bwtDec_short {d : List Byte} (hpos : 1 ≤ d.length) (hlen : d.length ≤ 7) : bwtDec d = .error .bwtTrunc := by
  cases d with
  | nil => exact absurd hpos (by simp)
  | cons b rest =>
    rw [bwtDec, List.length_cons, bwtParse]
    rintro _ _ _ _ _ _ _ left rfl
    simp only [List.length_cons] at hlen
    omega

section

variable {n pi : ℕ} (hn : n < 2 ^ 32) (hpi : pi < 2 ^ 32) {rest : List Byte}

include hn hpi

/-- The tests of a header in their order (43_bwt.md R156, R157), and the rest after a good record. -/
theorem bwtDec_header : bwtDec (be32 n ++ be32 pi ++ rest) =
    if rest.length < n then .error .bwtTrunc
    else if n = 0 ∨ pi ≥ n then .error .bwtIndex
    else (bwtDec (rest.drop n)).map (bwtInvBlock { primary := pi, last := rest.take n } ++ ·) := by
  have hfuel : (rest.drop n).length ≤ rest.length + 7 := by
    rw [List.length_drop]
    omega
  rw [← bwtParse_of_length_le hfuel]
  simp only [bwtDec, be32, List.cons_append, List.nil_append, List.length_cons, bwtParse, rd32_be32 n hn,
    rd32_be32 pi hpi]

end

theorem bwtDec_record_append {r : BwtRecord} (hr : r.wf = true) (rest : List Byte) :
    bwtDec (bwtRecordBytes r ++ rest) = (bwtDec rest).map (bwtInvBlock r ++ ·) := by
  obtain ⟨hlen, hprimary⟩ := bwtRecord_wf_iff.1 hr
  rw [bwtRecordBytes, List.append_assoc, bwtDec_header hlen (hprimary.trans hlen), if_neg (by simp),
    if_neg (by omega), List.drop_left, List.take_left]

/-- Good records before a stream add their inverses and change no error. -/
theorem bwtDec_records_append {recs : List BwtRecord} (hrecs : ∀ r ∈ recs, r.wf = true) (rest : List Byte) :
    bwtDec (recs.flatMap bwtRecordBytes ++ rest) = (bwtDec rest).map (recs.flatMap bwtInvBlock ++ ·) := by
  induction recs with
  | nil => cases h : bwtDec rest <;> simp [h, Except.map]
  | cons r recs ih =>
    obtain ⟨hr, hrecs⟩ := List.forall_mem_cons.1 hrecs
    rw [List.flatMap_cons, List.append_assoc, bwtDec_record_append hr, ih hrecs]
    cases bwtDec rest <;> simp [Except.map]

theorem bwtDec_records {recs : List BwtRecord} (hrecs : ∀ r ∈ recs, r.wf = true) :
    bwtDec (recs.flatMap bwtRecordBytes) = .ok (recs.flatMap bwtInvBlock) := by
  simpa [Except.map] using bwtDec_records_append hrecs []

/-! The round trip (43_bwt.md R159). -/

theorem bwtInvBlock_bwtBlock {t : List Byte} (ht : t ≠ []) : bwtInvBlock (bwtBlock t) = t := by
  calc bwtInvBlock (bwtBlock t)
    _ = rotation t 0 := bwtInverseFromEveryRow t _ 0 (rotationOrder_primary ht)
    _ = t := by simp [rotation]

theorem bwtDec_bwtEnc (b : ℕ) {x : List Byte} (hx : x.length < 2 ^ 32) : bwtDec (bwtEnc b x) = .ok x := by
  have hpieces : (bwtPieces b x).map (bwtInvBlock ∘ bwtBlock) = bwtPieces b x :=
    (List.map_congr_left fun t ht => bwtInvBlock_bwtBlock (bwtPieces_ne_nil ht)).trans (List.map_id _)
  rw [bwtEnc, bwtDec_records (bwtRecords_wf b hx), bwtRecords_eq, List.flatMap_def, List.map_map, hpieces,
    bwtPieces_flatten]

/-! The commands. -/

theorem concludes_bwtEnc {s : State} {x : List Byte} (hx : s.inputIs x) :
    Concludes .bwtEnc s (.ok (bwtEnc s.params.bwtBlock.toNat x)) :=
  concludes_of_unitOf (f := fun d => .ok (bwtEnc s.params.bwtBlock.toNat d)) hx rfl

theorem concludes_bwtDec {s : State} {x : List Byte} (hx : s.inputIs x) : Concludes .bwtDec s (bwtDec x) :=
  concludes_of_unitOf hx rfl

theorem State.inputIs.length_lt {s : State} {x : List Byte} (hx : s.inputIs x) : x.length < 2 ^ 32 :=
  hx.1 ▸ s.inLen.isLt

/-- An error of the stream after good records is the error of the whole. -/
theorem failsWith_bwtDec_of_tail {s : State} {recs : List BwtRecord} {tail : List Byte} {e : Err}
    (hrecs : ∀ r ∈ recs, r.wf = true) (hx : s.inputIs (recs.flatMap bwtRecordBytes ++ tail))
    (htail : bwtDec tail = .error e) : FailsWith .bwtDec s e.code := by
  have hend := concludes_bwtDec hx
  rwa [bwtDec_records_append hrecs, htail] at hend

/-- Settles O36: the pieces give the layout and the length, and the command's function raises nothing. -/
theorem bwtEncRecords : Obligations.BwtEncRecords := by
  rintro s x bs hx hne rfl
  have hlen := bwtEnc_length s.params.bwtBlock.toNat hne
  refine ⟨⟨bwtPieces _ x, bwtPieces_flatten _ x, bwtSplit_lengths (bwtBlockSize_pos _ hne) le_rfl, rfl⟩,
    bwtRecords_wf _ hx.length_lt, fun r => rfl, hlen, fun hfit => ?_, fun hlong => ?_⟩
  · exact ((concludes_bwtEnc hx).completes_iff _).2 ⟨rfl, hlen.trans_le hfit⟩
  · exact ((concludes_bwtEnc hx).failsWith_iff _).2 (.inr ⟨_, rfl, hlong.trans_eq hlen.symm, rfl⟩)

/-- Settles O39: the encoder's records are good ones, and the inverse of each is its piece. -/
theorem bwtRoundTrip : Obligations.BwtRoundTrip := by
  refine ⟨fun t => bwtInvBlock_bwtBlock, fun b x => bwtDec_bwtEnc b, fun s s' x y hx henc hy hfit => ?_⟩
  obtain ⟨hout, -⟩ := ((concludes_bwtEnc hx).completes_iff y).1 henc
  cases hout
  exact ((concludes_bwtDec hy).completes_iff x).2 ⟨bwtDec_bwtEnc _ hx.length_lt, hfit⟩

/-- Settles O40: the decoder reads each record of the list, and the walk stays within its rows. -/
theorem bwtDecReadsRecords : Obligations.BwtDecReadsRecords := by
  refine fun s recs hrecs hx => ⟨fun r hr => ⟨bwtInvBlock_length r, fun k hk => ?_⟩, fun hfit => ?_⟩
  · exact getElem?_bwtInvBlock (bwtRecord_wf_iff.1 (hrecs r hr)).2 hk
  · refine ((concludes_bwtDec hx).completes_iff _).2 ⟨bwtDec_records hrecs, ?_⟩
    simpa [List.length_flatMap, bwtInvBlock_length] using hfit

/-- Settles O41: the bad record is the first of what is left after the good ones, and its length is tested first. -/
theorem bwtDecFirstBadRecord : Obligations.BwtDecFirstBadRecord := by
  refine fun s recs tail hrecs hx => ⟨fun hpos hlen => ?_, fun n pi rest hn hpi htail => ?_⟩
  · exact failsWith_bwtDec_of_tail (e := .bwtTrunc) hrecs hx (bwtDec_short hpos hlen)
  · subst htail
    have hheader := bwtDec_header hn hpi (rest := rest)
    refine ⟨fun hshort => ?_, fun hfull hindex => ?_⟩
    · exact failsWith_bwtDec_of_tail (e := .bwtTrunc) hrecs hx (hheader.trans (if_pos hshort))
    · rw [if_neg (Nat.not_lt.2 hfull), if_pos hindex] at hheader
      exact failsWith_bwtDec_of_tail (e := .bwtIndex) hrecs hx hheader

end Sys2Proof.Machine
end

section
/-!
PROOFS. The Huffman tree (44_huffman.md R172, R173): the order of the pool, and the leaves that merging keeps.
-/

namespace Sys2Proof.Machine

/-! The order of the pool (44_huffman.md R172, R173). -/

theorem PoolItem.before_iff {a b : PoolItem} :
    a.before b = true ↔ a.weight < b.weight ∨ a.weight = b.weight ∧ a.seq < b.seq := by
  simp [PoolItem.before]

theorem PoolItem.before_trans {a b c : PoolItem} (hab : a.before b = true) (hbc : b.before c = true) :
    a.before c = true := by
  rw [PoolItem.before_iff] at *
  omega

/-- Items with distinct sequence numbers are ordered one way or the other. -/
theorem PoolItem.before_of_not_before {a b : PoolItem} (hne : b.seq ≠ a.seq) (h : ¬ a.before b = true) :
    b.before a = true := by
  rw [PoolItem.before_iff] at *
  omega

theorem poolInsert_eq_orderedInsert (x : PoolItem) (q : List PoolItem) :
    poolInsert x q = q.orderedInsert (fun a b => a.before b = true) x := by
  induction q with
  | nil => rfl
  | cons y ys ih => rw [poolInsert, List.orderedInsert_cons, ih]

theorem poolInsert_perm (x : PoolItem) (q : List PoolItem) : (poolInsert x q).Perm (x :: q) :=
  poolInsert_eq_orderedInsert x q ▸ List.perm_orderedInsert _ x q

/-- Inserting under a fresh number keeps the order of extraction. -/
theorem poolInsert_pairwise {x : PoolItem} {q : List PoolItem} (hq : q.Pairwise fun a b => a.before b = true)
    (hfresh : ∀ y ∈ q, y.seq ≠ x.seq) : (poolInsert x q).Pairwise fun a b => a.before b = true := by
  induction q with
  | nil => exact List.pairwise_singleton _ x
  | cons y ys ih =>
    obtain ⟨hy, hys⟩ := List.pairwise_cons.1 hq
    obtain ⟨hyx, hysx⟩ := List.forall_mem_cons.1 hfresh
    rw [poolInsert]
    split
    case isTrue hxy =>
      exact List.pairwise_cons.2 ⟨List.forall_mem_cons.2 ⟨hxy, fun z hz => PoolItem.before_trans hxy (hy z hz)⟩, hq⟩
    case isFalse hxy =>
      refine List.pairwise_cons.2 ⟨fun z hz => ?_, ih hys hysx⟩
      obtain rfl | hz := List.mem_cons.1 ((poolInsert_perm x ys).mem_iff.1 hz)
      · exact PoolItem.before_of_not_before hyx hxy
      · exact hy z hz

/-! The pool of a table. -/

theorem poolOfTable_perm (j : Nat) (tbl : List HufEntry) : (poolOfTable j tbl).Perm
    (tbl.mapIdx fun i e => { weight := e.freq, seq := j + i, tree := .leaf e.sym }) := by
  induction tbl generalizing j with
  | nil => exact .nil
  | cons e rest ih =>
    rw [List.mapIdx_cons, poolOfTable]
    refine (poolInsert_perm _ _).trans (.cons _ ((ih (j + 1)).trans (.of_eq ?_)))
    simp only [Nat.add_assoc, Nat.add_comm 1]

theorem le_seq_of_mem_poolOfTable {j : Nat} {tbl : List HufEntry} {a : PoolItem} (ha : a ∈ poolOfTable j tbl) :
    j ≤ a.seq := by
  obtain ⟨i, _, rfl⟩ := List.mem_mapIdx.1 ((poolOfTable_perm j tbl).mem_iff.1 ha)
  exact Nat.le_add_right j i

/-- The entries after an entry have larger numbers, so its number is fresh. -/
theorem poolOfTable_pairwise (j : Nat) (tbl : List HufEntry) :
    (poolOfTable j tbl).Pairwise fun a b => a.before b = true := by
  induction tbl generalizing j with
  | nil => exact .nil
  | cons e rest ih =>
    exact poolInsert_pairwise (ih (j + 1)) fun y hy => Nat.ne_of_gt (le_seq_of_mem_poolOfTable hy)

/-! The leaves of the tree. -/

/-- The symbols of the leaves of a pool's trees. -/
def poolLeaves (q : List PoolItem) : List Byte := q.flatMap fun a => hufLeaves a.tree

theorem poolLeaves_insert_perm (x : PoolItem) (q : List PoolItem) :
    (poolLeaves (poolInsert x q)).Perm (hufLeaves x.tree ++ poolLeaves q) :=
  (poolInsert_perm x q).flatMap_right _

theorem poolLeaves_poolOfTable_perm (j : Nat) (tbl : List HufEntry) :
    (poolLeaves (poolOfTable j tbl)).Perm (tbl.map HufEntry.sym) := by
  induction tbl generalizing j with
  | nil => exact .nil
  | cons e rest ih => exact (poolLeaves_insert_perm _ _).trans ((ih (j + 1)).cons e.sym)

theorem poolInsert_length (x : PoolItem) (q : List PoolItem) : (poolInsert x q).length = q.length + 1 :=
  (poolInsert_perm x q).length_eq

theorem poolOfTable_length (j : Nat) (tbl : List HufEntry) : (poolOfTable j tbl).length = tbl.length := by
  simpa using (poolOfTable_perm j tbl).length_eq

/-- Each round leaves one item less and the same leaves, so enough rounds end with one tree of all the leaves. -/
theorem exists_poolMerge (fuel next : Nat) (q : List PoolItem) (hne : q ≠ []) (hfuel : q.length ≤ fuel + 1) :
    ∃ tree, poolMerge fuel next q = some tree ∧ (hufLeaves tree).Perm (poolLeaves q) := by
  fun_induction poolMerge fuel next q with
  | case1 => exact absurd rfl hne
  | case2 fuel next a => exact ⟨a.tree, rfl, .of_eq (by simp [poolLeaves])⟩
  | case3 => simp at hfuel
  | case4 next a b rest fuel ih =>
    obtain ⟨tree, htree, hperm⟩ := ih (List.ne_nil_of_length_eq_add_one (poolInsert_length _ _))
      (by simpa [poolInsert_length] using hfuel)
    exact ⟨tree, htree, hperm.trans ((poolLeaves_insert_perm _ _).trans (.of_eq (by simp [poolLeaves, hufLeaves])))⟩

theorem exists_hufTree {tbl : List HufEntry} (hne : tbl ≠ []) :
    ∃ tree, hufTree tbl = some tree ∧ (hufLeaves tree).Perm (tbl.map HufEntry.sym) := by
  have hlen := poolOfTable_length 0 tbl
  obtain ⟨tree, htree, hperm⟩ := exists_poolMerge tbl.length tbl.length (poolOfTable 0 tbl)
    (by rwa [← List.length_pos_iff, hlen, List.length_pos_iff]) (by omega)
  exact ⟨tree, htree, hperm.trans (poolLeaves_poolOfTable_perm 0 tbl)⟩

theorem hufLeaves_perm {tbl : List HufEntry} {tree : HufTree} (hne : tbl ≠ []) (htree : hufTree tbl = some tree) :
    (hufLeaves tree).Perm (tbl.map HufEntry.sym) := by
  obtain ⟨_, hsome, hperm⟩ := exists_hufTree hne
  cases htree.symm.trans hsome
  exact hperm

theorem hufLeaves_length (t : HufTree) : (hufLeaves t).length = hufInner t + 1 := by
  induction t with
  | leaf s => rfl
  | node l r ihl ihr =>
    rw [hufLeaves, List.length_append, ihl, ihr, hufInner]
    omega

theorem hufInner_eq {tbl : List HufEntry} {tree : HufTree} (hne : tbl ≠ []) (htree : hufTree tbl = some tree) :
    hufInner tree = tbl.length - 1 := by
  have hlen := (hufLeaves_perm hne htree).length_eq
  rw [hufLeaves_length, List.length_map] at hlen
  omega

/-! Well-formed tables (44_huffman.md R171). -/

theorem tableWf_iff {tbl : List HufEntry} : HufEntry.tableWf tbl = true ↔
    1 ≤ tbl.length ∧ tbl.length ≤ 256 ∧ (tbl.map HufEntry.sym).Nodup ∧ ∀ e ∈ tbl, 1 ≤ e.freq ∧ e.freq < 2 ^ 32 := by
  simp [HufEntry.tableWf, and_assoc]

theorem ne_nil_of_tableWf {tbl : List HufEntry} (hwf : HufEntry.tableWf tbl = true) : tbl ≠ [] :=
  List.length_pos_iff.1 (tableWf_iff.1 hwf).1

/-- Settles O42: the pool is a sorted list of the entries, and merging keeps the leaves, of which a tree has one more
than internal nodes. -/
theorem hufTreeMergesTwoSmallest : Obligations.HufTreeMergesTwoSmallest := by
  refine ⟨fun tbl => ⟨?_, poolOfTable_pairwise 0 tbl, rfl⟩,
    fun x q hq hfresh => ⟨poolInsert_perm x q, poolInsert_pairwise hq hfresh⟩,
    fun fuel next a b rest => ⟨?_, rfl⟩, fun tbl hwf => ?_⟩
  · simpa using poolOfTable_perm 0 tbl
  · cases fuel <;> rfl
  · obtain ⟨tree, htree, hperm⟩ := exists_hufTree (ne_nil_of_tableWf hwf)
    exact ⟨tree, htree, hperm, hufInner_eq (ne_nil_of_tableWf hwf) htree⟩

end Sys2Proof.Machine
end

section
/-!
PROOFS. The Huffman codes (44_huffman.md R174, R175) and the decoder's bit loop (R186): a code leads the loop to its
leaf, and bits that no code begins raise `F_HUF_BITS`.
-/

namespace Sys2Proof.Machine

/-! The walk of a tree (44_huffman.md R174). -/

/-- The child that a bit leads to: 0 left and 1 right (44_huffman.md R174). -/
def hufChild (l r : HufTree) (bit : Bool) : HufTree := if bit then r else l

theorem hufInner_hufChild_lt (l r : HufTree) (bit : Bool) : hufInner (hufChild l r bit) < hufInner (.node l r) := by
  cases bit with
  | false => exact Nat.lt_succ_of_le (Nat.le_add_right _ _)
  | true => exact Nat.lt_succ_of_le (Nat.le_add_left _ _)

/-- A code with more bits before it. -/
def prependBits (pre : List Bool) (c : HufCode) : HufCode := { c with bits := pre ++ c.bits }

theorem prependBits_comp (pre pre' : List Bool) : prependBits pre ∘ prependBits pre' = prependBits (pre ++ pre') :=
  funext fun c => by simp [prependBits]

theorem hufWalk_eq_map (t : HufTree) (pre : List Bool) : hufWalk t pre = (hufWalk t []).map (prependBits pre) := by
  induction t generalizing pre with
  | leaf s => simp [hufWalk, prependBits]
  | node l r ihl ihr =>
    simp only [hufWalk, List.nil_append]
    rw [ihl (pre ++ _), ihr (pre ++ _), ihl [false], ihr [true]]
    simp [prependBits_comp]

/-- A walk from a node goes to one of its children first. -/
theorem mem_hufWalk_node {l r : HufTree} {c : HufCode} : c ∈ hufWalk (.node l r) [] ↔
    ∃ bit, ∃ d ∈ hufWalk (hufChild l r bit) [], prependBits [bit] d = c := by
  rw [hufWalk, hufWalk_eq_map l, hufWalk_eq_map r]
  simp [hufChild]

theorem hufWalk_map_sym (t : HufTree) (pre : List Bool) : (hufWalk t pre).map HufCode.sym = hufLeaves t := by
  induction t generalizing pre with
  | leaf s => rfl
  | node l r ihl ihr => rw [hufWalk, List.map_append, ihl, ihr, hufLeaves]

/-- A walk passes an internal node with each bit. -/
theorem hufWalk_bits_length_le (t : HufTree) : ∀ c ∈ hufWalk t [], c.bits.length ≤ hufInner t := by
  induction t with
  | leaf s => exact fun c hc => List.mem_singleton.1 hc ▸ le_rfl
  | node l r ihl ihr =>
    intro c hc
    obtain ⟨bit, d, hd, rfl⟩ := mem_hufWalk_node.1 hc
    have hlen : d.bits.length ≤ hufInner (hufChild l r bit) := by
      cases bit with
      | false => exact ihl d hd
      | true => exact ihr d hd
    exact Nat.succ_le_of_lt (hlen.trans_lt (hufInner_hufChild_lt l r bit))

/-! The codes (44_huffman.md R174, R175). -/

theorem hufCodes_map_sym (t : HufTree) : (hufCodes t).map HufCode.sym = hufLeaves t := by
  cases t with
  | leaf s => rfl
  | node l r => exact hufWalk_map_sym _ []

section

variable {t : HufTree} {c : HufCode}

theorem hufCodes_bits_ne_nil (hc : c ∈ hufCodes t) : c.bits ≠ [] := by
  cases t with
  | leaf s => exact List.mem_singleton.1 hc ▸ List.cons_ne_nil _ _
  | node l r =>
    obtain ⟨bit, d, -, rfl⟩ := mem_hufWalk_node.1 hc
    exact List.cons_ne_nil _ _

theorem hufCodes_bits_length_le (hc : c ∈ hufCodes t) : c.bits.length ≤ max 1 (hufInner t) := by
  cases t with
  | leaf s => exact List.mem_singleton.1 hc ▸ le_rfl
  | node l r => exact le_max_of_le_right (hufWalk_bits_length_le _ c hc)

/-- A tree without internal nodes is one leaf, whose code is "0". -/
theorem hufCodes_bits_of_hufInner_eq_zero (ht : hufInner t = 0) (hc : c ∈ hufCodes t) : c.bits = [false] := by
  cases t with
  | leaf s => exact List.mem_singleton.1 hc ▸ rfl
  | node l r => exact absurd ht (Nat.succ_ne_zero _)

end

theorem codeOf_eq_of_mem {cs : List HufCode} (hnodup : (cs.map HufCode.sym).Nodup) {c : HufCode} (hc : c ∈ cs) :
    codeOf cs c.sym = c.bits := by
  induction cs with
  | nil => exact absurd hc List.not_mem_nil
  | cons d ds ih =>
    obtain ⟨hd, hds⟩ := List.nodup_cons.1 hnodup
    rw [codeOf]
    obtain rfl | hc := List.mem_cons.1 hc
    · exact if_pos rfl
    · have hsym : d.sym ≠ c.sym := fun h => hd (h ▸ List.mem_map_of_mem hc)
      rw [if_neg hsym, ih hds hc]

theorem codeOf_mem {cs : List HufCode} {s : Byte} (hs : s ∈ cs.map HufCode.sym) :
    { sym := s, bits := codeOf cs s } ∈ cs := by
  induction cs with
  | nil => exact absurd hs List.not_mem_nil
  | cons d ds ih =>
    rw [codeOf]
    split
    case isTrue hsym =>
      subst hsym
      exact List.mem_cons_self
    case isFalse hsym => exact List.mem_cons_of_mem _ (ih (List.mem_of_ne_of_mem (Ne.symm hsym) hs))

theorem codeOf_mem_hufCodes {t : HufTree} {s : Byte} (hs : s ∈ hufLeaves t) :
    { sym := s, bits := codeOf (hufCodes t) s } ∈ hufCodes t :=
  codeOf_mem (by rwa [hufCodes_map_sym])

/-! The bit loop (44_huffman.md R186): its equations at a node, and where a code leads it. -/

section

variable {root l r l' r' : HufTree} {s : Byte} {bit : Bool} {bits : List Bool}

@[simp] theorem hufBits_root_nil : hufBits root root [] = .ok [] := by
  simp [hufBits]

theorem hufBits_leaf_child (hchild : hufChild l r bit = .leaf s) :
    hufBits root (.node l r) (bit :: bits) = (hufBits root root bits).map (s :: ·) := by
  rw [hufChild] at hchild
  rw [hufBits, hchild]

theorem hufBits_node_child (hchild : hufChild l r bit = .node l' r') :
    hufBits root (.node l r) (bit :: bits) = hufBits root (.node l' r') bits := by
  rw [hufChild] at hchild
  rw [hufBits, hchild]

/-- The bits of a code lead the loop to the code's leaf. -/
theorem hufBits_code_append (root t : HufTree) (rest : List Bool) : ∀ c ∈ hufCodes t,
    hufBits root t (c.bits ++ rest) = (hufBits root root rest).map (c.sym :: ·) := by
  induction t with
  | leaf s => exact fun c hc => List.mem_singleton.1 hc ▸ rfl
  | node l r ihl ihr =>
    intro c hc
    obtain ⟨bit, d, hd, rfl⟩ := mem_hufWalk_node.1 hc
    have ih : ∀ d ∈ hufCodes (hufChild l r bit), hufBits root (hufChild l r bit) (d.bits ++ rest) =
        (hufBits root root rest).map (d.sym :: ·) := by
      cases bit with
      | false => exact ihl
      | true => exact ihr
    cases hchild : hufChild l r bit with
    | leaf s =>
      rw [hchild] at hd
      cases List.mem_singleton.1 hd
      exact hufBits_leaf_child hchild
    | node l' r' =>
      rw [hchild] at hd ih
      exact (hufBits_node_child hchild).trans (ih d hd)

/-- Bits that no code begins end the loop at a leaf it cannot leave or at a node below the root. -/
theorem hufBits_of_no_code (root t : HufTree) (bits : List Bool) (ht : hufInner t ≤ hufInner root) (hne : bits ≠ [])
    (hno : ∀ c ∈ hufCodes t, ¬ c.bits <+: bits) : hufBits root t bits = .error .hufBits := by
  induction bits generalizing t with
  | nil => exact absurd rfl hne
  | cons bit bits ih =>
    cases t with
    | leaf s =>
      cases bit with
      | false => exact absurd (List.prefix_append [false] bits) (hno _ List.mem_cons_self)
      | true => rfl
    | node l r =>
      have hlt := (hufInner_hufChild_lt l r bit).trans_le ht
      have hno' : ∀ d ∈ hufWalk (hufChild l r bit) [], ¬ d.bits <+: bits := fun d hd hpre =>
        hno _ (mem_hufWalk_node.2 ⟨bit, d, hd, rfl⟩) (List.cons_prefix_cons.2 ⟨rfl, hpre⟩)
      cases hchild : hufChild l r bit with
      | leaf s =>
        rw [hchild] at hno'
        exact absurd List.nil_prefix (hno' _ List.mem_cons_self)
      | node l' r' =>
        rw [hchild] at hlt hno'
        rw [hufBits_node_child hchild]
        cases bits with
        | nil =>
          have hroot : HufTree.node l' r' ≠ root := fun h => hlt.ne (h ▸ rfl)
          simp [hufBits, hroot]
        | cons bit' bits => exact ih _ hlt.le (List.cons_ne_nil _ _) hno'

end

/-! What the decoder gives (44_huffman.md R186, R189). -/

section

variable {tree : HufTree} {y : List Byte}

theorem hufBits_codes (hy : ∀ b ∈ y, b ∈ hufLeaves tree) :
    hufBits tree tree (y.flatMap (codeOf (hufCodes tree))) = .ok y := by
  induction y with
  | nil => exact hufBits_root_nil
  | cons b y ih =>
    obtain ⟨hb, hy⟩ := List.forall_mem_cons.1 hy
    rw [List.flatMap_cons, hufBits_code_append tree tree _ _ (codeOf_mem_hufCodes hb), ih hy]
    rfl

/-- Bits are a sequence of codes or raise `F_HUF_BITS`. -/
theorem hufBits_cases (hnodup : (hufLeaves tree).Nodup) (bits : List Bool) :
    (∃ y : List Byte, (∀ b ∈ y, b ∈ hufLeaves tree) ∧ bits = y.flatMap (codeOf (hufCodes tree))) ∨
      hufBits tree tree bits = .error .hufBits := by
  by_cases hne : bits = []
  · exact .inl ⟨[], by simp, hne⟩
  · by_cases hcode : ∃ c ∈ hufCodes tree, c.bits <+: bits
    · obtain ⟨c, hc, rest, hbits⟩ := hcode
      have hpos := List.length_pos_iff.2 (hufCodes_bits_ne_nil hc)
      have hshorter : rest.length < bits.length := by
        rw [← hbits, List.length_append]
        omega
      rw [← hbits]
      obtain ⟨y, hy, rfl⟩ | herr := hufBits_cases hnodup rest
      · have hsym : c.sym ∈ hufLeaves tree := hufCodes_map_sym tree ▸ List.mem_map_of_mem hc
        refine .inl ⟨c.sym :: y, List.forall_mem_cons.2 ⟨hsym, hy⟩, ?_⟩
        rw [List.flatMap_cons, codeOf_eq_of_mem (by rwa [hufCodes_map_sym]) hc]
      · refine .inr ?_
        rw [hufBits_code_append tree tree rest c hc, herr]
        rfl
    · exact .inr (hufBits_of_no_code tree tree bits le_rfl hne fun c hc hpre => hcode ⟨c, hc, hpre⟩)
termination_by bits.length

/-- The loop decodes a code to its own symbol, so a code that begins with another's bits is the same symbol's. -/
theorem hufCodes_sym_eq_of_prefix {c c' : HufCode} (hc : c ∈ hufCodes tree) (hc' : c' ∈ hufCodes tree)
    (hpre : c.bits <+: c'.bits) : c.sym = c'.sym := by
  obtain ⟨rest, hrest⟩ := hpre
  have hdec' : hufBits tree tree c'.bits = .ok [c'.sym] := by
    simpa [Except.map] using hufBits_code_append tree tree [] c' hc'
  have hdec := hufBits_code_append tree tree rest c hc
  rw [hrest, hdec'] at hdec
  cases hres : hufBits tree tree rest with
  | error e => simp [hres, Except.map] at hdec
  | ok y =>
    simp only [hres, Except.map, Except.ok.injEq, List.cons.injEq] at hdec
    exact hdec.1.symm

end

theorem hufLeaves_nodup {tbl : List HufEntry} {tree : HufTree} (hwf : HufEntry.tableWf tbl = true)
    (htree : hufTree tbl = some tree) : (hufLeaves tree).Nodup :=
  (hufLeaves_perm (ne_nil_of_tableWf hwf) htree).nodup_iff.2 (tableWf_iff.1 hwf).2.2.1

theorem mem_hufLeaves {tbl : List HufEntry} {tree : HufTree} (hwf : HufEntry.tableWf tbl = true)
    (htree : hufTree tbl = some tree) {b : Byte} : b ∈ hufLeaves tree ↔ b ∈ tbl.map HufEntry.sym :=
  (hufLeaves_perm (ne_nil_of_tableWf hwf) htree).mem_iff

theorem hufCodes_bits_length_le_255 {tbl : List HufEntry} {tree : HufTree} (hwf : HufEntry.tableWf tbl = true)
    (htree : hufTree tbl = some tree) {c : HufCode} (hc : c ∈ hufCodes tree) : c.bits.length ≤ 255 := by
  obtain ⟨-, hlen, -⟩ := tableWf_iff.1 hwf
  have hbits := hufCodes_bits_length_le hc
  rw [hufInner_eq (ne_nil_of_tableWf hwf) htree] at hbits
  omega

/-- Settles O43: a walk passes an internal node with each bit, and the bit loop tells the codes apart. -/
theorem hufCodesPrefixFree : Obligations.HufCodesPrefixFree := by
  refine ⟨fun l r s pre => ⟨rfl, rfl, rfl⟩, fun tbl tree hwf htree => ⟨?_, fun c hc => ?_, ?_⟩⟩
  · rw [hufCodes_map_sym]
    exact hufLeaves_perm (ne_nil_of_tableWf hwf) htree
  · have hinner := hufInner_eq (ne_nil_of_tableWf hwf) htree
    have hlen := hufCodes_bits_length_le hc
    refine ⟨List.length_pos_iff.2 (hufCodes_bits_ne_nil hc), hufCodes_bits_length_le_255 hwf htree hc,
      fun hk => by omega, fun hk => hufCodes_bits_of_hufInner_eq_zero (by omega) hc, codeOf_eq_of_mem ?_ hc⟩
    rw [hufCodes_map_sym]
    exact hufLeaves_nodup hwf htree
  · exact fun c hc c' hc' hne hpre => hne (hufCodes_sym_eq_of_prefix hc hc' hpre)

end Sys2Proof.Machine
end

section
/-!
PROOFS. Frequency tables in the stream (44_huffman.md R171, R185): `ParseTable` accepts exactly the bytes of well-formed
tables, and from it what `HUF_BUILD` and `HUF_DEC` answer on every input.
-/

namespace Sys2Proof.Machine

/-! `ParseTable` (44_huffman.md R185). -/

theorem byteOf_eq_of_mod {n : Nat} {b : Byte} (h : n % 256 = b.toNat) : byteOf n = b :=
  BitVec.eq_of_toNat_eq (by simp [byteOf, h])

theorem be16_rd16 (a b : Byte) : be16 (rd16 a b) = [a, b] := by
  have ha := a.isLt
  have hb := b.isLt
  rw [be16, rd16, byteOf_eq_of_mod (b := a) (by omega), byteOf_eq_of_mod (b := b) (by omega)]

theorem be32_rd32 (a b c d : Byte) : be32 (rd32 a b c d) = [a, b, c, d] := by
  have ha := a.isLt
  have hb := b.isLt
  have hc := c.isLt
  have hd := d.isLt
  rw [be32, rd32, byteOf_eq_of_mod (b := a) (by omega), byteOf_eq_of_mod (b := b) (by omega),
    byteOf_eq_of_mod (b := c) (by omega), byteOf_eq_of_mod (b := d) (by omega)]

theorem nodup_map_sym_concat {done : List HufEntry} {e : HufEntry} :
    ((done ++ [e]).map HufEntry.sym).Nodup ↔ e.sym ∉ done.map HufEntry.sym ∧ (done.map HufEntry.sym).Nodup := by
  rw [List.map_append, List.map_singleton, List.nodup_append_comm, List.singleton_append, List.nodup_cons]

/-- The entries after those read pass the loop's tests: the frequencies fit and no symbol stands twice. -/
theorem parseEntries_append (done more : List HufEntry) (rest : List Byte)
    (hfreq : ∀ e ∈ more, 1 ≤ e.freq ∧ e.freq < 2 ^ 32) (hnodup : ((done ++ more).map HufEntry.sym).Nodup) :
    parseEntries more.length done (more.flatMap hufEntryBytes ++ rest) = .ok (done ++ more, rest) := by
  induction more generalizing done with
  | nil => simp [parseEntries]
  | cons e more ih =>
    obtain ⟨⟨hpos, hlt⟩, hfreq⟩ := List.forall_mem_cons.1 hfreq
    rw [List.append_cons] at hnodup
    have hnew : e.sym ∉ done.map HufEntry.sym :=
      (nodup_map_sym_concat.1 (hnodup.sublist ((List.sublist_append_left _ _).map _))).1
    simp only [List.flatMap_cons, hufEntryBytes, be32, List.cons_append, List.nil_append, List.append_assoc,
      List.length_cons, parseEntries, rd32_be32 e.freq hlt, Nat.ne_of_gt hpos, hnew, if_false, ih (done ++ [e]) hfreq hnodup]

/-- What the loop accepts is entries that pass its tests. -/
theorem exists_of_parseEntries_eq_ok {k : Nat} {done tbl : List HufEntry} {d rest : List Byte}
    (h : parseEntries k done d = .ok (tbl, rest)) (hdone : (done.map HufEntry.sym).Nodup) :
    ∃ more, tbl = done ++ more ∧ more.length = k ∧ d = more.flatMap hufEntryBytes ++ rest ∧
      (∀ e ∈ more, 1 ≤ e.freq ∧ e.freq < 2 ^ 32) ∧ (tbl.map HufEntry.sym).Nodup := by
  fun_induction parseEntries k done d with
  | case1 done d =>
    cases h
    exact ⟨[], by simp, rfl, rfl, by simp, hdone⟩
  | case2 => cases h
  | case3 => cases h
  | case4 k done s f0 f1 f2 f3 d f hpos hnew ih =>
    obtain ⟨more, rfl, rfl, rfl, hfreq, hnodup⟩ := ih h (nodup_map_sym_concat.2 ⟨hnew, hdone⟩)
    have hf : 1 ≤ f ∧ f < 2 ^ 32 := ⟨Nat.pos_of_ne_zero hpos, rd32_lt f0 f1 f2 f3⟩
    refine ⟨⟨s, f⟩ :: more, by simp, rfl, ?_, List.forall_mem_cons.2 ⟨hf, hfreq⟩, hnodup⟩
    simp [hufEntryBytes, f, be32_rd32]
  | case5 => cases h

theorem parseEntries_error {k : Nat} {done : List HufEntry} {d : List Byte} {e : Err}
    (h : parseEntries k done d = .error e) : e = .hufHeader := by
  fun_induction parseEntries k done d with
  | case1 => cases h
  | case4 _ _ _ _ _ _ _ _ _ _ _ ih => exact ih h
  | case2 | case3 | case5 => cases h; rfl

theorem entriesBytes_length (tbl : List HufEntry) : (tbl.flatMap hufEntryBytes).length = 5 * tbl.length := by
  simp [hufEntryBytes, List.length_flatMap, Nat.mul_comm]

theorem hufTableBytes_append (tbl : List HufEntry) (rest : List Byte) : hufTableBytes tbl ++ rest =
    byteOf (tbl.length / 256) :: byteOf tbl.length :: (tbl.flatMap hufEntryBytes ++ rest) := rfl

theorem hufTableBytes_length (tbl : List HufEntry) : (hufTableBytes tbl).length = 2 + 5 * tbl.length := by
  rw [hufTableBytes, List.length_append, be16_length, entriesBytes_length]

/-- The tests of the count in their order, and then the entries. -/
theorem parseTable_cons_cons (k0 k1 : Byte) (rest : List Byte) : parseTable (k0 :: k1 :: rest) =
    if rd16 k0 k1 = 0 ∨ rd16 k0 k1 > 256 then .error .hufHeader
    else if rest.length < 5 * rd16 k0 k1 then .error .hufHeader
    else parseEntries (rd16 k0 k1) [] rest := rfl

theorem parseTable_error {d : List Byte} {e : Err} (h : parseTable d = .error e) : e = .hufHeader := by
  match d, h with
  | [], h | [_], h =>
    cases h
    rfl
  | k0 :: k1 :: d, h =>
    rw [parseTable_cons_cons] at h
    split at h
    next =>
      cases h
      rfl
    next =>
      split at h
      next =>
        cases h
        rfl
      next => exact parseEntries_error h

/-- `ParseTable` takes one well-formed table off the bytes, and nothing else. -/
theorem parseTable_eq_ok_iff {d : List Byte} {tbl : List HufEntry} {rest : List Byte} :
    parseTable d = .ok (tbl, rest) ↔ HufEntry.tableWf tbl = true ∧ d = hufTableBytes tbl ++ rest := by
  constructor
  · intro h
    match d, h with
    | k0 :: k1 :: d, h =>
      rw [parseTable_cons_cons] at h
      split at h
      next => cases h
      next hcount =>
        split at h
        next => cases h
        next =>
          obtain ⟨more, rfl, hlen, rfl, hfreq, hnodup⟩ := exists_of_parseEntries_eq_ok h List.nodup_nil
          refine ⟨tableWf_iff.2 ⟨by omega, by omega, hnodup, hfreq⟩, ?_⟩
          simp [hufTableBytes, hlen, be16_rd16]
  · rintro ⟨hwf, rfl⟩
    obtain ⟨hpos, hlen, hnodup, hfreq⟩ := tableWf_iff.1 hwf
    have hshort : ¬ (tbl.flatMap hufEntryBytes ++ rest).length < 5 * tbl.length := by
      rw [List.length_append, entriesBytes_length]
      omega
    rw [hufTableBytes_append, parseTable_cons_cons, rd16_be16 tbl.length (by omega), if_neg (by omega), if_neg hshort,
      parseEntries_append [] tbl rest hfreq hnodup, List.nil_append]

/-! `HUF_BUILD` (44_huffman.md R176, R177). -/

/-- The bytes of a table begin with its count. -/
theorem exists_cons_eq_hufTableBytes_append (tbl : List HufEntry) (rest : List Byte) :
    ∃ b d, hufTableBytes tbl ++ rest = b :: d := ⟨_, _, hufTableBytes_append tbl rest⟩

/-- The codebook of a table (30_encoding.md R81). -/
def codebookBytes (tbl : List HufEntry) (tree : HufTree) : List Byte :=
  tbl.flatMap fun e => hufCodeBytes { sym := e.sym, bits := codeOf (hufCodes tree) e.sym }

theorem hufBuild_table {tbl : List HufEntry} {tree : HufTree} (hwf : HufEntry.tableWf tbl = true)
    (htree : hufTree tbl = some tree) : hufBuild (hufTableBytes tbl) = .ok (codebookBytes tbl tree) := by
  have hparse : parseTable (hufTableBytes tbl) = .ok (tbl, []) := parseTable_eq_ok_iff.2 ⟨hwf, by simp⟩
  obtain ⟨b, d, hcons⟩ := exists_cons_eq_hufTableBytes_append tbl []
  rw [List.append_nil] at hcons
  rw [hcons] at hparse ⊢
  simp only [hufBuild, hparse, htree]
  rfl

theorem hufBuild_of_not_table {x : List Byte} (hne : x ≠ [])
    (hnot : ¬ ∃ tbl : List HufEntry, HufEntry.tableWf tbl = true ∧ x = hufTableBytes tbl) :
    hufBuild x = .error .hufHeader := by
  obtain ⟨b, d, rfl⟩ := List.exists_cons_of_ne_nil hne
  cases hparse : parseTable (b :: d) with
  | error e =>
    cases parseTable_error hparse
    simp only [hufBuild, hparse]
  | ok r =>
    obtain ⟨tbl, rest⟩ := r
    cases rest with
    | nil =>
      obtain ⟨hwf, hbytes⟩ := parseTable_eq_ok_iff.1 hparse
      exact absurd ⟨tbl, hwf, by rw [hbytes, List.append_nil]⟩ hnot
    | cons b' rest => simp only [hufBuild, hparse]

theorem hufBuild_eq_header_iff {x : List Byte} (hne : x ≠ []) : hufBuild x = .error .hufHeader ↔
    ¬ ∃ tbl : List HufEntry, HufEntry.tableWf tbl = true ∧ x = hufTableBytes tbl := by
  refine ⟨?_, hufBuild_of_not_table hne⟩
  rintro herr ⟨tbl, hwf, rfl⟩
  obtain ⟨tree, htree, -⟩ := exists_hufTree (ne_nil_of_tableWf hwf)
  cases herr.symm.trans (hufBuild_table hwf htree)

/-- An entry of the codebook is a symbol, a length and at most 255 bits (44_huffman.md R176). -/
theorem hufCodeBytes_length_le {c : HufCode} (hc : c.bits.length ≤ 255) : (hufCodeBytes c).length ≤ 34 := by
  obtain ⟨-, hlen⟩ := unpack_pack c.bits
  obtain ⟨hpad, -⟩ := padBits_spec c.bits.length
  rw [hufCodeBytes, List.length_cons, List.length_cons]
  omega

theorem codebookBytes_length_le {tbl : List HufEntry} {tree : HufTree} (hwf : HufEntry.tableWf tbl = true)
    (htree : hufTree tbl = some tree) : (codebookBytes tbl tree).length ≤ 34 * tbl.length := by
  have hentry : ∀ n ∈ tbl.map fun e => (hufCodeBytes ⟨e.sym, codeOf (hufCodes tree) e.sym⟩).length, n ≤ 34 := by
    intro n hn
    obtain ⟨e, he, rfl⟩ := List.mem_map.1 hn
    have hsym : e.sym ∈ hufLeaves tree := (mem_hufLeaves hwf htree).2 (List.mem_map_of_mem he)
    exact hufCodeBytes_length_le (hufCodes_bits_length_le_255 hwf htree (codeOf_mem_hufCodes hsym))
  rw [codebookBytes, List.length_flatMap]
  simpa [Nat.mul_comm] using List.sum_le_card_nsmul _ _ hentry

/-! How the commands end (60_exceptions.md R281). -/

theorem eq_hufHeader_of_code {e : Err} (h : 0x16#8 = e.code) : e = .hufHeader := by
  revert h
  cases e <;> decide

theorem Concludes.failsWith_hufHeader_iff {i : Instr} {s : State} {r : Except Err (List Byte)} (h : Concludes i s r) :
    FailsWith i s 0x16#8 ↔ r = .error .hufHeader := by
  rw [h.failsWith_iff]
  constructor
  · rintro (⟨e, rfl, hcode⟩ | ⟨out, -, -, hcode⟩)
    · rw [eq_hufHeader_of_code hcode]
    · exact absurd hcode (by decide)
  · rintro rfl
    exact .inl ⟨.hufHeader, rfl, rfl⟩

theorem concludes_hufBuild {s : State} {x : List Byte} (hx : s.inputIs x) : Concludes .hufBuild s (hufBuild x) :=
  concludes_of_unitOf hx rfl

/-- Settles O45: the parser accepts exactly the bytes of a table. -/
theorem hufBuildRejectsExactly : Obligations.HufBuildRejectsExactly := fun _ _ hx hne =>
  (concludes_hufBuild hx).failsWith_hufHeader_iff.trans (hufBuild_eq_header_iff hne)

/-- Settles O44: the parser reads the table back, and its codes have at most 255 bits. -/
theorem hufBuildWritesCodebook : Obligations.HufBuildWritesCodebook := by
  intro s tbl hwf hx
  obtain ⟨tree, htree, -⟩ := exists_hufTree (ne_nil_of_tableWf hwf)
  have hend := concludes_hufBuild hx
  rw [hufBuild_table hwf htree] at hend
  refine ⟨tree, htree, ?_⟩
  rintro out rfl
  exact ⟨codebookBytes_length_le hwf htree, fun hfit => (hend.completes_iff _).2 ⟨rfl, hfit⟩,
    fun hlong => (hend.failsWith_iff _).2 (.inr ⟨_, rfl, hlong, rfl⟩)⟩

/-! `HUF_DEC` (44_huffman.md R186, R188). -/

/-- Behind a good header the decoder runs the bit loop on the bits before the pad. -/
theorem hufDec_header {tbl : List HufEntry} {tree : HufTree} {pad : Byte} {body : List Byte}
    (hwf : HufEntry.tableWf tbl = true) (htree : hufTree tbl = some tree) (hpad : pad.toNat ≤ 7)
    (hbody : pad.toNat ≤ 8 * body.length) : hufDec (hufTableBytes tbl ++ pad :: body) =
      hufBits tree tree ((body.flatMap bitsOfByte).take (8 * body.length - pad.toNat)) := by
  have hparse : parseTable (hufTableBytes tbl ++ pad :: body) = .ok (tbl, pad :: body) :=
    parseTable_eq_ok_iff.2 ⟨hwf, rfl⟩
  obtain ⟨b, d, hcons⟩ := exists_cons_eq_hufTableBytes_append tbl (pad :: body)
  rw [hcons] at hparse ⊢
  simp only [hufDec, hparse, htree, Nat.not_lt.2 hpad, Nat.not_lt.2 hbody, if_false]

/-- The input is a well-formed table, a pad byte of at most 7 and a body of at least that many bits
(44_huffman.md R188). -/
def IsHufStream (x : List Byte) : Prop :=
  ∃ (tbl : List HufEntry) (pad : Byte) (body : List Byte), HufEntry.tableWf tbl = true ∧ pad.toNat ≤ 7 ∧
    pad.toNat ≤ 8 * body.length ∧ x = hufTableBytes tbl ++ pad :: body

theorem hufDec_of_not_stream {x : List Byte} (hne : x ≠ []) (hnot : ¬ IsHufStream x) :
    hufDec x = .error .hufHeader := by
  obtain ⟨b, d, rfl⟩ := List.exists_cons_of_ne_nil hne
  cases hparse : parseTable (b :: d) with
  | error e =>
    cases parseTable_error hparse
    simp only [hufDec, hparse]
  | ok r =>
    obtain ⟨tbl, rest⟩ := r
    cases rest with
    | nil => simp only [hufDec, hparse]
    | cons pad body =>
      obtain ⟨hwf, hbytes⟩ := parseTable_eq_ok_iff.1 hparse
      simp only [hufDec, hparse]
      split
      case isTrue => rfl
      case isFalse hpad =>
        have hshort : 8 * body.length < pad.toNat :=
          Nat.lt_of_not_le fun hbody => hnot ⟨tbl, pad, body, hwf, Nat.le_of_not_lt hpad, hbody, hbytes⟩
        rw [if_pos hshort]

theorem hufDec_eq_header_iff {x : List Byte} (hne : x ≠ []) : hufDec x = .error .hufHeader ↔ ¬ IsHufStream x := by
  refine ⟨?_, hufDec_of_not_stream hne⟩
  rintro herr ⟨tbl, pad, body, hwf, hpad, hbody, rfl⟩
  obtain ⟨tree, htree, -⟩ := exists_hufTree (ne_nil_of_tableWf hwf)
  rw [hufDec_header hwf htree hpad hbody] at herr
  obtain ⟨y, hy, hbits⟩ | hbits := hufBits_cases (hufLeaves_nodup hwf htree)
    ((body.flatMap bitsOfByte).take (8 * body.length - pad.toNat))
  · rw [hbits, hufBits_codes hy] at herr
    cases herr
  · cases herr.symm.trans hbits

theorem concludes_hufDec {s : State} {x : List Byte} (hx : s.inputIs x) : Concludes .hufDec s (hufDec x) :=
  concludes_of_unitOf hx rfl

/-- Settles O47: the bit loop behind a good header has only its own error. -/
theorem hufDecHeaderExactly : Obligations.HufDecHeaderExactly := fun _ _ hx hne =>
  (concludes_hufDec hx).failsWith_hufHeader_iff.trans (hufDec_eq_header_iff hne)

/-- Settles O48: the bits before the pad are a sequence of codes, which the bit loop decodes, or raise its error. -/
theorem hufDecDecodesCodes : Obligations.HufDecDecodesCodes := by
  intro s tbl tree pad body bits hwf htree hpad hbody hx hbits
  have hend := concludes_hufDec hx
  rw [hufDec_header hwf htree hpad hbody, ← hbits] at hend
  simp only [← mem_hufLeaves hwf htree]
  refine ⟨fun y hy hcodes hfit => ?_, fun hno => ?_⟩
  · rw [hcodes, hufBits_codes hy] at hend
    exact (hend.completes_iff y).2 ⟨rfl, hfit⟩
  · obtain ⟨y, hy, hcodes⟩ | herr := hufBits_cases (hufLeaves_nodup hwf htree) bits
    · exact absurd hcodes (hno y hy)
    · rw [herr] at hend
      exact hend

end Sys2Proof.Machine
end

section
/-!
PROOFS. The Huffman encoder (44_huffman.md R178 to R183): its frequency table and its stream, and the round trip (R192).
-/

namespace Sys2Proof.Machine

/-! The frequency table (44_huffman.md R180, R181). -/

theorem mem_freqTable {x : List Byte} {e : HufEntry} : e ∈ freqTable x ↔ e.freq = x.count e.sym ∧ e.sym ∈ x := by
  rw [freqTable, List.mem_filter, List.mem_map, decide_eq_true_iff]
  constructor
  · rintro ⟨⟨c, -, rfl⟩, hpos⟩
    exact ⟨rfl, List.count_pos_iff.1 hpos⟩
  · rintro ⟨hfreq, hmem⟩
    refine ⟨⟨e.sym.toNat, List.mem_range.2 e.sym.isLt, ?_⟩, hfreq ▸ List.count_pos_iff.2 hmem⟩
    rw [byteOf_toNat, ← hfreq]

theorem mem_freqTable_map_sym {x : List Byte} {b : Byte} : b ∈ (freqTable x).map HufEntry.sym ↔ b ∈ x := by
  rw [List.mem_map]
  constructor
  · rintro ⟨e, he, rfl⟩
    exact (mem_freqTable.1 he).2
  · exact fun hb => ⟨⟨b, x.count b⟩, mem_freqTable.2 ⟨rfl, hb⟩, rfl⟩

/-- The entries are some of the bytes 0 to 255, in that order. -/
theorem freqTable_sorted (x : List Byte) : ((freqTable x).map fun e => e.sym.toNat).Pairwise (· < ·) := by
  refine List.pairwise_map.2 (List.Pairwise.filter _ (List.pairwise_map.2 ?_))
  refine List.pairwise_lt_range.imp_of_mem fun ha hb hlt => ?_
  rwa [byteOf_toNat_of_lt (List.mem_range.1 ha), byteOf_toNat_of_lt (List.mem_range.1 hb)]

theorem freqTable_wf {x : List Byte} (hne : x ≠ []) (hlen : x.length < 2 ^ 32) :
    HufEntry.tableWf (freqTable x) = true := by
  obtain ⟨b, hb⟩ := List.exists_mem_of_ne_nil x hne
  refine tableWf_iff.2 ⟨List.length_pos_of_mem (mem_freqTable (e := ⟨b, x.count b⟩).2 ⟨rfl, hb⟩), ?_, ?_, ?_⟩
  · exact (List.length_filter_le _ _).trans (by simp)
  · refine List.Nodup.of_map BitVec.toNat ?_
    rw [List.map_map]
    exact (freqTable_sorted x).imp Nat.ne_of_lt
  · intro e he
    obtain ⟨hfreq, hmem⟩ := mem_freqTable.1 he
    rw [hfreq]
    exact ⟨List.count_pos_iff.2 hmem, List.count_le_length.trans_lt hlen⟩

/-! The stream (44_huffman.md R180 to R183). -/

/-- The code bits of an input. -/
def codeBits (tree : HufTree) (x : List Byte) : List Bool := x.flatMap (codeOf (hufCodes tree))

section

variable {x : List Byte} {tree : HufTree}

theorem hufEnc_eq (htree : hufTree (freqTable x) = some tree) : hufEnc x = hufTableBytes (freqTable x) ++
    [byteOf (padBits (codeBits tree x).length)] ++ pack (codeBits tree x) := by
  simp only [hufEnc, htree]
  rfl

theorem toNat_padByte (n : Nat) : (byteOf (padBits n)).toNat = padBits n :=
  byteOf_toNat_of_lt ((padBits_spec n).1.trans (by decide))

/-- The body without its pad is the bits packed. -/
theorem take_unpack_pack (bits : List Bool) :
    ((pack bits).flatMap bitsOfByte).take (8 * (pack bits).length - padBits bits.length) = bits := by
  obtain ⟨hbits, hlen⟩ := unpack_pack bits
  rw [hbits, hlen, Nat.add_sub_cancel, List.take_left]

variable (hne : x ≠ []) (hlen : x.length < 2 ^ 32)

include hne hlen

theorem exists_hufTree_freqTable : ∃ tree, hufTree (freqTable x) = some tree ∧ ∀ b ∈ x, b ∈ hufLeaves tree := by
  have hwf := freqTable_wf hne hlen
  obtain ⟨tree, htree, -⟩ := exists_hufTree (ne_nil_of_tableWf hwf)
  exact ⟨tree, htree, fun b hb => (mem_hufLeaves hwf htree).2 (mem_freqTable_map_sym.2 hb)⟩

theorem exists_parseTable_hufEnc : ∃ rest, parseTable (hufEnc x) = .ok (freqTable x, rest) := by
  obtain ⟨tree, htree, -⟩ := exists_hufTree_freqTable hne hlen
  exact ⟨_, parseTable_eq_ok_iff.2 ⟨freqTable_wf hne hlen, by rw [hufEnc_eq htree, List.append_assoc]⟩⟩

end

/-- Some byte has a code, and a code has a bit. -/
theorem codeBits_length_pos {x : List Byte} {tree : HufTree} (hne : x ≠ []) (hleaves : ∀ b ∈ x, b ∈ hufLeaves tree) :
    1 ≤ (codeBits tree x).length := by
  obtain ⟨b, hb⟩ := List.exists_mem_of_ne_nil x hne
  have hcode := hufCodes_bits_ne_nil (codeOf_mem_hufCodes (hleaves b hb))
  refine List.length_pos_iff.2 fun hnil => hcode ?_
  exact List.flatMap_eq_nil_iff.1 hnil b hb

theorem pack_length (bits : List Bool) : (pack bits).length = (bits.length + 7) / 8 := by
  obtain ⟨-, hlen⟩ := unpack_pack bits
  obtain ⟨hpad, -⟩ := padBits_spec bits.length
  omega

theorem concludes_hufEnc {s : State} {x : List Byte} (hx : s.inputIs x) : Concludes .hufEnc s (.ok (hufEnc x)) :=
  concludes_of_unitOf (f := fun d => .ok (hufEnc d)) hx rfl

/-- Settles O46: the table counts the input, and packing adds the pad. -/
theorem hufEncWritesStream : Obligations.HufEncWritesStream := by
  refine ⟨fun bits => (unpack_pack bits).1, rfl, fun tbl => rfl, fun s x hx hne => ?_⟩
  obtain ⟨tree, htree, hleaves⟩ := exists_hufTree_freqTable hne hx.length_lt
  refine ⟨freqTable_wf hne hx.length_lt, freqTable_sorted x, fun e he => (mem_freqTable.1 he).1,
    fun b => mem_freqTable_map_sym.2, tree, htree, ?_⟩
  rintro bits pad out rfl rfl rfl
  have hend := concludes_hufEnc hx
  rw [hufEnc_eq htree] at hend
  refine ⟨hufEnc_eq htree, codeBits_length_pos hne hleaves, (padBits_spec _).2, ?_,
    fun hfit => (hend.completes_iff _).2 ⟨rfl, hfit⟩,
    fun hlong => (hend.failsWith_iff _).2 (.inr ⟨_, rfl, hlong, rfl⟩)⟩
  rw [List.length_append, List.length_append, hufTableBytes_length, pack_length, List.length_singleton]
  omega

/-! The round trip (44_huffman.md R192). -/

theorem hufDec_hufEnc {x : List Byte} (hlen : x.length < 2 ^ 32) : hufDec (hufEnc x) = .ok x := by
  by_cases hne : x = []
  · subst hne
    rfl
  · obtain ⟨tree, htree, hleaves⟩ := exists_hufTree_freqTable hne hlen
    have hpad := padBits_spec (codeBits tree x).length
    obtain ⟨-, hbody⟩ := unpack_pack (codeBits tree x)
    calc hufDec (hufEnc x)
      _ = hufDec (hufTableBytes (freqTable x) ++
            byteOf (padBits (codeBits tree x).length) :: pack (codeBits tree x)) := by
        rw [hufEnc_eq htree, List.append_assoc, List.singleton_append]
      _ = hufBits tree tree (codeBits tree x) := by
        rw [hufDec_header (freqTable_wf hne hlen) htree (by rw [toNat_padByte]; omega)
          (by rw [toNat_padByte]; omega), toNat_padByte, take_unpack_pack]
      _ = .ok x := hufBits_codes hleaves

/-- Settles O49: the parser reads the encoder's table back, and the bit loop its codes. -/
theorem hufRoundTrip : Obligations.HufRoundTrip := by
  refine ⟨fun x => hufDec_hufEnc, fun x hlen hne => exists_parseTable_hufEnc hne hlen,
    fun x codes => List.length_flatMap, fun s s' x y hx henc hy hfit => ?_⟩
  obtain ⟨hout, -⟩ := ((concludes_hufEnc hx).completes_iff y).1 henc
  cases hout
  exact ((concludes_hufDec hy).completes_iff x).2 ⟨hufDec_hufEnc hx.length_lt, hfit⟩

end Sys2Proof.Machine
end

section
/-!
PROOFS. The match finder and the back-copy that LZ77 and LZSS share (45_lz77.md R207 to R209, R214): the match of one
start, the best of them over the window, and the copy that gives a match back.
-/

namespace Sys2Proof.Machine

/-! The match of one start. -/

theorem le_commonPrefix_iff {s t : List Byte} {n : Nat} :
    n ≤ commonPrefix s t ↔ n ≤ s.length ∧ n ≤ t.length ∧ s.take n = t.take n := by
  fun_induction commonPrefix s t generalizing n with
  | case1 s b t ih => cases n <;> simp [ih]
  | case2 a s b t hne => cases n <;> simp [hne]
  | case3 s t hnil =>
    cases s with
    | nil => cases n <;> simp
    | cons a s =>
      cases t with
      | nil => cases n <;> simp
      | cons b t => exact absurd rfl (hnil a s b t rfl)

/-- The length of the match with `look` of the start `off` bytes before the end of `past` (45_lz77.md R207, R208). -/
def matchLength (look past : List Byte) (off : Nat) : Nat := commonPrefix (past.drop (past.length - off)) look

@[simp] theorem matchLength_length (look past : List Byte) :
    matchLength look past past.length = commonPrefix past look := by
  rw [matchLength, Nat.sub_self, List.drop_zero]

/-- A start in the last bytes does not see what stands before them. -/
theorem matchLength_drop (look : List Byte) {past : List Byte} {k off : Nat} (hk : k ≤ past.length)
    (hoff : off ≤ past.length - k) :
    matchLength look (past.drop k) off = matchLength look past off := by
  rw [matchLength, matchLength, List.drop_drop, List.length_drop]
  congr 2
  omega

/-- `off` and `len` give a match of the bytes ahead that lies wholly in the window and within the lookahead
(45_lz77.md R207, R208). -/
structure IsMatch (w la : Nat) (past ahead : List Byte) (off len : Nat) : Prop where
  off_le_window : off ≤ w
  off_le_past : off ≤ past.length
  len_le_off : len ≤ off
  len_le_lookahead : len ≤ la
  len_le_ahead : len ≤ ahead.length
  repeats : (past.drop (past.length - off)).take len = ahead.take len

section

variable {w la : Nat} {past ahead : List Byte} {off len : Nat}

theorem isMatch_iff (hw : off ≤ w) (hpast : off ≤ past.length) :
    IsMatch w la past ahead off len ↔ len ≤ matchLength (ahead.take la) past off := by
  have hstart : (past.drop (past.length - off)).length = off := by
    rw [List.length_drop, Nat.sub_sub_self hpast]
  rw [matchLength, le_commonPrefix_iff, hstart, List.length_take, le_min_iff, List.take_take]
  constructor
  · rintro ⟨-, -, hoff, hla, hahead, hrep⟩
    exact ⟨hoff, ⟨hla, hahead⟩, by rwa [min_eq_left hla]⟩
  · rintro ⟨hoff, ⟨hla, hahead⟩, hrep⟩
    exact ⟨hw, hpast, hoff, hla, hahead, by rwa [min_eq_left hla] at hrep⟩

end

/-! The scan over the starts of the window. -/

/-- A round keeps its start when that matches something, as much as the best start before it. -/
theorem scanWindow_cons (look : List Byte) (b : Byte) (win : List Byte) (best : Nat × Nat) :
    (0 < matchLength look (b :: win) (win.length + 1) ∧ best.2 ≤ matchLength look (b :: win) (win.length + 1) ∧
      scanWindow look (b :: win) best =
        scanWindow look win (win.length + 1, matchLength look (b :: win) (win.length + 1))) ∨
    ((matchLength look (b :: win) (win.length + 1) = 0 ∨ matchLength look (b :: win) (win.length + 1) < best.2) ∧
      scanWindow look (b :: win) best = scanWindow look win best) := by
  rw [← List.length_cons (a := b), matchLength_length, scanWindow]
  split
  · next hkeep => exact .inl ⟨hkeep.1, hkeep.2, rfl⟩
  · exact .inr ⟨by omega, rfl⟩

/-- The starts after the first are the starts of the rest. -/
theorem matchLength_cons_of_le {look win : List Byte} {off : Nat} (hoff : off ≤ win.length) (b : Byte) :
    matchLength look (b :: win) off = matchLength look win off :=
  (matchLength_drop look (k := 1) (by simp) (by simpa using hoff)).symm

theorem scanWindow_eq_or (look win : List Byte) (best : Nat × Nat) : scanWindow look win best = best ∨
    ∃ off, 1 ≤ off ∧ off ≤ win.length ∧ 0 < matchLength look win off ∧
      scanWindow look win best = (off, matchLength look win off) := by
  induction win generalizing best with
  | nil => exact .inl rfl
  | cons b win ih =>
    have hrest {best' : Nat × Nat} : scanWindow look win best' = best' ∨
        ∃ off, 1 ≤ off ∧ off ≤ win.length + 1 ∧ 0 < matchLength look (b :: win) off ∧
          scanWindow look win best' = (off, matchLength look (b :: win) off) := by
      refine (ih best').imp_right fun ⟨off, hpos, hoff, hmatch, hscan⟩ => ⟨off, hpos, Nat.le_succ_of_le hoff, ?_⟩
      rw [matchLength_cons_of_le hoff]
      exact ⟨hmatch, hscan⟩
    obtain ⟨hpos, -, hscan⟩ | ⟨-, hscan⟩ := scanWindow_cons look b win best
    · rw [hscan]
      obtain hkept | hlater := hrest
      · exact .inr ⟨_, Nat.succ_pos _, le_rfl, hpos, hkept⟩
      · exact .inr hlater
    · rw [hscan]
      exact hrest

theorem le_scanWindow_snd (look win : List Byte) (best : Nat × Nat) : best.2 ≤ (scanWindow look win best).2 := by
  induction win generalizing best with
  | nil => exact le_rfl
  | cons b win ih =>
    obtain ⟨-, hle, hscan⟩ | ⟨-, hscan⟩ := scanWindow_cons look b win best
    · rw [hscan]
      exact hle.trans (ih (win.length + 1, _))
    · rw [hscan]
      exact ih best

/-- No start has a longer match than the result, and none with a smaller offset one as long. -/
theorem scanWindow_best {look win : List Byte} {off : Nat} (hoff : off ≤ win.length)
    (hpos : 0 < matchLength look win off) (best : Nat × Nat) :
    matchLength look win off ≤ (scanWindow look win best).2 ∧
      (matchLength look win off = (scanWindow look win best).2 → (scanWindow look win best).1 ≤ off) := by
  induction win generalizing best with
  | nil => simp [matchLength, commonPrefix] at hpos
  | cons b win ih =>
    obtain hlater | hfirst := Nat.le_or_eq_of_le_succ hoff
    · rw [matchLength_cons_of_le hlater] at hpos ⊢
      obtain ⟨-, -, hscan⟩ | ⟨-, hscan⟩ := scanWindow_cons look b win best <;>
      · rw [hscan]
        exact ih hlater hpos _
    · obtain rfl : off = win.length + 1 := hfirst
      obtain ⟨-, -, hscan⟩ | ⟨hworse, hscan⟩ := scanWindow_cons look b win best
      · rw [hscan]
        refine ⟨le_scanWindow_snd look win (win.length + 1, _), fun _ => ?_⟩
        obtain hkept | ⟨off, -, hoff, -, hkept⟩ := scanWindow_eq_or look win (win.length + 1, _)
        · rw [hkept]
        · rw [hkept]
          exact Nat.le_succ_of_le hoff
      · have hmono := le_scanWindow_snd look win best
        rw [hscan]
        exact ⟨by omega, fun _ => by omega⟩

/-! The match finder. -/

section

variable {w la : Nat} {past ahead : List Byte} {off len : Nat}

theorem window_length (w : Nat) (past : List Byte) : (past.drop (past.length - w)).length = min w past.length := by
  rw [List.length_drop]
  omega

theorem matchLength_window (look : List Byte) (hw : off ≤ w) (hpast : off ≤ past.length) :
    matchLength look (past.drop (past.length - w)) off = matchLength look past off :=
  matchLength_drop look (Nat.sub_le _ _) (by omega)

/-- The result is the match of a start of the window, of length 0 exactly at offset 0 (45_lz77.md R207, R209). -/
theorem findMatch_isMatch (h : findMatch w la past ahead = (off, len)) :
    IsMatch w la past ahead off len ∧ (len = 0 ↔ off = 0) := by
  obtain hnone | ⟨off', hpos, hoff, hmatch, hfound⟩ :=
    scanWindow_eq_or (ahead.take la) (past.drop (past.length - w)) (0, 0)
  · cases h.symm.trans hnone
    exact ⟨(isMatch_iff (Nat.zero_le _) (Nat.zero_le _)).2 (Nat.zero_le _), Iff.rfl⟩
  · rw [window_length, le_min_iff] at hoff
    obtain ⟨hw, hpast⟩ := hoff
    rw [matchLength_window _ hw hpast] at hmatch hfound
    cases h.symm.trans hfound
    exact ⟨(isMatch_iff hw hpast).2 le_rfl, by omega⟩

/-- No match is longer than the result, and none with a smaller offset is as long (45_lz77.md R209). -/
theorem findMatch_best (h : findMatch w la past ahead = (off, len)) {off' len' : Nat} (hpos : 0 < len')
    (hmatch : IsMatch w la past ahead off' len') : len' ≤ len ∧ (len' = len → off ≤ off') := by
  have hle := (isMatch_iff hmatch.off_le_window hmatch.off_le_past).1 hmatch
  rw [← matchLength_window _ hmatch.off_le_window hmatch.off_le_past] at hle
  have hbest := scanWindow_best ((le_min hmatch.off_le_window hmatch.off_le_past).trans_eq (window_length w past).symm)
    (hpos.trans_le hle) (0, 0)
  rw [← findMatch, h] at hbest
  exact ⟨hle.trans hbest.1, fun heq => hbest.2 (by omega)⟩

end

/-- Settles O50: the scan keeps the best start of the window. -/
theorem findMatchIsLongestNearest : Obligations.FindMatchIsLongestNearest := by
  intro w la past ahead off len h
  obtain ⟨⟨hw, hpast, hoff, hla, hahead, hrep⟩, hzero⟩ := findMatch_isMatch h
  exact ⟨hla, hahead, hoff, hw, hpast, hzero, hrep, fun off' len' hpos hoff' hw' hpast' hla' hahead' hrep' =>
    findMatch_best h hpos ⟨hw', hpast', hoff', hla', hahead', hrep'⟩⟩

/-! The back-copy. -/

theorem backCopy_eq_none_iff {out : List Byte} {off len : Nat} :
    backCopy out off len = none ↔ 0 < len ∧ (off = 0 ∨ out.length < off) := by
  simp only [backCopy, gt_iff_lt, ite_eq_left_iff, reduceCtorEq, imp_false, not_not]

theorem backCopy_of_valid {out : List Byte} {off len : Nat} (h : len = 0 ∨ (1 ≤ off ∧ off ≤ out.length)) :
    backCopy out off len = some (copyBytes off len out) := if_neg (by omega)

theorem copyBytes_length (off n : Nat) (out : List Byte) : (copyBytes off n out).length = out.length + n := by
  induction n generalizing out with
  | zero => rfl
  | succ n ih =>
    rw [copyBytes, ih, List.length_append, List.length_singleton]
    omega

theorem isPrefix_copyBytes (off n : Nat) (out : List Byte) : out <+: copyBytes off n out := by
  induction n generalizing out with
  | zero => exact List.prefix_rfl
  | succ n ih => exact (List.prefix_append out _).trans (ih _)

section

variable {off : Nat} {out : List Byte}

/-- A byte of the output stays where it stands. -/
theorem getElem?_copyBytes {j : Nat} (hj : j < out.length) (n : Nat) : (copyBytes off n out)[j]? = out[j]? := by
  obtain ⟨copied, hcopied⟩ := isPrefix_copyBytes off n out
  rw [← hcopied, List.getElem?_append_left hj]

/-- Each byte appended is the one `off` before it. -/
theorem getElem?_copyBytes_add (hpos : 1 ≤ off) (hoff : off ≤ out.length) {n k : Nat} (hk : k < n) :
    (copyBytes off n out)[out.length + k]? = (copyBytes off n out)[out.length + k - off]? := by
  induction n generalizing out k with
  | zero => exact absurd hk (Nat.not_lt_zero k)
  | succ n ih =>
    rw [copyBytes]
    cases k with
    | zero =>
      have hsource : out.length - off < out.length := by omega
      rw [Nat.add_zero, getElem?_copyBytes (j := out.length) (by simp),
        getElem?_copyBytes (hsource.trans (by simp)), List.getElem?_concat_length, List.getElem?_append_left hsource,
        List.getD_eq_getElem _ _ hsource, List.getElem?_eq_getElem hsource]
    | succ k =>
      have hlater := ih (out := out ++ [out.getD (out.length - off) 0#8]) (by simp; omega) (Nat.lt_of_succ_lt_succ hk)
      rwa [List.length_append, List.length_singleton, Nat.add_assoc, Nat.add_comm 1 k] at hlater

/-- A copy not longer than its offset reads no byte of its own. -/
theorem copyBytes_of_le {n : Nat} (hoff : off ≤ out.length) (hn : n ≤ off) :
    copyBytes off n out = out ++ (out.drop (out.length - off)).take n := by
  apply List.ext_getElem?
  intro j
  obtain hj | hj := Nat.lt_or_ge j out.length
  · rw [getElem?_copyBytes hj, List.getElem?_append_left hj]
  · obtain ⟨k, rfl⟩ := Nat.exists_eq_add_of_le hj
    rw [List.getElem?_append_right hj, Nat.add_sub_cancel_left, List.getElem?_take, List.getElem?_drop]
    split
    · next hk =>
      rw [getElem?_copyBytes_add (by omega) hoff hk, getElem?_copyBytes (by omega), Nat.sub_add_comm hoff]
    · exact List.getElem?_eq_none (by rw [copyBytes_length]; omega)

end

/-- The copy of a match gives the bytes ahead back (45_lz77.md R219, 46_lzss.md R235). -/
theorem IsMatch.backCopy_eq {w la off len : Nat} {past ahead : List Byte} (h : IsMatch w la past ahead off len) :
    backCopy past off len = some (past ++ ahead.take len) := by
  obtain ⟨-, hpast, hoff, -, -, hrep⟩ := h
  rw [backCopy_of_valid (by omega), copyBytes_of_le hpast hoff, hrep]

/-- Settles O51: the copy keeps the output and appends each byte from `off` before it. -/
theorem backCopyRepeats : Obligations.BackCopyRepeats := by
  refine fun out off len => ⟨fun hpos hbad => backCopy_eq_none_iff.2 ⟨hpos, hbad⟩, fun hvalid => ?_⟩
  refine ⟨_, backCopy_of_valid hvalid, copyBytes_length off len out,
    (List.prefix_iff_eq_take.1 (isPrefix_copyBytes off len out)).symm, fun k hk => ?_, fun hlen => ?_⟩
  · exact getElem?_copyBytes_add (by omega) (by omega) hk
  · obtain rfl | ⟨-, hoff⟩ := hvalid
    · rw [List.take_zero, List.append_nil, copyBytes]
    · exact copyBytes_of_le hoff hlen

end Sys2Proof.Machine
end

section
/-!
PROOFS. LZ77 (45_lz77.md R210 to R219): the encoder's rounds as a relation that needs no fuel, and from it the form and
the length of its tokens; the decoder's loop token by token, and the round trip.
-/

namespace Sys2Proof.Machine

/-! The encoder's rounds. -/

section

variable {w la off len : Nat} {past ahead : List Byte} (hm : findMatch w la past ahead = (off, len))

include hm

theorem lz77Scan_full {lit : Byte} {rest : List Byte} (hrest : ahead.drop len = lit :: rest) (fuel : Nat) :
    lz77Scan w la (fuel + 1) past ahead =
      .full off len lit :: lz77Scan w la fuel (past ++ ahead.take (len + 1)) rest := by
  cases ahead with
  | nil => simp at hrest
  | cons b ahead => simp only [lz77Scan, hm, hrest]

theorem lz77Scan_final (hne : ahead ≠ []) (hrest : ahead.drop len = []) (fuel : Nat) :
    lz77Scan w la (fuel + 1) past ahead = [.final off len] := by
  cases ahead with
  | nil => exact absurd rfl hne
  | cons b ahead => simp only [lz77Scan, hm, hrest]

end

@[simp] theorem lz77Scan_nil (w la fuel : Nat) (past : List Byte) : lz77Scan w la fuel past [] = [] := by
  cases fuel <;> rfl

theorem length_le_of_drop_eq_cons {ahead rest : List Byte} {lit : Byte} {len fuel : Nat}
    (hrest : ahead.drop len = lit :: rest) (h : ahead.length ≤ fuel + 1) : rest.length ≤ fuel := by
  have hlen := congrArg List.length hrest
  rw [List.length_drop, List.length_cons] at hlen
  omega

theorem lz77Scan_congr {w la fuel k : Nat} {past ahead : List Byte} (hfuel : ahead.length ≤ fuel)
    (hk : ahead.length ≤ k) : lz77Scan w la fuel past ahead = lz77Scan w la k past ahead := by
  induction fuel generalizing k past ahead with
  | zero =>
    obtain rfl := List.length_eq_zero_iff.1 (Nat.le_zero.1 hfuel)
    simp
  | succ fuel ih =>
    by_cases hne : ahead = []
    · simp [hne]
    · obtain ⟨k, rfl⟩ := Nat.exists_eq_add_one.2 ((List.length_pos_iff.2 hne).trans_le hk)
      rcases hm : findMatch w la past ahead with ⟨off, len⟩
      cases hrest : ahead.drop len with
      | nil => rw [lz77Scan_final hm hne hrest, lz77Scan_final hm hne hrest]
      | cons lit rest =>
        rw [lz77Scan_full hm hrest, lz77Scan_full hm hrest,
          ih (length_le_of_drop_eq_cons hrest hfuel) (length_le_of_drop_eq_cons hrest hk)]

theorem lz77From_full {w la off len : Nat} {past ahead : List Byte} (hm : findMatch w la past ahead = (off, len))
    {lit : Byte} (hlit : ahead[len]? = some lit) : lz77From w la past ahead =
      .full off len lit :: lz77From w la (past ++ ahead.take (len + 1)) (ahead.drop (len + 1)) := by
  obtain ⟨hlt, rfl⟩ := List.getElem?_eq_some_iff.1 hlit
  have hrest := List.drop_eq_getElem_cons hlt
  obtain ⟨fuel, hfuel⟩ := Nat.exists_eq_add_one.2 (Nat.zero_lt_of_lt hlt)
  rw [lz77From, hfuel, lz77Scan_full hm hrest, lz77From,
    lz77Scan_congr (length_le_of_drop_eq_cons hrest hfuel.le) le_rfl]

theorem lz77From_final {w la off len : Nat} {past ahead : List Byte} (hm : findMatch w la past ahead = (off, len))
    (hne : ahead ≠ []) (hlen : ahead.length ≤ len) : lz77From w la past ahead = [.final off len] := by
  obtain ⟨fuel, hfuel⟩ := Nat.exists_eq_add_one.2 (List.length_pos_iff.2 hne)
  rw [lz77From, hfuel, lz77Scan_final hm hne (List.drop_eq_nil_of_le hlen)]

/-- `Lz77Run w la past ahead toks`: the rounds of 45_lz77.md R210 from the position between `past` and `ahead` on write
`toks`. `seg` is the match of a round. -/
inductive Lz77Run (w la : Nat) : List Byte → List Byte → List Lz77Token → Prop
  | nil (past : List Byte) : Lz77Run w la past [] []
  | full {past seg rest : List Byte} {lit : Byte} {off : Nat} {toks : List Lz77Token}
      (hmatch : IsMatch w la past (seg ++ lit :: rest) off seg.length)
      (hrun : Lz77Run w la (past ++ seg ++ [lit]) rest toks) :
      Lz77Run w la past (seg ++ lit :: rest) (.full off seg.length lit :: toks)
  | final {past seg : List Byte} {off : Nat} (hmatch : IsMatch w la past seg off seg.length) (hne : seg ≠ []) :
      Lz77Run w la past seg [.final off seg.length]

theorem lz77Scan_run {w la fuel : Nat} {past ahead : List Byte} (hfuel : ahead.length ≤ fuel) :
    Lz77Run w la past ahead (lz77Scan w la fuel past ahead) := by
  induction fuel generalizing past ahead with
  | zero =>
    obtain rfl := List.length_eq_zero_iff.1 (Nat.le_zero.1 hfuel)
    exact .nil past
  | succ fuel ih =>
    by_cases hne : ahead = []
    · subst hne
      exact .nil past
    · rcases hm : findMatch w la past ahead with ⟨off, len⟩
      obtain ⟨hmatch, -⟩ := findMatch_isMatch hm
      obtain ⟨seg, rest', rfl, rfl⟩ : ∃ seg rest, ahead = seg ++ rest ∧ seg.length = len :=
        ⟨ahead.take len, ahead.drop len, (List.take_append_drop _ _).symm, List.length_take_of_le hmatch.len_le_ahead⟩
      cases rest' with
      | nil =>
        rw [lz77Scan_final hm hne List.drop_left]
        rw [List.append_nil] at hmatch hne ⊢
        exact .final hmatch hne
      | cons lit rest =>
        rw [lz77Scan_full hm List.drop_left, List.append_cons, List.take_left' (by simp), ← List.append_assoc,
          ← List.append_cons]
        exact .full hmatch (ih (length_le_of_drop_eq_cons List.drop_left hfuel))

theorem lz77Tokens_run (w la : Nat) (d : List Byte) : Lz77Run w la [] d (lz77Tokens w la d) := lz77Scan_run le_rfl

/-! The form and the length of the tokens. -/

theorem lz77Token_wf_full_iff {off len : Nat} {lit : Byte} :
    (Lz77Token.full off len lit).wf = true ↔ off < 2 ^ 16 ∧ len < 2 ^ 16 := by
  rw [Lz77Token.wf, Bool.and_eq_true, decide_eq_true_eq, decide_eq_true_eq]

theorem lz77Token_wf_final_iff {off len : Nat} : (Lz77Token.final off len).wf = true ↔ off < 2 ^ 16 ∧ len < 2 ^ 16 := by
  rw [Lz77Token.wf, Bool.and_eq_true, decide_eq_true_eq, decide_eq_true_eq]

theorem lz77TokenBytes_length_le (t : Lz77Token) : (lz77TokenBytes t).length ≤ 5 := by
  cases t with
  | full off len lit => exact le_rfl
  | final off len => exact Nat.le_succ 4

section

variable {w la : Nat} {past ahead : List Byte} {toks : List Lz77Token}

/-- The offset and the length of a match fit their fields when the window and the lookahead do (45_lz77.md R213). -/
theorem Lz77Run.wf (hrun : Lz77Run w la past ahead toks) (hw : w ≤ 65535) (hla : la ≤ 65535) :
    ∀ t ∈ toks, t.wf = true := by
  have fields {past ahead : List Byte} {off len : Nat} (hmatch : IsMatch w la past ahead off len) :
      off < 2 ^ 16 ∧ len < 2 ^ 16 :=
    ⟨Nat.lt_succ_of_le (hmatch.off_le_window.trans hw), Nat.lt_succ_of_le (hmatch.len_le_lookahead.trans hla)⟩
  induction hrun with
  | nil past => simp
  | full hmatch hrun ih =>
    exact List.forall_mem_cons.2 ⟨lz77Token_wf_full_iff.2 (fields hmatch), ih⟩
  | final hmatch hne =>
    exact List.forall_mem_singleton.2 (lz77Token_wf_final_iff.2 (fields hmatch))

/-- A final token is the last, and stands for at least one byte (45_lz77.md R211). -/
theorem Lz77Run.final_last (hrun : Lz77Run w la past ahead toks) {pre post : List Lz77Token} {off len : Nat}
    (htoks : toks = pre ++ .final off len :: post) : post = [] ∧ 1 ≤ len ∧ 1 ≤ off := by
  induction hrun generalizing pre with
  | nil past => simp at htoks
  | full hmatch hrun ih =>
    cases pre with
    | nil => simp at htoks
    | cons t pre => exact ih (List.cons.inj htoks).2
  | final hmatch hne =>
    have hpos := List.length_pos_iff.2 hne
    have hoff := hmatch.len_le_off
    cases pre with
    | nil =>
      cases htoks
      exact ⟨rfl, hpos, hpos.trans_le hoff⟩
    | cons t pre => simp at htoks

/-- Every token takes a byte of the input. -/
theorem Lz77Run.length_le (hrun : Lz77Run w la past ahead toks) : toks.length ≤ ahead.length := by
  induction hrun with
  | nil past => exact le_rfl
  | full hmatch hrun ih =>
    simp only [List.length_cons, List.length_append]
    omega
  | final hmatch hne => exact List.length_pos_iff.2 hne

end

theorem lz77Enc_length_le (w la : Nat) (d : List Byte) : (lz77Enc w la d).length ≤ 5 * d.length := by
  have hsizes : ∀ n ∈ (lz77Tokens w la d).map fun t => (lz77TokenBytes t).length, n ≤ 5 :=
    List.forall_mem_map.2 fun t _ => lz77TokenBytes_length_le t
  calc (lz77Enc w la d).length
    _ = ((lz77Tokens w la d).map fun t => (lz77TokenBytes t).length).sum := List.length_flatMap
    _ ≤ (lz77Tokens w la d).length * 5 := by simpa using List.sum_le_card_nsmul _ 5 hsizes
    _ ≤ 5 * d.length := by
      rw [Nat.mul_comm]
      exact Nat.mul_le_mul_left 5 (lz77Tokens_run w la d).length_le

/-! The decoder's loop, token by token. Its rows hold by computation: `change` writes one out where the loop's equation
lemmas, for patterns of five bytes, are too costly to derive. -/

@[simp] theorem lz77Parse_nil (out : List Byte) : lz77Parse out [] = .ok out := rfl

section

variable {off len : Nat} (hoff : off < 2 ^ 16) (hlen : len < 2 ^ 16) (out : List Byte)

include hoff hlen

theorem lz77Parse_full (lit : Byte) (rest : List Byte) : lz77Parse out (lz77TokenBytes (.full off len lit) ++ rest) =
    (backCopy out off len).elim (.error .lz77Ref) fun y => lz77Parse (y ++ [lit]) rest := by
  change (match backCopy out (rd16 (byteOf (off / 256)) (byteOf off)) (rd16 (byteOf (len / 256)) (byteOf len)) with
    | none => Except.error Err.lz77Ref
    | some y => lz77Parse (y ++ [lit]) rest) = _
  rw [rd16_be16 off hoff, rd16_be16 len hlen]
  cases backCopy out off len <;> rfl

theorem lz77Parse_final : lz77Parse out (lz77TokenBytes (.final off len)) =
    (backCopy out off len).elim (.error .lz77Ref) .ok := by
  change (match backCopy out (rd16 (byteOf (off / 256)) (byteOf off)) (rd16 (byteOf (len / 256)) (byteOf len)) with
    | none => Except.error Err.lz77Ref
    | some y => Except.ok y) = _
  rw [rd16_be16 off hoff, rd16_be16 len hlen]
  cases backCopy out off len <;> rfl

end

/-- One to three bytes are no token (45_lz77.md R218). -/
theorem lz77Parse_short (out : List Byte) {rest : List Byte} (hpos : 1 ≤ rest.length) (hlen : rest.length ≤ 3) :
    lz77Parse out rest = .error .lz77Length := by
  match rest with
  | [] => exact absurd hpos (Nat.not_succ_le_zero 0)
  | [_] | [_, _] | [_, _, _] => rfl
  | _ :: _ :: _ :: _ :: _ =>
    simp only [List.length_cons] at hlen
    omega

/-- The decoder reads what a run of the encoder wrote back, with the same output behind it at each position. -/
theorem Lz77Run.lz77Parse_eq {w la : Nat} {past ahead : List Byte} {toks : List Lz77Token}
    (hrun : Lz77Run w la past ahead toks) (hwf : ∀ t ∈ toks, t.wf = true) :
    lz77Parse past (toks.flatMap lz77TokenBytes) = .ok (past ++ ahead) := by
  induction hrun with
  | nil past => simp
  | @full past seg rest lit off toks hmatch hrun ih =>
    obtain ⟨ht, hwf⟩ := List.forall_mem_cons.1 hwf
    obtain ⟨hoff, hlen⟩ := lz77Token_wf_full_iff.1 ht
    rw [List.flatMap_cons, lz77Parse_full hoff hlen, hmatch.backCopy_eq, List.take_left, Option.elim_some, ih hwf]
    simp
  | final hmatch hne =>
    obtain ⟨hoff, hlen⟩ := lz77Token_wf_final_iff.1 (hwf _ (List.mem_singleton_self _))
    rw [List.flatMap_singleton, lz77Parse_final hoff hlen, hmatch.backCopy_eq, List.take_length, Option.elim_some]

theorem lz77Dec_lz77Enc {w la : Nat} (hw : w ≤ 65535) (hla : la ≤ 65535) (x : List Byte) :
    lz77Dec (lz77Enc w la x) = .ok x :=
  (lz77Tokens_run w la x).lz77Parse_eq ((lz77Tokens_run w la x).wf hw hla)

/-- Good full tokens before a stream give the output its decoding starts from. -/
theorem lz77Parse_fulls_append {fulls : List Lz77Token} (hfulls : ∀ t ∈ fulls, t.wf = true ∧ lz77IsFull t = true)
    {out y : List Byte} (hy : lz77ApplyAll out fulls = some y) (rest : List Byte) :
    lz77Parse out (fulls.flatMap lz77TokenBytes ++ rest) = lz77Parse y rest := by
  induction fulls generalizing out with
  | nil =>
    cases hy
    rfl
  | cons t fulls ih =>
    obtain ⟨⟨ht, hfull⟩, hlater⟩ := List.forall_mem_cons.1 hfulls
    cases t with
    | final off len => cases hfull
    | full off len lit =>
      obtain ⟨hoff, hlen⟩ := lz77Token_wf_full_iff.1 ht
      cases hcopy : backCopy out off len with
      | none => simp [lz77ApplyAll, lz77Apply, hcopy] at hy
      | some z =>
        simp only [lz77ApplyAll, lz77Apply, hcopy, Option.map_some] at hy
        rw [List.flatMap_cons, List.append_assoc, lz77Parse_full hoff hlen, hcopy, Option.elim_some, ih hlater hy]

theorem lz77ApplyAll_append (out : List Byte) (toks toks' : List Lz77Token) :
    lz77ApplyAll out (toks ++ toks') = (lz77ApplyAll out toks).bind fun y => lz77ApplyAll y toks' := by
  induction toks generalizing out with
  | nil => rfl
  | cons t toks ih =>
    rw [List.cons_append, lz77ApplyAll, lz77ApplyAll]
    cases lz77Apply out t with
    | none => rfl
    | some y => exact ih y

/-! The commands. -/

theorem concludes_lz77Dec {s : State} {x : List Byte} (hx : s.inputIs x) : Concludes .lz77Dec s (lz77Dec x) :=
  concludes_of_unitOf hx rfl

theorem le_of_boundedOperand {bound n : Nat} {r : Option Word} (h : boundedOperand bound r = some n) : n ≤ bound := by
  cases r with
  | none => cases h
  | some v =>
    obtain ⟨hle, rfl⟩ : v.toNat ≤ bound ∧ v.toNat = n := by simpa [boundedOperand] using h
    exact hle

/-- Step 3 of 30_encoding.md R72 lets only a legal window and lookahead through. -/
theorem exists_of_unitOf_lz77Enc {c : Config} {p : Params} {f : List Byte → Except Err (List Byte)}
    (hf : unitOf c p .lz77Enc = some f) :
    ∃ w la, w ≤ 65535 ∧ la ≤ 65535 ∧ f = fun d => .ok (lz77Enc w la d) := by
  obtain ⟨⟨w, la⟩, hop, rfl⟩ := Option.map_eq_some_iff.1 hf
  unfold lz77Operand at hop
  split at hop
  · next hw hla =>
    cases hop
    exact ⟨_, _, le_of_boundedOperand hw, le_of_boundedOperand hla, rfl⟩
  · cases hop

/-- Settles O54: the copy of each match gives its bytes back, so the decoder's output is the input read so far. -/
theorem lz77RoundTrip : Obligations.Lz77RoundTrip := by
  refine ⟨fun w la x hw hla => lz77Dec_lz77Enc hw hla x, fun s s' x y hx henc hy hfit => ?_⟩
  obtain ⟨-, f, -, hf, -⟩ := henc.exists_unitOf
  obtain ⟨w, la, hw, hla, rfl⟩ := exists_of_unitOf_lz77Enc hf
  obtain ⟨hout, -⟩ := ((concludes_of_unitOf hx hf).completes_iff y).1 henc
  cases hout
  exact ((concludes_lz77Dec hy).completes_iff x).2 ⟨lz77Dec_lz77Enc hw hla x, hfit⟩

/-- Settles O52: the rounds give the tokens, which take a byte of the input each. -/
theorem lz77EncTokens : Obligations.Lz77EncTokens := by
  refine ⟨fun w la past ahead off len hne hm => ⟨rfl, fun lit => lz77From_full hm, lz77From_final hm hne⟩,
    fun w la d pre post off len => (lz77Tokens_run w la d).final_last, ?_⟩
  intro s x w la hx hw hla hwle hlale
  refine ⟨(lz77Tokens_run _ _ x).wf hwle hlale, fun _ _ _ => rfl, fun _ _ => rfl, ?_⟩
  rintro out rfl
  have hend := concludes_of_unitOf hx (unitOf_lz77Enc hw hla hwle hlale)
  exact ⟨lz77Enc_length_le _ _ x, fun hfit => (hend.completes_iff _).2 ⟨rfl, hfit⟩,
    fun hlong => (hend.failsWith_iff _).2 (.inr ⟨_, rfl, hlong, rfl⟩)⟩

/-- Settles O53: after good full tokens the decoder goes on from what they make of the empty output. -/
theorem lz77DecReadsTokens : Obligations.Lz77DecReadsTokens := by
  intro s fulls out hfulls hout
  have hread (rest : List Byte) : lz77Dec (fulls.flatMap lz77TokenBytes ++ rest) = lz77Parse out rest :=
    lz77Parse_fulls_append hfulls hout rest
  have hcompletes {rest y : List Byte} (hx : s.inputIs (fulls.flatMap lz77TokenBytes ++ rest))
      (hrest : lz77Parse out rest = .ok y) (hfit : y.length ≤ s.cfg.obufCap.val) : Completes .lz77Dec s y :=
    ((concludes_lz77Dec hx).completes_iff y).2 ⟨(hread rest).trans hrest, hfit⟩
  have hfails {rest : List Byte} {e : Err} (hx : s.inputIs (fulls.flatMap lz77TokenBytes ++ rest))
      (hrest : lz77Parse out rest = .error e) : FailsWith .lz77Dec s e.code :=
    ((concludes_lz77Dec hx).failsWith_iff _).2 (.inl ⟨e, (hread rest).trans hrest, rfl⟩)
  refine ⟨fun off len lit y hy => ?_, fun hx hfit => ?_, fun off len y hoff hlen hy hx hfit => ?_,
    fun off len hoff hlen hpos hbad => ⟨fun hx => ?_, fun lit rest hx => ?_⟩, fun rest hpos hlen hx => ?_⟩
  · simp [lz77ApplyAll_append, hout, lz77ApplyAll, lz77Apply, hy]
  · exact hcompletes (by rwa [List.append_nil]) (lz77Parse_nil out) hfit
  · exact hcompletes hx (by rw [lz77Parse_final hoff hlen, hy, Option.elim_some]) hfit
  · refine hfails hx (e := .lz77Ref) ?_
    rw [lz77Parse_final hoff hlen, backCopy_eq_none_iff.2 ⟨hpos, hbad⟩, Option.elim_none]
  · rw [List.append_assoc] at hx
    refine hfails hx (e := .lz77Ref) ?_
    rw [lz77Parse_full hoff hlen, backCopy_eq_none_iff.2 ⟨hpos, hbad⟩, Option.elim_none]
  · exact hfails hx (lz77Parse_short out hpos hlen)

end Sys2Proof.Machine
end

section
/-!
PROOFS. LZSS (46_lzss.md R231 to R235, 48_companion_units.md R261, R262): the encoder's rounds as a relation that needs no
fuel, and from it the form and the length of its tokens and what the companion decoder makes of them.
-/

namespace Sys2Proof.Machine

/-! The encoder's rounds. -/

section

variable {w la mm off len : Nat} {past rest : List Byte} {b : Byte} (hm : findMatch w la past (b :: rest) = (off, len))

include hm

theorem lzssScan_copy (hlen : max 1 mm ≤ len) (fuel : Nat) : lzssScan w la mm (fuel + 1) past (b :: rest) =
    .copy off len :: lzssScan w la mm fuel (past ++ (b :: rest).take len) ((b :: rest).drop len) := by
  simp only [lzssScan, hm, ge_iff_le, if_pos hlen]

theorem lzssScan_literal (hlen : len < max 1 mm) (fuel : Nat) : lzssScan w la mm (fuel + 1) past (b :: rest) =
    .literal b :: lzssScan w la mm fuel (past ++ [b]) rest := by
  simp only [lzssScan, hm, ge_iff_le, if_neg (Nat.not_le.2 hlen)]

end

@[simp] theorem lzssScan_nil (w la mm fuel : Nat) (past : List Byte) : lzssScan w la mm fuel past [] = [] := by
  cases fuel <;> rfl

theorem length_drop_le_of_pos {rest : List Byte} {b : Byte} {len fuel : Nat} (hpos : 1 ≤ len)
    (h : (b :: rest).length ≤ fuel + 1) : ((b :: rest).drop len).length ≤ fuel := by
  rw [List.length_drop]
  omega

/-- Neither more fuel than bytes ahead nor a threshold that `max(1, MM)` does not tell apart makes a difference. -/
theorem lzssScan_congr {w la mm mm' fuel k : Nat} {past ahead : List Byte} (hmm : max 1 mm = max 1 mm')
    (hfuel : ahead.length ≤ fuel) (hk : ahead.length ≤ k) :
    lzssScan w la mm fuel past ahead = lzssScan w la mm' k past ahead := by
  induction fuel generalizing k past ahead with
  | zero =>
    obtain rfl := List.length_eq_zero_iff.1 (Nat.le_zero.1 hfuel)
    simp
  | succ fuel ih =>
    cases ahead with
    | nil => simp
    | cons b rest =>
      obtain ⟨k, rfl⟩ := Nat.exists_eq_add_one.2 ((Nat.succ_pos rest.length).trans_le hk)
      rcases hm : findMatch w la past (b :: rest) with ⟨off, len⟩
      obtain hlen | hlen := le_or_gt (max 1 mm) len
      · have hpos : 1 ≤ len := (le_max_left 1 mm).trans hlen
        rw [lzssScan_copy hm hlen, lzssScan_copy hm (hmm ▸ hlen),
          ih (length_drop_le_of_pos hpos hfuel) (length_drop_le_of_pos hpos hk)]
      · rw [lzssScan_literal hm hlen, lzssScan_literal hm (hmm ▸ hlen),
          ih (Nat.le_of_succ_le_succ hfuel) (Nat.le_of_succ_le_succ hk)]

@[simp] theorem lzssFrom_nil (w la mm : Nat) (past : List Byte) : lzssFrom w la mm past [] = [] := rfl

section

variable {w la mm off len : Nat} {past rest : List Byte} {b : Byte} (hm : findMatch w la past (b :: rest) = (off, len))

include hm

theorem lzssFrom_copy (hlen : max 1 mm ≤ len) : lzssFrom w la mm past (b :: rest) =
    .copy off len :: lzssFrom w la mm (past ++ (b :: rest).take len) ((b :: rest).drop len) := by
  rw [lzssFrom, List.length_cons, lzssScan_copy hm hlen, lzssFrom,
    lzssScan_congr rfl (length_drop_le_of_pos ((le_max_left 1 mm).trans hlen) le_rfl) le_rfl]

theorem lzssFrom_literal (hlen : len < max 1 mm) :
    lzssFrom w la mm past (b :: rest) = .literal b :: lzssFrom w la mm (past ++ [b]) rest :=
  lzssScan_literal hm hlen rest.length

end

/-- `MM = 0` behaves as `MM = 1` (46_lzss.md R232). -/
theorem lzssEnc_zero (w la : Nat) (d : List Byte) : lzssEnc w la 0 d = lzssEnc w la 1 d :=
  congrArg (List.flatMap lzssTokenBytes) (lzssScan_congr (mm := 0) (mm' := 1) rfl le_rfl le_rfl)

/-- `LzssRun w la mm past ahead toks`: the rounds of 46_lzss.md R231 from the position between `past` and `ahead` on write
`toks`. `seg` is the match of a round, which reaches the threshold. -/
inductive LzssRun (w la mm : Nat) : List Byte → List Byte → List LzssToken → Prop
  | nil (past : List Byte) : LzssRun w la mm past [] []
  | copy {past seg rest : List Byte} {off : Nat} {toks : List LzssToken}
      (hmatch : IsMatch w la past (seg ++ rest) off seg.length) (hlong : max 1 mm ≤ seg.length)
      (hrun : LzssRun w la mm (past ++ seg) rest toks) :
      LzssRun w la mm past (seg ++ rest) (.copy off seg.length :: toks)
  | literal {past rest : List Byte} {b : Byte} {toks : List LzssToken}
      (hrun : LzssRun w la mm (past ++ [b]) rest toks) :
      LzssRun w la mm past (b :: rest) (.literal b :: toks)

theorem lzssFrom_run (w la mm : Nat) (past ahead : List Byte) :
    LzssRun w la mm past ahead (lzssFrom w la mm past ahead) := by
  induction hn : ahead.length using Nat.strong_induction_on generalizing past ahead with
  | _ n ih =>
    cases ahead with
    | nil => exact .nil past
    | cons b rest =>
      subst hn
      rcases hm : findMatch w la past (b :: rest) with ⟨off, len⟩
      obtain hlen | hlen := le_or_gt (max 1 mm) len
      · rw [lzssFrom_copy hm hlen]
        obtain ⟨hmatch, -⟩ := findMatch_isMatch hm
        have hseg : ((b :: rest).take len).length = len := List.length_take_of_le hmatch.len_le_ahead
        have hshort : ((b :: rest).drop len).length < (b :: rest).length :=
          Nat.lt_succ_of_le (length_drop_le_of_pos ((le_max_left 1 mm).trans hlen) le_rfl)
        have hrun := LzssRun.copy (mm := mm) (seg := (b :: rest).take len) (rest := (b :: rest).drop len) (off := off)
          (by rwa [List.take_append_drop, hseg]) (by rwa [hseg]) (ih _ hshort _ _ rfl)
        rwa [List.take_append_drop, hseg] at hrun
      · rw [lzssFrom_literal hm hlen]
        exact .literal (ih _ (Nat.lt_succ_self _) _ _ rfl)

/-! The form and the length of the tokens. -/

section

variable {w la mm : Nat} {past ahead : List Byte} {toks : List LzssToken}

/-- A match token stands for at least one byte, and reaches back over no more than the bytes read (46_lzss.md R234). -/
theorem LzssRun.copy_bounds (hrun : LzssRun w la mm past ahead toks) {off len : Nat} (hmem : .copy off len ∈ toks) :
    1 ≤ off ∧ 1 ≤ len ∧ len ≤ off ∧ off ≤ past.length + ahead.length := by
  induction hrun with
  | nil past => cases hmem
  | @copy past seg rest off' toks hmatch hlong hrun ih =>
    obtain heq | hlater := List.mem_cons.1 hmem
    · cases heq
      have hpos : 1 ≤ seg.length := (le_max_left 1 mm).trans hlong
      exact ⟨hpos.trans hmatch.len_le_off, hpos, hmatch.len_le_off, Nat.le_add_right_of_le hmatch.off_le_past⟩
    · simpa [Nat.add_assoc] using ih hlater
  | literal hrun ih =>
    obtain heq | hlater := List.mem_cons.1 hmem
    · cases heq
    · simpa [Nat.add_assoc, Nat.add_comm 1] using ih hlater

/-- A match is no longer than the window and the lookahead, so below the threshold there is none (46_lzss.md R233). -/
theorem LzssRun.eq_literals (hrun : LzssRun w la mm past ahead toks) (hshort : w = 0 ∨ la = 0 ∨ min w la < mm) :
    toks = ahead.map LzssToken.literal := by
  induction hrun with
  | nil past => rfl
  | copy hmatch hlong hrun ih =>
    have hw := hmatch.len_le_off.trans hmatch.off_le_window
    have hla := hmatch.len_le_lookahead
    omega
  | literal hrun ih => rw [List.map_cons, ih]

end

@[simp] theorem lzssTokenBytes_literal_length (b : Byte) : (lzssTokenBytes (.literal b)).length = 2 := rfl

@[simp] theorem lzssTokenBytes_copy_length (off len : Nat) : (lzssTokenBytes (.copy off len)).length = 9 := rfl

theorem literals_length (d : List Byte) :
    ((d.map LzssToken.literal).flatMap lzssTokenBytes).length = 2 * d.length := by
  induction d with
  | nil => rfl
  | cons b d ih =>
    rw [List.map_cons, List.flatMap_cons, List.length_append, ih, lzssTokenBytes_literal_length, List.length_cons]
    omega

/-- Every token takes a byte of the input and has at most nine of the output. -/
theorem LzssRun.bytes_length_le {w la mm : Nat} {past ahead : List Byte} {toks : List LzssToken}
    (hrun : LzssRun w la mm past ahead toks) : (toks.flatMap lzssTokenBytes).length ≤ 9 * ahead.length := by
  induction hrun with
  | nil past => exact le_rfl
  | copy hmatch hlong hrun ih =>
    rw [List.flatMap_cons, List.length_append, List.length_append, lzssTokenBytes_copy_length]
    omega
  | literal hrun ih =>
    rw [List.flatMap_cons, List.length_append, List.length_cons, lzssTokenBytes_literal_length]
    omega

/-! The decoder's loop, token by token (48_companion_units.md R261). -/

@[simp] theorem lzssParse_nil (fuel : Nat) (out : List Byte) : lzssParse fuel out [] = some out := by
  cases fuel <;> rfl

theorem lzssParse_literal (fuel : Nat) (out : List Byte) (b : Byte) (rest : List Byte) :
    lzssParse (fuel + 1) out (lzssTokenBytes (.literal b) ++ rest) = lzssParse fuel (out ++ [b]) rest := rfl

/-- The row of a match token. The kernel cannot check the loop's own equation lemmas: it evaluates the test of `backCopy`,
and with it the products of `rd32`, in unary. With the back-copy a variable the row holds by computation; the auxiliary
lemma keeps it one. -/
theorem lzssParse_copy_row (fuel : Nat) (out rest : List Byte) (o0 o1 o2 o3 l0 l1 l2 l3 : Byte) :
    lzssParse (fuel + 1) out (0x01#8 :: o0 :: o1 :: o2 :: o3 :: l0 :: l1 :: l2 :: l3 :: rest) =
      (backCopy out (rd32 o0 o1 o2 o3) (rd32 l0 l1 l2 l3)).bind fun y => lzssParse fuel y rest := by
  generalize hloop : lzssParse = loop
  delta lzssParse lzssParse._f at hloop
  generalize backCopy = copy at hloop ⊢
  as_aux_lemma =>
    subst hloop
    change (match copy out (rd32 o0 o1 o2 o3) (rd32 l0 l1 l2 l3) with
      | none => none
      | some y => _) = _
    cases copy out (rd32 o0 o1 o2 o3) (rd32 l0 l1 l2 l3) <;> rfl

theorem lzssParse_copy {off len : Nat} (hoff : off < 2 ^ 32) (hlen : len < 2 ^ 32) (fuel : Nat)
    (out rest : List Byte) : lzssParse (fuel + 1) out (lzssTokenBytes (.copy off len) ++ rest) =
      (backCopy out off len).bind fun y => lzssParse fuel y rest :=
  (lzssParse_copy_row fuel out rest _ _ _ _ _ _ _ _).trans (by rw [rd32_be32 off hoff, rd32_be32 len hlen])

/-- The decoder reads what a run of the encoder wrote back, with the same output behind it at each position. -/
theorem LzssRun.lzssParse_eq {w la mm : Nat} {past ahead : List Byte} {toks : List LzssToken}
    (hrun : LzssRun w la mm past ahead toks) (hsize : past.length + ahead.length < 2 ^ 32) {fuel : Nat}
    (hfuel : (toks.flatMap lzssTokenBytes).length ≤ fuel) :
    lzssParse fuel past (toks.flatMap lzssTokenBytes) = some (past ++ ahead) := by
  induction hrun generalizing fuel with
  | nil past => simp
  | @copy past seg rest off toks hmatch hlong hrun ih =>
    rw [List.flatMap_cons, List.length_append, lzssTokenBytes_copy_length] at hfuel
    obtain ⟨fuel, rfl⟩ := Nat.exists_eq_add_one.2 (show 0 < fuel by omega)
    have hoff := hmatch.off_le_past
    rw [List.length_append] at hsize
    rw [List.flatMap_cons, lzssParse_copy (by omega) (by omega), hmatch.backCopy_eq, List.take_left, Option.bind_some,
      ih (by rw [List.length_append]; omega) (by omega), List.append_assoc]
  | @literal past rest b toks hrun ih =>
    rw [List.flatMap_cons, List.length_append, lzssTokenBytes_literal_length] at hfuel
    obtain ⟨fuel, rfl⟩ := Nat.exists_eq_add_one.2 (show 0 < fuel by omega)
    rw [List.length_cons] at hsize
    rw [List.flatMap_cons, lzssParse_literal, ih (by rw [List.length_append, List.length_singleton]; omega) (by omega),
      List.append_assoc, List.singleton_append]

theorem lzssDec_lzssEnc (w la mm : Nat) {x : List Byte} (hx : x.length < 2 ^ 32) :
    lzssDec (lzssEnc w la mm x) = some x :=
  (lzssFrom_run w la mm [] x).lzssParse_eq (by rwa [List.length_nil, Nat.zero_add]) le_rfl

/-- Settles O56: the copy of each match gives its bytes back, so the decoder's output is the input read so far. -/
theorem lzssRoundTrip : Obligations.LzssRoundTrip := by
  refine ⟨fun w la mm x hx => lzssDec_lzssEnc w la mm hx, fun s x y hx henc => ?_⟩
  obtain ⟨-, f, -, hf, -⟩ := henc.exists_unitOf
  obtain ⟨⟨w, la, mm⟩, -, rfl⟩ := Option.map_eq_some_iff.1 hf
  obtain ⟨hout, -⟩ := ((concludes_of_unitOf hx hf).completes_iff y).1 henc
  cases hout
  exact lzssDec_lzssEnc w la mm hx.length_lt

/-- Settles O55: the rounds give the tokens, and a match token needs a match that reaches the threshold. -/
theorem lzssEncTokens : Obligations.LzssEncTokens := by
  refine ⟨fun w la mm past b rest off len hm =>
      ⟨lzssFrom_nil w la mm past, lzssFrom_copy hm, lzssFrom_literal hm⟩,
    lzssEnc_zero, fun w la mm d hshort => ?_, fun s x w la hx hw hla => ?_⟩
  · have htoks := (lzssFrom_run w la mm [] d).eq_literals hshort
    exact ⟨htoks, (congrArg (fun toks => (toks.flatMap lzssTokenBytes).length) htoks).trans (literals_length d)⟩
  · have hrun := lzssFrom_run w.toNat la.toNat s.params.lzssMinMatch.toNat [] x
    refine ⟨fun off len hmem => by simpa using hrun.copy_bounds hmem, fun _ => rfl, fun _ _ => rfl, ?_⟩
    rintro out rfl
    have hend := concludes_of_unitOf hx (unitOf_lzssEnc hw hla)
    exact ⟨hrun.bytes_length_le, fun hfit => (hend.completes_iff _).2 ⟨rfl, hfit⟩,
      fun hlong => (hend.failsWith_iff _).2 (.inr ⟨_, rfl, hlong, rfl⟩)⟩

end Sys2Proof.Machine
end

section
/-!
PROOFS. LZ78 (47_lz78.md R241 to R251): the sequences that the codes of the dictionary stand for, the encoder's rounds as
a relation over them that needs neither the dictionary nor its capacity, the decoder's loop token by token, and the round
trip.
-/

namespace Sys2Proof.Machine

theorem lt_length_of_getElem? {α : Type} {l : List α} {i : Nat} {a : α} (h : l[i]? = some a) : i < l.length :=
  (List.getElem?_eq_some_iff.1 h).1

@[simp] theorem lz78Pairs_full (c : Nat) (b : Byte) (toks : List Lz78Token) :
    lz78Pairs (.full c b :: toks) = (c, b) :: lz78Pairs toks := rfl

@[simp] theorem lz78Pairs_final (c : Nat) (toks : List Lz78Token) :
    lz78Pairs (.final c :: toks) = lz78Pairs toks := rfl

theorem lz78Pairs_length (toks : List Lz78Token) : (lz78Pairs toks).length = (toks.filter lz78IsFull).length := by
  induction toks with
  | nil => rfl
  | cons t toks ih =>
    cases t with
    | full c b => exact congrArg (· + 1) ih
    | final c => exact ih

/-! The dictionary and the sequences of its codes. -/

/-- `dict` is the trie of `seqs`, whose entry `c` is the sequence of code `c` (47_lz78.md R241): each of its entries
extends an assigned sequence, and every extension of one that has a code is an entry. -/
structure Lz78Dict.Holds (dict : Lz78Dict) (seqs : List (List Byte)) : Prop where
  root : seqs[0]? = some []
  nodup : seqs.Nodup
  /-- Every sequence was entered as an extension of another. -/
  closed : ∀ q b, q ++ [b] ∈ seqs → q ∈ seqs
  extends_of_find : ∀ code b c, dict.find code b = some c → ∃ q, seqs[code]? = some q ∧ seqs[c]? = some (q ++ [b])
  new_of_find : ∀ code b q, dict.find code b = none → seqs[code]? = some q → q ++ [b] ∉ seqs

theorem Lz78Dict.holds_nil : Lz78Dict.Holds [] [[]] where
  root := rfl
  nodup := List.nodup_singleton _
  closed := by simp
  extends_of_find := by simp [Lz78Dict.find]
  new_of_find := by simp

section

variable {dict : Lz78Dict} {seqs : List (List Byte)} {cur : Nat} {q : List Byte} {b : Byte}

theorem Lz78Dict.Holds.getElem?_of_find (h : dict.Holds seqs) (hq : seqs[cur]? = some q) {c : Nat}
    (hfind : dict.find cur b = some c) : seqs[c]? = some (q ++ [b]) := by
  obtain ⟨p, hp, hc⟩ := h.extends_of_find cur b c hfind
  cases hq.symm.trans hp
  exact hc

theorem getElem?_concat_of_some {i : Nat} {p : List Byte} (hp : seqs[i]? = some p) (r : List Byte) :
    (seqs ++ [r])[i]? = some p :=
  (List.getElem?_append_left (lt_length_of_getElem? hp)).trans hp

theorem Lz78Dict.find_cons_eq_some {c n code : Nat} {b' : Byte}
    (hfind : Lz78Dict.find (((cur, b), n) :: dict) code b' = some c) :
    cur = code ∧ b = b' ∧ n = c ∨ dict.find code b' = some c := by
  rw [Lz78Dict.find] at hfind
  split at hfind
  · next heq =>
    cases heq
    cases hfind
    exact .inl ⟨rfl, rfl, rfl⟩
  · exact .inr hfind

theorem Lz78Dict.find_cons_eq_none {n code : Nat} {b' : Byte}
    (hfind : Lz78Dict.find (((cur, b), n) :: dict) code b' = none) :
    (cur, b) ≠ (code, b') ∧ dict.find code b' = none := by
  rw [Lz78Dict.find] at hfind
  split at hfind
  · cases hfind
  · next hne => exact ⟨hne, hfind⟩

/-- With `q ++ [b]` entered, a pair the dictionary does not list is still one of no sequence: an old code extended by its
byte is another sequence than `q ++ [b]`, and an extension of `q ++ [b]` was never entered. -/
theorem Lz78Dict.Holds.new_of_find_cons (h : dict.Holds seqs) (hq : seqs[cur]? = some q) (hnew : q ++ [b] ∉ seqs)
    {n code : Nat} {b' : Byte} {p : List Byte} (hfind : Lz78Dict.find (((cur, b), n) :: dict) code b' = none)
    (hp : (seqs ++ [q ++ [b]])[code]? = some p) : p ++ [b'] ∉ seqs ++ [q ++ [b]] := by
  obtain ⟨hne, hfind⟩ := Lz78Dict.find_cons_eq_none hfind
  rw [List.mem_append, List.mem_singleton]
  obtain hlt | hge := Nat.lt_or_ge code seqs.length
  · rw [List.getElem?_append_left hlt] at hp
    rintro (hold | heq)
    · exact h.new_of_find code b' p hfind hp hold
    · obtain ⟨rfl, rfl⟩ := List.append_singleton_inj.1 heq
      exact hne (by rw [(List.getElem?_inj hlt h.nodup).1 (hp.trans hq.symm)])
  · obtain rfl : p = q ++ [b] := by
      simpa using List.mem_of_getElem? ((List.getElem?_append_right hge).symm.trans hp)
    rintro (hold | heq)
    · exact hnew (h.closed _ b' hold)
    · exact absurd (congrArg List.length heq) (by simp)

/-- A new entry is the sequence of `next`, the number of the sequences before it (47_lz78.md R242). -/
theorem Lz78Dict.Holds.enter (h : dict.Holds seqs) (hq : seqs[cur]? = some q) (hfind : dict.find cur b = none) :
    Lz78Dict.Holds (((cur, b), seqs.length) :: dict) (seqs ++ [q ++ [b]]) := by
  have hnew := h.new_of_find cur b q hfind hq
  refine ⟨getElem?_concat_of_some h.root _, by simpa using h.nodup.concat hnew, fun p b' hp => ?_,
    fun code b' c hc => ?_, fun code b' p => h.new_of_find_cons hq hnew⟩
  · obtain hold | hlast := List.mem_append.1 hp
    · exact List.mem_append_left _ (h.closed p b' hold)
    · obtain ⟨rfl, -⟩ := List.append_singleton_inj.1 (List.mem_singleton.1 hlast)
      exact List.mem_append_left _ (List.mem_of_getElem? hq)
  · obtain ⟨rfl, rfl, rfl⟩ | hc := Lz78Dict.find_cons_eq_some hc
    · exact ⟨q, getElem?_concat_of_some hq _, List.getElem?_concat_length⟩
    · obtain ⟨p, hp, hc⟩ := h.extends_of_find code b' c hc
      exact ⟨p, getElem?_concat_of_some hp _, getElem?_concat_of_some hc _⟩

end

/-! The encoder's rounds. -/

section

variable {cap next cur : Nat} {dict : Lz78Dict} {b : Byte}

theorem lz78Scan_known {c : Nat} (hfind : dict.find cur b = some c) (rest : List Byte) :
    lz78Scan cap dict next cur (b :: rest) = lz78Scan cap dict next c rest := by
  simp only [lz78Scan, hfind]

theorem lz78Scan_new (hfind : dict.find cur b = none) (rest : List Byte) :
    lz78Scan cap dict next cur (b :: rest) = if next > cap then .error .capacity
      else (lz78Scan cap (((cur, b), next) :: dict) (next + 1) 0 rest).map (.full cur b :: ·) := by
  simp only [lz78Scan, hfind]

end

/-- `Lz78Run seqs ahead toks`: the rounds of 47_lz78.md R242 with the sequences `seqs` in the dictionary write `toks` for
`ahead`. `q` is the prefix of a round, which with its literal is a new sequence, or which ends the input. -/
inductive Lz78Run : List (List Byte) → List Byte → List Lz78Token → Prop
  | nil (seqs : List (List Byte)) : Lz78Run seqs [] []
  | full {seqs : List (List Byte)} {q rest : List Byte} {code : Nat} {b : Byte} {toks : List Lz78Token}
      (hcode : seqs[code]? = some q) (hnew : q ++ [b] ∉ seqs) (hrun : Lz78Run (seqs ++ [q ++ [b]]) rest toks) :
      Lz78Run seqs (q ++ b :: rest) (.full code b :: toks)
  | final {seqs : List (List Byte)} {q : List Byte} {code : Nat} (hcode : seqs[code]? = some q) (hne : q ≠ []) :
      Lz78Run seqs q [.final code]

/-- The scan from the prefix `q` on: its tokens are a run's, whatever the capacity, and it gives them when each full one
finds room for its entry (47_lz78.md R250). -/
theorem exists_lz78Run {dict : Lz78Dict} {seqs : List (List Byte)} {cur : Nat} {q : List Byte} (h : dict.Holds seqs)
    (hq : seqs[cur]? = some q) (ahead : List Byte) :
    ∃ toks, Lz78Run seqs (q ++ ahead) toks ∧ ∀ cap, seqs.length ≤ cap + 1 →
      lz78Scan cap dict seqs.length cur ahead =
        if (lz78Pairs toks).length + seqs.length ≤ cap + 1 then .ok toks else .error .capacity := by
  induction ahead generalizing dict seqs cur q with
  | nil =>
    rw [List.append_nil]
    by_cases hcur : cur = 0
    · subst hcur
      cases hq.symm.trans h.root
      exact ⟨[], .nil seqs, fun cap hcap => by simp [lz78Scan, lz78Pairs, hcap]⟩
    · have hne : q ≠ [] := by
        rintro rfl
        exact hcur ((List.getElem?_inj (lt_length_of_getElem? hq) h.nodup).1 (hq.trans h.root.symm))
      exact ⟨[.final cur], .final hq hne, fun cap hcap => by simp [lz78Scan, lz78Pairs, hcur, hcap]⟩
  | cons b rest ih =>
    cases hfind : dict.find cur b with
    | some c =>
      obtain ⟨toks, hrun, hscan⟩ := ih h (h.getElem?_of_find hq hfind)
      refine ⟨toks, ?_, fun cap hcap => (lz78Scan_known hfind rest).trans (hscan cap hcap)⟩
      rwa [List.append_cons]
    | none =>
      have henter := h.enter hq hfind
      obtain ⟨toks, hrun, hscan⟩ := ih henter henter.root
      refine ⟨.full cur b :: toks, .full hq (h.new_of_find cur b q hfind hq) hrun, fun cap hcap => ?_⟩
      rw [lz78Scan_new hfind, lz78Pairs_full, List.length_cons]
      by_cases hfull : seqs.length > cap
      · rw [if_pos hfull, if_neg (by omega)]
      · rw [List.length_append, List.length_singleton] at hscan
        rw [if_neg hfull, hscan cap (by omega), Nat.add_right_comm, Nat.add_assoc]
        split <;> rfl

theorem exists_lz78Tokens (d : List Byte) : ∃ toks, Lz78Run [[]] d toks ∧ ∀ cap,
    lz78Tokens cap d = if (lz78Pairs toks).length ≤ cap then .ok toks else .error .capacity := by
  obtain ⟨toks, hrun, hscan⟩ := exists_lz78Run Lz78Dict.holds_nil (cur := 0) rfl d
  exact ⟨toks, hrun, fun cap => by simpa [lz78Tokens] using hscan cap (by simp)⟩

theorem lz78Enc_eq_of_lz78Tokens {cap n : Nat} {d : List Byte} {toks : List Lz78Token}
    (h : lz78Tokens cap d = if n ≤ cap then .ok toks else .error .capacity) :
    lz78Enc cap d = if n ≤ cap then .ok (toks.flatMap lz78TokenBytes) else .error .capacity := by
  rw [lz78Enc, h]
  split <;> rfl

/-! The form and the length of the tokens. -/

section

variable {seqs : List (List Byte)} {ahead : List Byte} {toks : List Lz78Token}

/-- Every full token takes a byte of the input. -/
theorem Lz78Run.pairs_length_le (hrun : Lz78Run seqs ahead toks) : (lz78Pairs toks).length ≤ ahead.length := by
  induction hrun with
  | nil seqs => exact le_rfl
  | full hcode hnew hrun ih =>
    simp only [lz78Pairs_full, List.length_cons, List.length_append]
    omega
  | final hcode hne => exact Nat.zero_le _

/-- Every token takes a byte of the input and has at most five of the output. -/
theorem Lz78Run.bytes_length_le (hrun : Lz78Run seqs ahead toks) :
    (toks.flatMap lz78TokenBytes).length ≤ 5 * ahead.length := by
  induction hrun with
  | nil seqs => exact le_rfl
  | full hcode hnew hrun ih =>
    simp only [List.flatMap_cons, lz78TokenBytes, List.length_append, be32_length, List.length_cons, List.length_nil]
    omega
  | final hcode hne =>
    have hpos := List.length_pos_iff.2 hne
    simp only [List.flatMap_singleton, lz78TokenBytes, be32_length]
    omega

theorem Lz78Run.ne_nil (hrun : Lz78Run seqs ahead toks) (hne : ahead ≠ []) : toks ≠ [] := by
  cases hrun with
  | nil => exact absurd rfl hne
  | full => exact List.cons_ne_nil _ _
  | final => exact List.cons_ne_nil _ _

/-- The sequences of a run's tokens are the pieces of its input, and the run goes on with them in the dictionary. -/
theorem Lz78Run.exists_run_at {t : Lz78Token} {pre post : List Lz78Token}
    (hrun : Lz78Run seqs ahead (pre ++ t :: post)) (past : List Byte) : ∃ seqs' out rest,
      lz78Apply (seqs, past) (lz78Pairs pre) = some (seqs', past ++ out) ∧ out ++ rest = ahead ∧
      (seqs.Nodup → seqs'.Nodup) ∧ Lz78Run seqs' rest (t :: post) := by
  induction pre generalizing seqs ahead past with
  | nil => exact ⟨seqs, [], ahead, by rw [List.append_nil]; rfl, rfl, id, hrun⟩
  | cons u pre ih =>
    rw [List.cons_append] at hrun
    generalize htail : pre ++ t :: post = tail at hrun
    cases hrun with
    | final => simp at htail
    | @full _ q rest code b _ hcode hnew hrun =>
      subst htail
      obtain ⟨seqs', out, rest', happly, hahead, hnodup, hrun'⟩ := ih hrun (past ++ (q ++ [b]))
      refine ⟨seqs', q ++ [b] ++ out, rest', ?_, by simp [← hahead], fun h => hnodup ?_, hrun'⟩
      · rw [lz78Pairs_full, lz78Apply, hcode, ← List.append_assoc]
        exact happly
      · simpa using h.concat hnew

/-- What the first token of a run says: its sequence is the next piece of the input, the longest known prefix. -/
theorem Lz78Run.head_spec {t : Lz78Token} (hrun : Lz78Run seqs ahead (t :: toks)) : ∃ q, seqs[lz78Code t]? = some q ∧
    (∀ c b, t = .full c b → q ++ [b] <+: ahead ∧ q ++ [b] ∉ seqs ∧ (toks = [] → q ++ [b] = ahead)) ∧
    ∀ c, t = .final c → toks = [] ∧ q ≠ [] ∧ q = ahead := by
  cases hrun with
  | @full _ q rest code b _ hcode hnew hrun =>
    refine ⟨q, hcode, ?_, fun c hc => Lz78Token.noConfusion hc⟩
    rintro _ _ ⟨⟩
    refine ⟨⟨rest, by simp⟩, hnew, ?_⟩
    rintro rfl
    cases hrun
    rfl
  | final hcode hne => exact ⟨ahead, hcode, fun c b hc => Lz78Token.noConfusion hc, fun _ _ => ⟨rfl, hne, rfl⟩⟩

end

/-! What full tokens make of the decoder's map and output. -/

theorem lz78Apply_cons (seqs : List (List Byte)) (out : List Byte) (c : Nat) (b : Byte) (toks : List (Nat × Byte)) :
    lz78Apply (seqs, out) ((c, b) :: toks) =
      (seqs[c]?).bind fun q => lz78Apply (seqs ++ [q ++ [b]], out ++ (q ++ [b])) toks := by
  rw [lz78Apply]
  cases seqs[c]? <;> rfl

theorem lz78Apply_append (acc : List (List Byte) × List Byte) (toks toks' : List (Nat × Byte)) :
    lz78Apply acc (toks ++ toks') = (lz78Apply acc toks).bind fun acc' => lz78Apply acc' toks' := by
  induction toks generalizing acc with
  | nil => rfl
  | cons t toks ih =>
    rw [List.cons_append, lz78Apply_cons, lz78Apply_cons, Option.bind_assoc]
    exact congrArg _ (funext fun q => ih _)

/-- Every full token enters one sequence behind those there are. -/
theorem lz78Apply_seqs {acc acc' : List (List Byte) × List Byte} {toks : List (Nat × Byte)}
    (h : lz78Apply acc toks = some acc') : acc.1 <+: acc'.1 ∧ acc'.1.length = acc.1.length + toks.length := by
  induction toks generalizing acc with
  | nil =>
    cases h
    exact ⟨List.prefix_rfl, rfl⟩
  | cons t toks ih =>
    rw [lz78Apply_cons] at h
    obtain ⟨q, -, h⟩ := Option.bind_eq_some_iff.1 h
    obtain ⟨hprefix, hlen⟩ := ih h
    refine ⟨(List.prefix_append _ _).trans hprefix, ?_⟩
    rw [hlen, List.length_append, List.length_singleton, List.length_cons, Nat.add_right_comm, Nat.add_assoc]

/-- From reset on, code 0 stays the empty sequence and the others count the tokens. -/
theorem lz78Apply_codes {seqs : List (List Byte)} {out : List Byte} {toks : List (Nat × Byte)}
    (h : lz78Apply ([[]], []) toks = some (seqs, out)) : seqs.length = toks.length + 1 ∧ seqs[0]? = some [] := by
  obtain ⟨⟨tail, rfl⟩, hlen⟩ := lz78Apply_seqs h
  exact ⟨hlen.trans (Nat.add_comm _ _), rfl⟩

/-! The decoder's loop. Its rows hold by computation: `change` writes one out where the loop's equation lemmas, for
patterns of five bytes, are too costly to derive. -/

@[simp] theorem lz78Parse_nil (cap : Nat) (seqs : List (List Byte)) : lz78Parse cap seqs [] = .ok [] := rfl

theorem lz78Parse_five (cap : Nat) (seqs : List (List Byte)) (c0 c1 c2 c3 b : Byte) (rest : List Byte) :
    lz78Parse cap seqs (c0 :: c1 :: c2 :: c3 :: b :: rest) =
      (seqs[rd32 c0 c1 c2 c3]?).elim (.error .lz78Code) fun q => if seqs.length > cap then .error .capacity
        else (lz78Parse cap (seqs ++ [q ++ [b]]) rest).map (q ++ [b] ++ ·) := by
  change (match seqs[rd32 c0 c1 c2 c3]? with
    | none => Except.error Err.lz78Code
    | some q => if seqs.length > cap then Except.error Err.capacity
      else (lz78Parse cap (seqs ++ [q ++ [b]]) rest).map (q ++ [b] ++ ·)) = _
  cases seqs[rd32 c0 c1 c2 c3]? <;> rfl

theorem lz78Parse_four (cap : Nat) (seqs : List (List Byte)) (c0 c1 c2 c3 : Byte) :
    lz78Parse cap seqs [c0, c1, c2, c3] = (seqs[rd32 c0 c1 c2 c3]?).elim (.error .lz78Code) .ok := by
  change (match seqs[rd32 c0 c1 c2 c3]? with
    | none => Except.error Err.lz78Code
    | some q => Except.ok q) = _
  cases seqs[rd32 c0 c1 c2 c3]? <;> rfl

/-- One to three bytes are no token (47_lz78.md R249). -/
theorem lz78Parse_short (cap : Nat) (seqs : List (List Byte)) {rest : List Byte} (hpos : 1 ≤ rest.length)
    (hlen : rest.length ≤ 3) : lz78Parse cap seqs rest = .error .lz78Length := by
  match rest with
  | [] => exact absurd hpos (Nat.not_succ_le_zero 0)
  | [_] | [_, _] | [_, _, _] => rfl
  | _ :: _ :: _ :: _ :: _ =>
    simp only [List.length_cons] at hlen
    omega

section

variable {cap code : Nat} (hcode : code < 2 ^ 32) {seqs : List (List Byte)} {q : List Byte}

include hcode

theorem lz78Parse_full_append (b : Byte) (rest : List Byte) :
    lz78Parse cap seqs (lz78TokenBytes (.full code b) ++ rest) =
      (seqs[code]?).elim (.error .lz78Code) fun q => if seqs.length > cap then .error .capacity
        else (lz78Parse cap (seqs ++ [q ++ [b]]) rest).map (q ++ [b] ++ ·) :=
  (lz78Parse_five cap seqs _ _ _ _ b rest).trans (by rw [rd32_be32 code hcode])

theorem lz78Parse_entered (hq : seqs[code]? = some q) (hcap : seqs.length ≤ cap) (b : Byte) (rest : List Byte) :
    lz78Parse cap seqs (lz78TokenBytes (.full code b) ++ rest) =
      (lz78Parse cap (seqs ++ [q ++ [b]]) rest).map (q ++ [b] ++ ·) := by
  rw [lz78Parse_full_append hcode, hq, Option.elim_some, if_neg (Nat.not_lt.2 hcap)]

theorem lz78Parse_be32 : lz78Parse cap seqs (be32 code) = (seqs[code]?).elim (.error .lz78Code) .ok :=
  (lz78Parse_four cap seqs _ _ _ _).trans (by rw [rd32_be32 code hcode])

/-- A code that is not assigned is an error, of a full token and of a final one (47_lz78.md R248). -/
theorem lz78Parse_unassigned (hq : seqs[code]? = none) (rest : List Byte) :
    lz78Parse cap seqs (be32 code ++ rest) = .error .lz78Code := by
  cases rest with
  | nil => rw [List.append_nil, lz78Parse_be32 hcode, hq, Option.elim_none]
  | cons b rest =>
    rw [List.append_cons]
    exact (lz78Parse_full_append hcode b rest).trans (by rw [hq, Option.elim_none])

end

theorem except_map_map_append {ε α : Type} (r : Except ε (List α)) (p q : List α) :
    (r.map (q ++ ·)).map (p ++ ·) = r.map (p ++ q ++ ·) := by
  cases r with
  | error e => rfl
  | ok y => exact congrArg Except.ok (List.append_assoc p q y).symm

/-- Good full tokens before a stream give the sequences and the output its decoding starts from. -/
theorem lz78Parse_fulls_append {cap : Nat} {fulls : List (Nat × Byte)} (hfulls : ∀ t ∈ fulls, t.1 < 2 ^ 32)
    {seqs seqs' : List (List Byte)} {out out' : List Byte}
    (happly : lz78Apply (seqs, out) fulls = some (seqs', out')) (hcap : fulls.length + seqs.length ≤ cap + 1)
    (rest : List Byte) : (lz78Parse cap seqs (lz78FullBytes fulls ++ rest)).map (out ++ ·) =
      (lz78Parse cap seqs' rest).map (out' ++ ·) := by
  induction fulls generalizing seqs out with
  | nil =>
    cases happly
    rfl
  | cons t fulls ih =>
    obtain ⟨ht, hlater⟩ := List.forall_mem_cons.1 hfulls
    rw [lz78Apply_cons] at happly
    obtain ⟨q, hq, happly⟩ := Option.bind_eq_some_iff.1 happly
    rw [List.length_cons] at hcap
    rw [lz78FullBytes, List.flatMap_cons, List.append_assoc, lz78Parse_entered ht hq (by omega),
      except_map_map_append]
    exact ih hlater happly (by rw [List.length_append, List.length_singleton]; omega)

section

variable {cap : Nat} {fulls : List (Nat × Byte)} {seqs : List (List Byte)} {out : List Byte}
  (hfulls : ∀ t ∈ fulls, t.1 < 2 ^ 32) (happly : lz78Apply ([[]], []) fulls = some (seqs, out))

include hfulls happly

theorem lz78Dec_fulls_append (hcap : fulls.length ≤ cap) (rest : List Byte) :
    lz78Dec cap (lz78FullBytes fulls ++ rest) = (lz78Parse cap seqs rest).map (out ++ ·) :=
  (congrFun Except.map_id _).symm.trans (lz78Parse_fulls_append hfulls happly (Nat.succ_le_succ hcap) rest)

/-- The first full token beyond the capacity is an error (47_lz78.md R250). -/
theorem lz78Dec_too_many (hcap : fulls.length = cap + 1) (rest : List Byte) :
    lz78Dec cap (lz78FullBytes fulls ++ rest) = .error .capacity := by
  obtain rfl | ⟨init, ⟨c, b⟩, rfl⟩ := List.eq_nil_or_concat' fulls
  · cases hcap
  · rw [List.length_append, List.length_singleton, Nat.add_right_cancel_iff] at hcap
    rw [lz78Apply_append] at happly
    obtain ⟨⟨seqs', out'⟩, hinit, hlast⟩ := Option.bind_eq_some_iff.1 happly
    rw [lz78Apply_cons] at hlast
    obtain ⟨q, hq, -⟩ := Option.bind_eq_some_iff.1 hlast
    obtain ⟨hlen, -⟩ := lz78Apply_codes hinit
    rw [lz78FullBytes, List.flatMap_append, List.append_assoc,
      ← lz78FullBytes, lz78Dec_fulls_append (fun t ht => hfulls t (List.mem_append_left _ ht)) hinit hcap.le,
      List.flatMap_singleton, lz78Parse_full_append (hfulls (c, b) (by simp)), hq, Option.elim_some,
      if_pos (by omega)]
    rfl

end

/-- The decoder reads what a run of the encoder wrote back, with the same sequences behind the codes at each token. -/
theorem Lz78Run.lz78Parse_eq {cap : Nat} {seqs : List (List Byte)} {ahead : List Byte} {toks : List Lz78Token}
    (hrun : Lz78Run seqs ahead toks) (hcap : (lz78Pairs toks).length + seqs.length ≤ cap + 1)
    (hsize : seqs.length + ahead.length ≤ 2 ^ 32) :
    lz78Parse cap seqs (toks.flatMap lz78TokenBytes) = .ok ahead := by
  induction hrun with
  | nil seqs => rfl
  | full hcode hnew hrun ih =>
    have hlt := lt_length_of_getElem? hcode
    rw [lz78Pairs_full, List.length_cons] at hcap
    rw [List.length_append, List.length_cons] at hsize
    rw [List.length_append, List.length_singleton] at ih
    rw [List.flatMap_cons, lz78Parse_entered (by omega) hcode (by omega), ih (by omega) (by omega), Except.map,
      ← List.append_cons]
  | final hcode hne =>
    have hlt := lt_length_of_getElem? hcode
    rw [List.flatMap_singleton, lz78TokenBytes, lz78Parse_be32 (by omega), hcode, Option.elim_some]

theorem lz78Dec_lz78Enc {cap cap' : Nat} {x y : List Byte} (hx : x.length < 2 ^ 32) (hcap : cap ≤ cap')
    (henc : lz78Enc cap x = .ok y) : lz78Dec cap' y = .ok x := by
  obtain ⟨toks, hrun, htoks⟩ := exists_lz78Tokens x
  rw [lz78Enc_eq_of_lz78Tokens (htoks cap)] at henc
  split at henc
  · next hfit =>
    cases henc
    exact hrun.lz78Parse_eq (Nat.succ_le_succ (hfit.trans hcap)) (by rw [List.length_singleton]; omega)
  · cases henc

/-! The length of a decoded output. -/

/-- An entered sequence is longer by one than one entered before. -/
theorem length_lt_of_entered {seqs : List (List Byte)} {q : List Byte} {code : Nat}
    (hseqs : ∀ p ∈ seqs, p.length < seqs.length) (hq : seqs[code]? = some q) (b : Byte) :
    ∀ p ∈ seqs ++ [q ++ [b]], p.length < (seqs ++ [q ++ [b]]).length := by
  intro p hp
  rw [List.length_append, List.length_singleton]
  obtain hold | hlast := List.mem_append.1 hp
  · exact Nat.lt_succ_of_lt (hseqs p hold)
  · rw [List.mem_singleton.1 hlast, List.length_append, List.length_singleton]
    exact Nat.succ_lt_succ (hseqs q (List.mem_of_getElem? hq))

/-- A sequence is shorter than the number of sequences, so the `i`-th token from here on stands for at most
`seqs.length + i` bytes. -/
theorem lz78Parse_length_le {cap : Nat} {seqs : List (List Byte)} (hseqs : ∀ q ∈ seqs, q.length < seqs.length)
    {x y : List Byte} {t : Nat} (ht : t = (x.length + 4) / 5) (hy : lz78Parse cap seqs x = .ok y) :
    2 * y.length ≤ t * (2 * seqs.length + t) := by
  match x with
  | [] =>
    cases hy
    exact Nat.zero_le _
  | [_] | [_, _] | [_, _, _] => cases hy
  | [c0, c1, c2, c3] =>
    rw [lz78Parse_four] at hy
    cases hq : seqs[rd32 c0 c1 c2 c3]? with
    | none => simp [hq] at hy
    | some q =>
      have hlt := hseqs q (List.mem_of_getElem? hq)
      rw [hq] at hy
      cases hy
      obtain rfl : t = 1 := by simpa using ht
      omega
  | c0 :: c1 :: c2 :: c3 :: b :: rest =>
    rw [lz78Parse_five] at hy
    cases hq : seqs[rd32 c0 c1 c2 c3]? with
    | none => simp [hq] at hy
    | some q =>
      have hlt := hseqs q (List.mem_of_getElem? hq)
      rw [hq, Option.elim_some] at hy
      split at hy
      · cases hy
      · cases hrest : lz78Parse cap (seqs ++ [q ++ [b]]) rest with
        | error e => simp [hrest, Except.map] at hy
        | ok z =>
          rw [hrest] at hy
          cases hy
          have ih := lz78Parse_length_le (length_lt_of_entered hseqs hq b) rfl hrest
          obtain rfl : t = (rest.length + 4) / 5 + 1 := by
            simp only [List.length_cons] at ht
            omega
          rw [List.length_append, List.length_singleton] at ih
          simp only [List.length_append, List.length_singleton]
          linarith
termination_by x.length

theorem lz78Dec_length_le {cap t : Nat} {x y : List Byte} (hy : lz78Dec cap x = .ok y) (ht : t = (x.length + 4) / 5) :
    y.length ≤ t * (t + 1) / 2 + t := by
  have hlen := lz78Parse_length_le (seqs := [[]]) (by simp) ht hy
  have hdouble : t * (2 * [([] : List Byte)].length + t) = t * (t + 1) + t := by
    rw [List.length_singleton]
    ring
  omega

/-! The commands. -/

theorem concludes_lz78Enc {s : State} {x : List Byte} (hx : s.inputIs x) :
    Concludes .lz78Enc s (lz78Enc s.cfg.dictCap.val x) :=
  concludes_of_unitOf (f := lz78Enc s.cfg.dictCap.val) hx rfl

theorem concludes_lz78Dec {s : State} {x : List Byte} (hx : s.inputIs x) :
    Concludes .lz78Dec s (lz78Dec s.cfg.dictCap.val x) :=
  concludes_of_unitOf (f := lz78Dec s.cfg.dictCap.val) hx rfl

/-- Settles O59: the decoder reads a run of the encoder back, and a run enters a sequence for a byte at most. -/
theorem lz78RoundTrip : Obligations.Lz78RoundTrip := by
  refine ⟨fun cap cap' x y => lz78Dec_lz78Enc, fun cap x hcap => ?_, fun cap t x y => lz78Dec_length_le,
    fun s s' x y hx henc hy hdict hfit => ?_⟩
  · obtain ⟨toks, hrun, htoks⟩ := exists_lz78Tokens x
    exact ⟨_, (lz78Enc_eq_of_lz78Tokens (htoks cap)).trans (if_pos (hrun.pairs_length_le.trans hcap))⟩
  · obtain ⟨hout, -⟩ := ((concludes_lz78Enc hx).completes_iff y).1 henc
    exact ((concludes_lz78Dec hy).completes_iff x).2 ⟨lz78Dec_lz78Enc hx.length_lt hdict hout, hfit⟩

/-- Settles O57: the scan's tokens are a run's, and the run at a token has the sequences of those before it. -/
theorem lz78EncTokens : Obligations.Lz78EncTokens := by
  intro d
  obtain ⟨toks, hrun, htoks⟩ := exists_lz78Tokens d
  have hsplit {pre post : List Lz78Token} {t : Lz78Token} (heq : toks = pre ++ t :: post) : ∃ seqs out rest,
      lz78Apply ([[]], []) (lz78Pairs pre) = some (seqs, out) ∧ out ++ rest = d ∧ seqs.Nodup ∧
      Lz78Run seqs rest (t :: post) := by
    obtain ⟨seqs, out, rest, happly, hahead, hnodup, hrest⟩ := (heq ▸ hrun).exists_run_at []
    exact ⟨seqs, out, rest, happly, hahead, hnodup (List.nodup_singleton _), hrest⟩
  simp only [lz78Pairs_length] at htoks
  refine ⟨toks, htoks, hrun.bytes_length_le, fun pre t post heq => ?_, fun pre t post heq => ?_, hrun.ne_nil,
    fun _ _ => rfl, fun _ => rfl, fun s hx => ?_⟩
  · obtain ⟨seqs, out, rest, happly, -, -, hrest⟩ := hsplit heq
    obtain ⟨q, hq, -, hfinal⟩ := hrest.head_spec
    obtain ⟨hlen, hroot⟩ := lz78Apply_codes happly
    rw [lz78Pairs_length] at hlen
    refine ⟨Nat.le_of_lt_succ ((lt_length_of_getElem? hq).trans_eq hlen), fun ht => ?_⟩
    cases t with
    | full c b => cases ht
    | final c =>
      obtain ⟨hpost, hne, -⟩ := hfinal c rfl
      refine ⟨hpost, Nat.one_le_iff_ne_zero.2 fun hzero => hne ?_⟩
      rw [hzero, hroot] at hq
      exact (Option.some.inj hq).symm
  · obtain ⟨seqs, out, rest, happly, rfl, hnodup, hrest⟩ := hsplit heq
    obtain ⟨q, hq, hfull, hfinal⟩ := hrest.head_spec
    refine ⟨seqs, out, q, happly, hq, hnodup, fun c b ht => ?_, fun c ht => ?_⟩
    · obtain ⟨hprefix, hnew, hlast⟩ := hfull c b ht
      rw [List.append_assoc]
      exact ⟨(List.prefix_append_right_inj out).2 hprefix, hnew, fun hpost => by rw [hlast hpost]⟩
    · obtain ⟨-, -, rfl⟩ := hfinal c ht
      rfl
  · have hend := concludes_lz78Enc hx
    have henc := lz78Enc_eq_of_lz78Tokens (htoks s.cfg.dictCap.val)
    refine ⟨fun hroom hfit => (hend.completes_iff _).2 ⟨henc.trans (if_pos hroom), hfit⟩, fun hbad => ?_⟩
    by_cases hroom : (toks.filter lz78IsFull).length ≤ s.cfg.dictCap.val
    · have hlong := hbad.resolve_left (Nat.not_lt.2 hroom)
      exact (hend.failsWith_iff _).2 (.inr ⟨_, henc.trans (if_pos hroom), hlong, rfl⟩)
    · exact (hend.failsWith_iff _).2 (.inl ⟨.capacity, henc.trans (if_neg hroom), rfl⟩)

/-- Settles O58: after good full tokens the decoder goes on from what they make of its map and output. -/
theorem lz78DecReadsTokens : Obligations.Lz78DecReadsTokens := by
  intro s fulls seqs out hfulls happly
  obtain ⟨hlen, hroot⟩ := lz78Apply_codes happly
  have hfails {x : List Byte} {e : Err} (hx : s.inputIs x) (hdec : lz78Dec s.cfg.dictCap.val x = .error e) :
      FailsWith .lz78Dec s e.code :=
    ((concludes_lz78Dec hx).failsWith_iff _).2 (.inl ⟨e, hdec, rfl⟩)
  refine ⟨hlen, hroot, fun c b q hq => ?_, fun hcap => ?_,
    fun rest hmany hx => hfails hx (lz78Dec_too_many hfulls happly hmany rest)⟩
  · rw [lz78Apply_append, happly, Option.bind_some, lz78Apply_cons, hq, Option.bind_some, lz78Apply]
  · have hread (rest : List Byte) := lz78Dec_fulls_append hfulls happly hcap rest
    have hcompletes {rest y : List Byte} (hx : s.inputIs (lz78FullBytes fulls ++ rest))
        (hrest : lz78Parse s.cfg.dictCap.val seqs rest = .ok y) (hfit : (out ++ y).length ≤ s.cfg.obufCap.val) :
        Completes .lz78Dec s (out ++ y) :=
      ((concludes_lz78Dec hx).completes_iff _).2 ⟨by rw [hread, hrest, Except.map], hfit⟩
    refine ⟨fun hx hfit => ?_, fun c q hc hq hx hfit => hcompletes hx ?_ hfit, fun c rest hc hbad hx => ?_,
      fun rest hpos hshort hx => hfails hx (e := .lz78Length) ?_⟩
    · rw [← List.append_nil out] at hfit ⊢
      exact hcompletes (by rwa [List.append_nil]) (lz78Parse_nil _ seqs) hfit
    · rw [lz78Parse_be32 hc, hq, Option.elim_some]
    · rw [List.append_assoc] at hx
      refine hfails hx (e := .lz78Code) ?_
      rw [hread, lz78Parse_unassigned hc (List.getElem?_eq_none (by omega)), Except.map]
    · rw [hread, lz78Parse_short _ seqs hpos hshort, Except.map]

end Sys2Proof.Machine
end

section
/-!
PROOFS. How commands fail and where a step stops (60_exceptions.md, 70_reset_and_hazards.md), and the composer of
48_companion_units.md: the errors of each unit's function, the three causes of a command's failure, and the host
operations that stop.
-/

namespace Sys2Proof.Machine

/-! The composer (48_companion_units.md R270). -/

theorem composeEnc_cons (c : Codec) (cs : List Codec) (x : List Byte) :
    composeEnc (c :: cs) x = (c.compress x).bind (composeEnc cs) := by
  rw [composeEnc]
  cases c.compress x <;> rfl

theorem composeDec_cons (c : Codec) (cs : List Codec) (y : List Byte) :
    composeDec (c :: cs) y = (composeDec cs y).bind c.decompress := by
  rw [composeDec]
  cases composeDec cs y <;> rfl

/-- Settles O60: by induction on the list, the first codec undone last. -/
theorem compositionRoundTrip : Obligations.CompositionRoundTrip := by
  intro cs hcs
  induction cs with
  | nil => exact fun _ _ h => congrArg some (Option.some.inj h).symm
  | cons c cs ih =>
    intro x y h
    obtain ⟨hc, hcs⟩ := List.forall_mem_cons.1 hcs
    rw [composeEnc_cons, Option.bind_eq_some_iff] at h
    obtain ⟨z, hz, hy⟩ := h
    rw [composeDec_cons, ih hcs z y hy, Option.bind_some, hc x z hz]

/-! The host operations that stop (10_state.md R28, R42, R43). -/

/-- `Stops s op`: the operation reaches a cell that does not exist or writes more than 8 bits to `CMD`. -/
def Stops (s : State) : HostOp → Prop
  | .load x => s.cfg.ibufCap.val < x.length
  | .pipe => s.cfg.ibufCap.val < s.outLen.toNat
  | .writeIbuf k _ => s.cfg.ibufCap.val ≤ k
  | .readIbuf k => s.cfg.ibufCap.val ≤ k
  | .readObuf k => s.cfg.obufCap.val ≤ k
  | .set n v => n = 0 ∧ 255 < v.toNat
  | _ => False

theorem stops_iff {s : State} {op : HostOp} : Stops s op ↔
    (∃ x, op = .load x ∧ s.cfg.ibufCap.val < x.length) ∨ (op = .pipe ∧ s.cfg.ibufCap.val < s.outLen.toNat) ∨
      (∃ k b, op = .writeIbuf k b ∧ s.cfg.ibufCap.val ≤ k) ∨ (∃ k, op = .readIbuf k ∧ s.cfg.ibufCap.val ≤ k) ∨
      (∃ k, op = .readObuf k ∧ s.cfg.obufCap.val ≤ k) ∨ ∃ v, op = .set 0 v ∧ 255 < v.toNat := by
  cases op <;> simp [Stops]

theorem issue_answers (op : Byte) (s : State) : ∃ t, issue op s = .next t := by
  obtain ⟨_, -, hout⟩ | ⟨_, herr⟩ := issue_next op s
  · exact ⟨_, hout⟩
  · exact ⟨_, herr⟩

/-- An operation that faults exactly when `q` holds answers a next state exactly when it does not. -/
theorem answers_iff_of_cases {o : Host.Outcome State Fault Refusal} {t : State} {e : Fault} {p q : Prop}
    (h : (p ∧ o = .next t) ∨ (q ∧ o = .fault e)) (hexcl : p → ¬ q) : (∃ t, o = .next t) ↔ ¬ q := by
  obtain ⟨hp, rfl⟩ | ⟨hq, rfl⟩ := h
  · exact iff_of_true ⟨t, rfl⟩ (hexcl hp)
  · exact iff_of_false (by simp) (not_not_intro hq)

theorem hostLoad_answers_iff {x : List Byte} {s : State} :
    (∃ t, hostLoad x s = .next t) ↔ ¬ s.cfg.ibufCap.val < x.length :=
  answers_iff_of_cases (hostLoad_cases x s) Nat.not_lt.2

/-- The bytes `PIPE` loads are `OUT_LEN` many, whatever the cells of `OBUF` hold. -/
theorem hostPipe_answers_iff {s : State} :
    (∃ t, hostPipe s = .next t) ↔ ¬ s.cfg.ibufCap.val < s.outLen.toNat := by
  rw [hostPipe, hostLoad_answers_iff, Memory.drawBytes_length, State.withDraws_cfg]

theorem hostSet_answers_iff {n : Nat} {v : Word} {s : State} :
    (∃ t, hostSet n v s = .next t) ↔ ¬ (n = 0 ∧ 255 < v.toNat) := by
  obtain ⟨-, hv, hset⟩ | ⟨hn, hv, hset⟩ | ⟨hn, hset⟩ := hostSet_cases n v s
  · rw [hset]
    exact iff_of_true (issue_answers _ s) fun h => Nat.not_lt.2 hv h.2
  · rw [hset]
    exact iff_of_false (by simp) (not_not_intro ⟨hn, hv⟩)
  · exact iff_of_true ⟨_, hset⟩ fun h => hn h.1

/-- A host operation answers a next state exactly unless it stops. -/
theorem perform_answers_iff {s : State} {op : HostOp} : (∃ t, perform op s = .next t) ↔ ¬ Stops s op := by
  cases op with
  | load x => exact hostLoad_answers_iff
  | pipe => exact hostPipe_answers_iff
  | set n v => exact hostSet_answers_iff
  | writeIbuf k b => exact answers_iff_of_cases (hostWriteIbuf_cases k b s) Nat.not_le.2
  | readIbuf k => exact answers_iff_of_cases (hostReadIbuf_cases k s) Nat.not_le.2
  | readObuf k => exact answers_iff_of_cases (hostReadObuf_cases k s) Nat.not_le.2
  | run c => exact iff_of_true (issue_answers c s) not_false
  | reset | writeObuf | readReg | expectReg | expectObuf => exact iff_of_true ⟨_, rfl⟩ not_false

/-- Settles O11: a step performs its operation, and only a host access or a wide write of `CMD` stops. -/
theorem stepStopsExactly : Obligations.StepStopsExactly := by
  refine ⟨fun s => step_nil, fun s op rest hhost => ?_⟩
  rw [step_cons hhost, perform_answers_iff, stops_iff]
  simp only [State.withHost_cfg, State.withHost_outLen]

/-! The errors of each unit's function (60_exceptions.md R281). -/

/-- The errors that the unit's function of a command can raise: its row of 60_exceptions.md R281 without `E_PARAM`, and
with `E_CAPACITY` only for a full dictionary (47_lz78.md R250). -/
def unitErrors : Instr → List Err
  | .rlecDec => [.rlecOverrun, .rlecNoValue]
  | .rlepDec => [.rlepOdd]
  | .mtfEnc | .mtfDec => [.mtfRange]
  | .bwtDec => [.bwtTrunc, .bwtIndex]
  | .hufDec => [.hufHeader, .hufBits]
  | .hufBuild => [.hufHeader]
  | .lz77Dec => [.lz77Length, .lz77Ref]
  | .lz78Enc => [.capacity]
  | .lz78Dec => [.capacity, .lz78Length, .lz78Code]
  | .rlecEnc | .rlepEnc | .bwtEnc | .hufEnc | .lz77Enc | .lzssEnc => []

theorem code_of_mem_unitErrors {i : Instr} {e : Err} (h : e ∈ unitErrors i) :
    e.code ∈ allowedCodes i ∧ e.code ≠ 0x02#8 := by
  revert e
  cases i <;> decide

/-- Every command may end with `E_PARAM` and with `E_CAPACITY`. -/
theorem param_and_capacity_mem_allowedCodes (i : Instr) : 0x02#8 ∈ allowedCodes i ∧ 0x03#8 ∈ allowedCodes i := by
  cases i <;> decide

theorem map_eq_error_iff {ε α β : Type} {r : Except ε α} {g : α → β} {e : ε} :
    r.map g = .error e ↔ r = .error e := by
  cases r <;> simp [Except.map]

theorem error_of_elim {ε α β : Type} {o : Option α} {g : α → Except ε β} {e₀ e : ε}
    (h : o.elim (.error e₀) g = .error e) : e = e₀ ∨ ∃ a, g a = .error e := by
  cases o with
  | none => exact .inl (Except.error.inj h).symm
  | some a => exact .inr ⟨a, h⟩

section

variable {x : List Byte} {e : Err}

theorem rlecParse_error {fuel : Nat} (h : rlecParse fuel x = .error e) : e ∈ unitErrors .rlecDec := by
  fun_induction rlecParse fuel x with
  | case1 | case2 => cases h
  | case3 | case5 =>
    cases h
    decide
  | case4 _ _ _ _ _ _ ih | case6 _ _ _ _ _ _ ih => exact ih (map_eq_error_iff.1 h)

theorem rlepDec_error (h : rlepDec x = .error e) : e ∈ unitErrors .rlepDec := by
  unfold rlepDec at h
  split at h
  · cases h
    decide
  · cases h

theorem ifBelow_error {alpha : Nat} {y : List Byte} (h : ifBelow alpha x y = .error e) :
    e = .mtfRange ∧ ∃ b ∈ x, alpha ≤ b.toNat := by
  by_cases hx : ∀ b ∈ x, b.toNat < alpha
  · cases (ifBelow_of_lt hx).symm.trans h
  · have hlarge : ∃ b ∈ x, alpha ≤ b.toNat := by simpa using hx
    cases (ifBelow_of_le hlarge).symm.trans h
    exact ⟨rfl, hlarge⟩

theorem bwtParse_error {fuel : Nat} (h : bwtParse fuel x = .error e) : e ∈ unitErrors .bwtDec := by
  fun_induction bwtParse fuel x with
  | case1 | case2 => cases h
  | case3 | case4 | case6 =>
    cases h
    decide
  | case5 _ _ _ _ _ _ _ _ _ _ _ _ _ _ ih => exact ih (map_eq_error_iff.1 h)

theorem hufBuild_error (h : hufBuild x = .error e) : e ∈ unitErrors .hufBuild := by
  by_cases hne : x = []
  · subst hne
    cases h
  · by_cases htable : ∃ tbl : List HufEntry, HufEntry.tableWf tbl = true ∧ x = hufTableBytes tbl
    · obtain ⟨tbl, hwf, rfl⟩ := htable
      obtain ⟨tree, htree, -⟩ := exists_hufTree (ne_nil_of_tableWf hwf)
      cases (hufBuild_table hwf htree).symm.trans h
    · cases (hufBuild_of_not_table hne htable).symm.trans h
      decide

theorem hufBits_error {root t : HufTree} {bits : List Bool} (h : hufBits root t bits = .error e) : e = .hufBits := by
  fun_induction hufBits root t bits with
  | case1 => cases h
  | case2 | case3 =>
    cases h
    rfl
  | case4 _ _ _ _ ih => exact ih (map_eq_error_iff.1 h)
  | case5 _ _ _ _ _ _ ih => exact ih (map_eq_error_iff.1 h)
  | case6 _ _ _ _ _ _ _ ih => exact ih h

theorem hufDec_error (h : hufDec x = .error e) : e ∈ unitErrors .hufDec := by
  by_cases hne : x = []
  · subst hne
    cases h
  · by_cases hstream : IsHufStream x
    · obtain ⟨tbl, pad, body, hwf, hpad, hbody, rfl⟩ := hstream
      obtain ⟨tree, htree, -⟩ := exists_hufTree (ne_nil_of_tableWf hwf)
      rw [hufDec_header hwf htree hpad hbody] at h
      cases hufBits_error h
      decide
    · cases (hufDec_of_not_stream hne hstream).symm.trans h
      decide

theorem lz77Parse_five (out : List Byte) (o0 o1 l0 l1 lit : Byte) (rest : List Byte) :
    lz77Parse out (o0 :: o1 :: l0 :: l1 :: lit :: rest) =
      (backCopy out (rd16 o0 o1) (rd16 l0 l1)).elim (.error .lz77Ref) fun y => lz77Parse (y ++ [lit]) rest := by
  simpa [lz77TokenBytes, be16_rd16] using lz77Parse_full (rd16_lt o0 o1) (rd16_lt l0 l1) out lit rest

theorem lz77Parse_four (out : List Byte) (o0 o1 l0 l1 : Byte) : lz77Parse out [o0, o1, l0, l1] =
    (backCopy out (rd16 o0 o1) (rd16 l0 l1)).elim (.error .lz77Ref) .ok := by
  simpa [lz77TokenBytes, be16_rd16] using lz77Parse_final (rd16_lt o0 o1) (rd16_lt l0 l1) out

theorem lz77Parse_error {out d : List Byte} (h : lz77Parse out d = .error e) : e ∈ unitErrors .lz77Dec := by
  match d with
  | [] => cases h
  | [_] | [_, _] | [_, _, _] =>
    cases h
    decide
  | [o0, o1, l0, l1] =>
    rw [lz77Parse_four] at h
    obtain rfl | ⟨_, h⟩ := error_of_elim h
    · decide
    · cases h
  | o0 :: o1 :: l0 :: l1 :: lit :: rest =>
    rw [lz77Parse_five] at h
    obtain rfl | ⟨_, h⟩ := error_of_elim h
    · decide
    · exact lz77Parse_error h
termination_by d.length

theorem lz78Scan_error {cap next cur : Nat} {dict : Lz78Dict} (h : lz78Scan cap dict next cur x = .error e) :
    e ∈ unitErrors .lz78Enc := by
  fun_induction lz78Scan cap dict next cur x with
  | case1 => cases h
  | case2 _ _ _ _ _ _ _ ih => exact ih h
  | case3 =>
    cases h
    decide
  | case4 _ _ _ _ _ _ _ ih => exact ih (map_eq_error_iff.1 h)

theorem lz78Parse_error {cap : Nat} {seqs : List (List Byte)} {d : List Byte} (h : lz78Parse cap seqs d = .error e) :
    e ∈ unitErrors .lz78Dec := by
  match d with
  | [] => cases h
  | [_] | [_, _] | [_, _, _] =>
    cases h
    decide
  | [c0, c1, c2, c3] =>
    rw [lz78Parse_four] at h
    obtain rfl | ⟨_, h⟩ := error_of_elim h
    · decide
    · cases h
  | c0 :: c1 :: c2 :: c3 :: b :: rest =>
    rw [lz78Parse_five] at h
    obtain rfl | ⟨_, h⟩ := error_of_elim h
    · decide
    · split at h
      · cases h
        decide
      · exact lz78Parse_error (map_eq_error_iff.1 h)
termination_by d.length

/-- What a unit's function raises is an error of its command. -/
theorem unitOf_error {c : Config} {p : Params} {i : Instr} {f : List Byte → Except Err (List Byte)}
    (hf : unitOf c p i = some f) (h : f x = .error e) : e ∈ unitErrors i := by
  cases i with
  | lz77Enc | lzssEnc =>
    obtain ⟨_, -, rfl⟩ := Option.map_eq_some_iff.1 hf
    cases h
  | rlecEnc | rlepEnc | bwtEnc | hufEnc =>
    cases hf
    cases h
  | mtfEnc | mtfDec =>
    obtain ⟨_, hfx, -⟩ := unitOf_mtf (by simp) hf x
    exact List.mem_singleton.2 (ifBelow_error (hfx.symm.trans h)).1
  | rlecDec =>
    cases hf
    exact rlecParse_error h
  | rlepDec =>
    cases hf
    exact rlepDec_error h
  | bwtDec =>
    cases hf
    exact bwtParse_error h
  | hufDec =>
    cases hf
    exact hufDec_error h
  | hufBuild =>
    cases hf
    exact hufBuild_error h
  | lz77Dec =>
    cases hf
    exact lz77Parse_error h
  | lz78Enc =>
    cases hf
    exact lz78Scan_error (map_eq_error_iff.1 h)
  | lz78Dec =>
    cases hf
    exact lz78Parse_error h

end

/-! The parameters that step 3 of 30_encoding.md R72 refuses. -/

theorem exists_of_boundedOperand {bound n : Nat} {r : Option Word} (h : boundedOperand bound r = some n) :
    ∃ v, r = some v ∧ v.toNat ≤ bound := by
  cases r with
  | none => cases h
  | some v => exact ⟨v, rfl, by_contra fun hlarge => by simp [boundedOperand, hlarge] at h⟩

theorem accepted_of_unitOf {c : Config} {p : Params} {i : Instr} {f : List Byte → Except Err (List Byte)}
    (hf : unitOf c p i = some f) : p.accepted i := by
  cases i with
  | mtfEnc => exact mtfAlpha_le_of_unitOf (.inl rfl) hf
  | mtfDec => exact mtfAlpha_le_of_unitOf (.inr rfl) hf
  | lz77Enc =>
    obtain ⟨_, hop, -⟩ := Option.map_eq_some_iff.1 hf
    unfold lz77Operand at hop
    split at hop
    · next hw hla => exact ⟨exists_of_boundedOperand hw, exists_of_boundedOperand hla⟩
    · cases hop
  | lzssEnc =>
    obtain ⟨_, hop, -⟩ := Option.map_eq_some_iff.1 hf
    unfold lzssOperand at hop
    split at hop
    · next hw hla =>
      obtain ⟨w, hw, -⟩ := exists_of_boundedOperand hw
      obtain ⟨la, hla, -⟩ := exists_of_boundedOperand hla
      exact ⟨⟨w, hw⟩, la, hla⟩
    · cases hop
  | _ => trivial

theorem unitOf_eq_none_iff {c : Config} {p : Params} {i : Instr} : unitOf c p i = none ↔ ¬ p.accepted i := by
  constructor
  · intro hnone haccepted
    obtain ⟨f, hf⟩ := unitOf_of_accepted c haccepted
    cases hnone.symm.trans hf
  · exact fun h => Option.eq_none_iff_forall_ne_some.2 fun f hf => h (accepted_of_unitOf hf)

/-! How a command fails. -/

section

variable {i : Instr} {s : State} {c : BitVec 8}

/-- A command whose parameters are refused fails with `E_PARAM`, with or without its input. -/
theorem failsWith_of_not_accepted (h : ¬ s.params.accepted i) : FailsWith i s 0x02#8 := by
  cases hin : inputOperand s with
  | none => exact failsWith_of_no_input i hin
  | some x =>
    have hend := concludes_commandResult i ((inputOperand_eq_some s x).1 hin)
    rwa [unitOf_eq_none_iff.2 h, commandResult_none] at hend

/-- The three causes of a failure: the input or the parameters, the unit's function, the output capacity. -/
theorem FailsWith.cause (h : FailsWith i s c) :
    (c = 0x02#8 ∧ (inputOperand s = none ∨ ¬ s.params.accepted i)) ∨
    ∃ x f, unitOf s.cfg s.params i = some f ∧ ((∃ e, f x = .error e ∧ c = e.code) ∨
      ∃ out, f x = .ok out ∧ s.cfg.obufCap.val < out.length ∧ c = 0x03#8) := by
  cases hin : inputOperand s with
  | none => exact .inl ⟨h.unique (failsWith_of_no_input i hin), .inl rfl⟩
  | some x =>
    cases hf : unitOf s.cfg s.params i with
    | none =>
      have hrefused := unitOf_eq_none_iff.1 hf
      exact .inl ⟨h.unique (failsWith_of_not_accepted hrefused), .inr hrefused⟩
    | some f =>
      have hend := concludes_of_unitOf ((inputOperand_eq_some s x).1 hin) hf
      exact .inr ⟨x, f, rfl, (hend.failsWith_iff c).1 h⟩

theorem FailsWith.mem_allowedCodes (h : FailsWith i s c) : c ∈ allowedCodes i := by
  obtain ⟨rfl, -⟩ | ⟨x, f, hf, ⟨e, he, rfl⟩ | ⟨-, -, -, rfl⟩⟩ := h.cause
  · exact (param_and_capacity_mem_allowedCodes i).1
  · exact (code_of_mem_unitErrors (unitOf_error hf he)).1
  · exact (param_and_capacity_mem_allowedCodes i).2

end

/-- Settles O12: every command ends, and its cause of failure fixes the code; `F_MTF_RANGE` needs a byte that is
not below `MTF_ALPHA`. -/
theorem everyCommandSucceedsOrFailsByTable : Obligations.EveryCommandSucceedsOrFailsByTable := by
  constructor
  · intro i s
    obtain ⟨y, hfit, hexec⟩ | ⟨e, hexec⟩ := exec_next i s
    · exact .inl ⟨y, hfit, .of_exec hexec hfit⟩
    · have hfails := FailsWith.of_exec hexec
      exact .inr ⟨e.code, hfails.mem_allowedCodes, e.code_legal.1, hfails⟩
  · intro s hfails
    obtain ⟨hcode, -⟩ | ⟨x, f, hf, ⟨e, he, hcode⟩ | ⟨-, -, -, hcode⟩⟩ := hfails.cause
    · exact absurd hcode (by decide)
    · obtain ⟨y, hfx, -⟩ := unitOf_mtf (.inl rfl) hf x
      obtain ⟨-, b, -, hb⟩ := ifBelow_error (hfx.symm.trans he)
      exact lt_of_le_of_lt hb b.isLt
    · exact absurd hcode (by decide)

/-- Settles O13: the cause of a failure with this code is the input or the parameters, as no unit's function raises
`E_PARAM`. -/
theorem parameterErrorExactly : Obligations.ParameterErrorExactly := by
  intro i s
  have hinput := inputOperand_eq_none s
  constructor
  · intro hfails
    obtain ⟨-, hin | hrefused⟩ | ⟨x, f, hf, ⟨e, he, hcode⟩ | ⟨-, -, -, hcode⟩⟩ := hfails.cause
    · exact (hinput.1 hin).imp_right .inl
    · exact .inr (.inr hrefused)
    · exact absurd hcode.symm (code_of_mem_unitErrors (unitOf_error hf he)).2
    · exact absurd hcode (by decide)
  · rintro (hlong | hcell | hrefused)
    · exact failsWith_of_no_input i (hinput.2 (.inl hlong))
    · exact failsWith_of_no_input i (hinput.2 (.inr hcell))
    · exact failsWith_of_not_accepted hrefused

end Sys2Proof.Machine
end
